-- ==== Sys2Proof/Word.lean ====
section
/-!
DEFINITION. The bit-vector types of the model (spec/00_scope.md R3, R11; spec/92_eei_decisions.md D2).
-/

namespace Sys2Proof

/-- A byte: one element of a FIFO, of the transmit ring, of the serial line or of host memory. -/
abbrev Byte := BitVec 8

/-- A register value: an unsigned 32-bit word (R3, R11). -/
abbrev Word := BitVec 32

/-- A host address or byte count. The spec gives no address width; the model takes 64 bits
(DESIGN CHOICE, notes/assumptions/4.md). -/
abbrev Addr := BitVec 64

end Sys2Proof
end

