-- ==== Sys2Proof/Config.lean ====
section
/-!
DEFINITION. The implementation parameters of spec/00_scope.md R8, the choices the spec leaves free
(which agent steps next, the draws), and the free value that supplies them when no choice is listed.
-/

namespace Sys2Proof

/-- `TX_EVENT`: what sets TX-pending (R8, R166). -/
inductive TxEvent where
  | dequeue
  | fifoEmpty
  | spontaneous
deriving DecidableEq, Repr

/-- `RX_EVENT`: what sets RX-pending (R8, R167). -/
inductive RxEvent where
  | enqueue
  | spontaneous
deriving DecidableEq, Repr

/-- `PEND_W1`: the effect of writing 1 to a pending bit (R8, R95). -/
inductive PendW1 where
  | noEffect
  | set
deriving DecidableEq, Repr

/-- `RX_OVERRUN`: what a byte arriving at a full RX FIFO does (R8, R165). -/
inductive RxOverrun where
  | dropNew
  | any
deriving DecidableEq, Repr

/-- `BUS_ENDIAN`: the byte order of the bus, which no rule reads (R54). -/
inductive Endian where
  | little
  | big
deriving DecidableEq, Repr

/-- The parameters of R8 that belong to the implementation. `NPORTS` is the length of
`State.ports`; `BASE`, `IRQ`, `CTRL_RESET` and `PEND_RESET` are per port (`PortInit`). A `Config` is a
field of `State`, so a statement about every state is a statement about every parameter value. -/
structure Config where
  /-- `TXFIFO_DEPTH`: TX FIFO capacity in bytes, at least 1. -/
  txFifoDepth : Nat
  /-- `RXFIFO_DEPTH`: RX FIFO capacity in bytes, at least 1. -/
  rxFifoDepth : Nat
  /-- `XMIT_CAP`: transmit ring capacity, a power of two, at least 2. -/
  xmitCap : Nat
  txEvent : TxEvent
  rxEvent : RxEvent
  /-- `PEND_GATED`: pending bits are set only while the matching IRQ-enable is set. -/
  pendGated : Bool
  pendW1 : PendW1
  /-- `EN_GATES_TX`: UART-enable clear stops the transmitter. -/
  enGatesTx : Bool
  /-- `EN_GATES_RX`: UART-enable clear stops reception. -/
  enGatesRx : Bool
  /-- `EN_GATES_IRQ`: UART-enable clear forces the interrupt line low. -/
  enGatesIrq : Bool
  rxOverrun : RxOverrun
  busEndian : Endian
deriving DecidableEq, Repr

/-- The bounds R8 puts on the parameters. -/
def Config.wf (c : Config) : Bool :=
  decide (1 ≤ c.txFifoDepth) && decide (1 ≤ c.rxFifoDepth) && decide (2 ≤ c.xmitCap) &&
    decide (2 ^ c.xmitCap.log2 = c.xmitCap)

/-- The reference configuration of R9. -/
def Config.reference : Config where
  txFifoDepth := 4
  rxFifoDepth := 4
  xmitCap := 16
  txEvent := .dequeue
  rxEvent := .enqueue
  pendGated := false
  pendW1 := .noEffect
  enGatesTx := false
  enGatesRx := true
  enGatesIrq := true
  rxOverrun := .dropNew
  busEndian := .little

/-- What an overrun leaves under `RX_OVERRUN = any`: any bytes in the RX FIFO, any RX-pending (R165). -/
structure OverrunDraw where
  fifo : List Byte
  rxpend : Bool
deriving DecidableEq, Repr, Inhabited

/-- The steps the agents of R180 can be asked for. -/
inductive Agent where
  /-- The ordinary context issues the caller's next action (R70, R181). -/
  | call
  /-- The ordinary-context operation in progress on port `p` takes its next step (R45). -/
  | op (p : Nat)
  /-- The `k`-th console write in progress takes its next step (R155). -/
  | console (k : Nat)
  /-- The running interrupt handler takes its next step (R183). -/
  | handler
  /-- The platform dispatches the handler of port `p` (R182). -/
  | dispatch (p : Nat)
  /-- The transmitter of port `p` loads its shifter (R161). -/
  | txLoad (p : Nat)
  /-- The transmitter of port `p` finishes a byte (R162). -/
  | txDone (p : Nat)
  /-- The environment offers byte `b` on the line of port `p` (R164); `ovr` is the draw of R165. -/
  | rx (p : Nat) (b : Byte) (ovr : OverrunDraw)
  /-- A spontaneous TX event on port `p` (R166). -/
  | pendTx (p : Nat)
  /-- A spontaneous RX event on port `p` (R167). -/
  | pendRx (p : Nat)
  /-- Step `hp0` of the host producer: store `b` at `buf[head]` (R188). -/
  | hostPut (p : Nat) (b : Byte)
  /-- Step `hp1` of the host producer: publish it by advancing `head` (R188). -/
  | hostPublish (p : Nat)
  /-- The line discipline consumes one published item of the input queue (R44, R188). -/
  | hostTake (p : Nat)
  /-- Ordinary code stores a byte in host memory, such as a console string (R53, R150). -/
  | hostStore (a : Addr) (b : Byte)
  /-- The caller sets or clears `cpu_masked` (R46). -/
  | setMasked (m : Bool)
deriving DecidableEq, Repr, Inhabited

/-- One scheduling choice: which agent is asked to step, and the 32-bit draw that step may use for the
value the spec calls "any value" (R38, R92, R93), for the platform's answer (R125), or for a byte of
host memory that nothing has written. A step uses its draw at most once. -/
structure Choice where
  agent : Agent
  draw : Word
deriving DecidableEq, Repr, Inhabited

/-- FREE VALUE. The choice made when `State.schedule` lists none: nothing is known of it, since any
enabled step of any agent may be the next one (R180). notes/assumptions/1.md -/
opaque Config.choice : Nat → Choice

/-- `LINE_MAX`: the largest line index (R8). -/
def lineMax : Nat := 5

end Sys2Proof
end

