-- ==== Sys2Proof/Syntax.lean ====
section
/-!
DEFINITION. The actions of spec/30_encoding.md: one constructor of `Instr` per row of the opcode table.
-/

namespace Sys2Proof

/-- The four registers of the Register Window (R21, R72). -/
inductive Reg where
  | ctrl
  | rxdata
  | txdata
  | status
deriving DecidableEq, Repr

/-- The core operations of R75, in the order of their numbers. -/
inductive Operation where
  | setBit
  | clearBit
  | testBit
  | writeTxFifo
  | rxDrain
  | irqHandler
  | startup
  | shutdown
  | startTx
  | stopTx
  | stopRx
  | txEmpty
  | setMctrl
  | setTermios
  | consoleWrite
deriving DecidableEq, Repr

/-- What an action code selects (R78): a bus access or a core operation. -/
inductive Opcode where
  | rd (r : Reg)
  | wr (r : Reg)
  | op (o : Operation)
deriving DecidableEq, Repr

/-- An action `(code, port, operands)` (R70): `p` is the line index of the port it is for. The operands
are those of R75 and R76. `consoleWrite` has a port like every action, which its meaning does not read:
R151 fixes the port it acts on. The spec gives no width for the opaque `new` and `old` of `setTermios`, nor
for the address and count of `consoleWrite`: 32 bits for the first two, 64 for the others (DESIGN CHOICE,
notes/assumptions/5.md and 4.md). -/
inductive Instr where
  | rdCtrl (p : Nat)
  | rdRxdata (p : Nat)
  | rdTxdata (p : Nat)
  | rdStatus (p : Nat)
  | wrCtrl (p : Nat) (v : Word)
  | wrRxdata (p : Nat) (v : Word)
  | wrTxdata (p : Nat) (v : Word)
  | wrStatus (p : Nat) (v : Word)
  | setBit (p : Nat) (reg : Byte) (mask : Word)
  | clearBit (p : Nat) (reg : Byte) (mask : Word)
  | testBit (p : Nat) (reg : Byte) (mask : Word)
  | writeTxFifo (p : Nat)
  | rxDrain (p : Nat)
  | irqHandler (p : Nat)
  | startup (p : Nat)
  | shutdown (p : Nat)
  | startTx (p : Nat)
  | stopTx (p : Nat)
  | stopRx (p : Nat)
  | txEmpty (p : Nat)
  | setMctrl (p : Nat) (mctrl : Word)
  | setTermios (p : Nat) (new old : Word)
  | consoleWrite (p : Nat) (str count : Addr)
deriving DecidableEq, Repr

/-- What the action's code selects. -/
def Instr.opcode : Instr → Opcode
  | .rdCtrl _ => .rd .ctrl
  | .rdRxdata _ => .rd .rxdata
  | .rdTxdata _ => .rd .txdata
  | .rdStatus _ => .rd .status
  | .wrCtrl _ _ => .wr .ctrl
  | .wrRxdata _ _ => .wr .rxdata
  | .wrTxdata _ _ => .wr .txdata
  | .wrStatus _ _ => .wr .status
  | .setBit _ _ _ => .op .setBit
  | .clearBit _ _ _ => .op .clearBit
  | .testBit _ _ _ => .op .testBit
  | .writeTxFifo _ => .op .writeTxFifo
  | .rxDrain _ => .op .rxDrain
  | .irqHandler _ => .op .irqHandler
  | .startup _ => .op .startup
  | .shutdown _ => .op .shutdown
  | .startTx _ => .op .startTx
  | .stopTx _ => .op .stopTx
  | .stopRx _ => .op .stopRx
  | .txEmpty _ => .op .txEmpty
  | .setMctrl _ _ => .op .setMctrl
  | .setTermios _ _ _ => .op .setTermios
  | .consoleWrite _ _ _ => .op .consoleWrite

/-- The line index of the port the action is for. -/
def Instr.port : Instr → Nat
  | .rdCtrl p | .rdRxdata p | .rdTxdata p | .rdStatus p => p
  | .wrCtrl p _ | .wrRxdata p _ | .wrTxdata p _ | .wrStatus p _ => p
  | .setBit p _ _ | .clearBit p _ _ | .testBit p _ _ => p
  | .writeTxFifo p | .rxDrain p | .irqHandler p => p
  | .startup p | .shutdown p | .startTx p | .stopTx p | .stopRx p | .txEmpty p => p
  | .setMctrl p _ | .setTermios p _ _ | .consoleWrite p _ _ => p

end Sys2Proof
end

