-- ==== Sys2Proof/WellFormed.lean ====
section
/-!
DEFINITION. Which terms of `Instr` are actions (spec/30_encoding.md R70): the port is a line index 0..5.
Every other operand is a bit vector of its own width, all of whose values the spec admits as an operand
(a bit operation on a data register is an action with a fault of its own, R76).
-/

namespace Sys2Proof

/-- R70: "`port` is the line index, 0..5, of the port the action is for". -/
def Instr.wellFormed (i : Instr) : Bool := decide (i.port ≤ lineMax)

end Sys2Proof
end

