-- ==== Sys2Proof/Decode.lean ====
section
/-!
DEFINITION. The encoding of actions (spec/30_encoding.md R70 to R79): the decoder, total on any bytes, and
after it the encoder. The action code is the spec's; how the port and the operands follow the code byte is
the model's (DESIGN CHOICE, notes/assumptions/5.md): one byte of port, then the operands in the order of
R75, a register offset as one byte, a 32-bit value as four bytes and an address or count as eight bytes,
each with its least significant byte first.
-/

namespace Sys2Proof

/-- Why bytes are no action. -/
inductive DecodeError where
  /-- There is no code byte. -/
  | empty
  /-- A bus-access code that R78 does not list: `F2 ACCESS` (R79 item 1). -/
  | notAdmitted (code : Byte)
  /-- A code 0x8F to 0xFF: `F6 RESERVED` (R79 item 2). -/
  | reserved (code : Byte)
  /-- The port byte is no line index 0..5 (R70). -/
  | badPort (port : Byte)
  /-- The bytes end before the operands do. -/
  | truncated (code : Byte)
deriving DecidableEq, Repr

/-- Register selected by `off[3:2]` (R51, R72). -/
def Reg.ofIndex (i : BitVec 2) : Reg :=
  if i = 0 then .ctrl else if i = 1 then .rxdata else if i = 2 then .txdata else .status

/-- The register's index `off[3:2]` (R72). -/
def Reg.index : Reg → BitVec 2
  | .ctrl => 0
  | .rxdata => 1
  | .txdata => 2
  | .status => 3

/-- The core operation of number `code[6:0]` (R75). -/
def Operation.ofNumber : Nat → Option Operation
  | 0x00 => some .setBit
  | 0x01 => some .clearBit
  | 0x02 => some .testBit
  | 0x03 => some .writeTxFifo
  | 0x04 => some .rxDrain
  | 0x05 => some .irqHandler
  | 0x06 => some .startup
  | 0x07 => some .shutdown
  | 0x08 => some .startTx
  | 0x09 => some .stopTx
  | 0x0A => some .stopRx
  | 0x0B => some .txEmpty
  | 0x0C => some .setMctrl
  | 0x0D => some .setTermios
  | 0x0E => some .consoleWrite
  | _ => none

/-- The operation's number (R75). -/
def Operation.number : Operation → BitVec 7
  | .setBit => 0x00
  | .clearBit => 0x01
  | .testBit => 0x02
  | .writeTxFifo => 0x03
  | .rxDrain => 0x04
  | .irqHandler => 0x05
  | .startup => 0x06
  | .shutdown => 0x07
  | .startTx => 0x08
  | .stopTx => 0x09
  | .stopRx => 0x0A
  | .txEmpty => 0x0B
  | .setMctrl => 0x0C
  | .setTermios => 0x0D
  | .consoleWrite => 0x0E

/-- The class, size, direction and offset fields of a code (R70, R71, R75). -/
def decodeCode (code : Byte) : Except DecodeError Opcode :=
  if code.getLsbD 7 then
    match Operation.ofNumber (code.extractLsb' 0 7).toNat with
    | some o => .ok (.op o)
    | none => .error (.reserved code)
  else if code.extractLsb' 5 2 = 0b10#2 ∧ code.extractLsb' 0 2 = 0b00#2 then
    let r := Reg.ofIndex (code.extractLsb' 2 2)
    .ok (if code.getLsbD 4 then .wr r else .rd r)
  else .error (.notAdmitted code)

/-- Reads one byte. -/
def takeByte : List Byte → Option (Byte × List Byte)
  | b :: bs => some (b, bs)
  | [] => none

/-- Reads a 32-bit value, least significant byte first. -/
def takeWord : List Byte → Option (Word × List Byte)
  | b0 :: b1 :: b2 :: b3 :: bs => some (b3 ++ b2 ++ b1 ++ b0, bs)
  | _ => none

/-- Reads a 64-bit address or count, least significant byte first. -/
def takeAddr (bs : List Byte) : Option (Addr × List Byte) :=
  match takeWord bs with
  | some (lo, bs') =>
    match takeWord bs' with
    | some (hi, bs'') => some (hi ++ lo, bs'')
    | none => none
  | none => none

/-- Reads the data operand of a bus write, then builds the action with `mk`. -/
def takeWord1 (mk : Word → Instr) (bs : List Byte) : Option (Instr × List Byte) :=
  match takeWord bs with
  | some (v, bs') => some (mk v, bs')
  | none => none

/-- Reads the operands `reg, mask` of a bit operation (R76). -/
def takeRegMask (mk : Byte → Word → Instr) (bs : List Byte) : Option (Instr × List Byte) :=
  match takeByte bs with
  | some (r, bs') => takeWord1 (mk r) bs'
  | none => none

/-- Reads the operands `new, old` of `set_termios` (R76), to which the spec gives no width: 32 bits each
(DESIGN CHOICE, notes/assumptions/5.md). -/
def takeWord2 (mk : Word → Word → Instr) (bs : List Byte) : Option (Instr × List Byte) :=
  match takeWord bs with
  | some (v, bs') => takeWord1 (mk v) bs'
  | none => none

/-- Reads the operands `s, n` of `console_write` (R76). -/
def takeAddr2 (mk : Addr → Addr → Instr) (bs : List Byte) : Option (Instr × List Byte) :=
  match takeAddr bs with
  | some (a, bs') =>
    match takeAddr bs' with
    | some (n, bs'') => some (mk a n, bs'')
    | none => none
  | none => none

/-- The operands of an action (R75, R76), after its code and port. -/
def decodeOperands (o : Opcode) (p : Nat) (bs : List Byte) : Option (Instr × List Byte) :=
  match o with
  | .rd .ctrl => some (.rdCtrl p, bs)
  | .rd .rxdata => some (.rdRxdata p, bs)
  | .rd .txdata => some (.rdTxdata p, bs)
  | .rd .status => some (.rdStatus p, bs)
  | .wr .ctrl => takeWord1 (.wrCtrl p) bs
  | .wr .rxdata => takeWord1 (.wrRxdata p) bs
  | .wr .txdata => takeWord1 (.wrTxdata p) bs
  | .wr .status => takeWord1 (.wrStatus p) bs
  | .op .setBit => takeRegMask (.setBit p) bs
  | .op .clearBit => takeRegMask (.clearBit p) bs
  | .op .testBit => takeRegMask (.testBit p) bs
  | .op .writeTxFifo => some (.writeTxFifo p, bs)
  | .op .rxDrain => some (.rxDrain p, bs)
  | .op .irqHandler => some (.irqHandler p, bs)
  | .op .startup => some (.startup p, bs)
  | .op .shutdown => some (.shutdown p, bs)
  | .op .startTx => some (.startTx p, bs)
  | .op .stopTx => some (.stopTx p, bs)
  | .op .stopRx => some (.stopRx p, bs)
  | .op .txEmpty => some (.txEmpty p, bs)
  | .op .setMctrl => takeWord1 (.setMctrl p) bs
  | .op .setTermios => takeWord2 (.setTermios p) bs
  | .op .consoleWrite => takeAddr2 (.consoleWrite p) bs

/-- Decodes the first action of a byte sequence and returns the bytes after it. The code is judged before
anything else (R186: `F6` and the code's `F2` come from the code alone). -/
def decode : List Byte → Except DecodeError (Instr × List Byte)
  | [] => .error .empty
  | code :: bs =>
    match decodeCode code with
    | .error e => .error e
    | .ok o =>
      match bs with
      | [] => .error (.truncated code)
      | port :: bs' =>
        if port.toNat ≤ lineMax then
          match decodeOperands o port.toNat bs' with
          | some r => .ok r
          | none => .error (.truncated code)
        else .error (.badPort port)

/-- The action code: `0 10 W off` for a bus access (R71), `1` and the operation number otherwise (R75). -/
def Opcode.code : Opcode → Byte
  | .rd r => 0b0100#4 ++ (r.index ++ 0b00#2)
  | .wr r => 0b0101#4 ++ (r.index ++ 0b00#2)
  | .op o => 0b1#1 ++ o.number

/-- The bytes of a 32-bit value, least significant first. -/
def wordBytes (v : Word) : List Byte :=
  [v.extractLsb' 0 8, v.extractLsb' 8 8, v.extractLsb' 16 8, v.extractLsb' 24 8]

/-- The bytes of an address or count, least significant first. -/
def addrBytes (a : Addr) : List Byte :=
  wordBytes (a.extractLsb' 0 32) ++ wordBytes (a.extractLsb' 32 32)

/-- The operand bytes of an action, in the order of R75. -/
def Instr.operandBytes : Instr → List Byte
  | .wrCtrl _ v | .wrRxdata _ v | .wrTxdata _ v | .wrStatus _ v => wordBytes v
  | .setBit _ r m | .clearBit _ r m | .testBit _ r m => r :: wordBytes m
  | .setMctrl _ m => wordBytes m
  | .setTermios _ new old => wordBytes new ++ wordBytes old
  | .consoleWrite _ a n => addrBytes a ++ addrBytes n
  | .rdCtrl _ | .rdRxdata _ | .rdTxdata _ | .rdStatus _ => []
  | .writeTxFifo _ | .rxDrain _ | .irqHandler _ => []
  | .startup _ | .shutdown _ | .startTx _ | .stopTx _ | .stopRx _ | .txEmpty _ => []

/-- The bytes of a well-formed action: its code (R71, R75), its port, its operands. -/
def encode (i : Instr) : List Byte :=
  i.opcode.code :: BitVec.ofNat 8 i.port :: i.operandBytes

/-- The most bytes an action has: code, port, address and count. -/
def longestAction : Nat := 18

/-- The bytes of an action whose low `nbits` bits are `w` and whose other bits are 0, first byte first. -/
def tableBytes (nbits w : Nat) : List Byte :=
  (List.range longestAction).map fun k => BitVec.ofNat 8 ((w % 2 ^ nbits) >>> (8 * k))

/-- The action the decoder reads from a table word (bit 0 is the least significant bit of the code byte). -/
def decodeTableWord (nbits w : Nat) : Option Instr :=
  match decode (tableBytes nbits w) with
  | .ok (i, _) => some i
  | .error _ => none

end Sys2Proof
end

