-- ==== Sys2Proof/Machine/State.lean ====
section
/-!
DEFINITION. The state of the modelled system (spec/10_state.md R20), its faults (R190), its refusals (R191)
and the state after reset (spec/70_reset_and_hazards.md R210 to R213). All of it is plain data.
-/

namespace Sys2Proof.Machine

/-- What a fault `F2 ACCESS` records: the address or the code (R190). -/
inductive AccessInfo where
  | address (a : Addr)
  | code (c : Byte)
deriving DecidableEq, Repr

/-- The model fault codes of R190, with the information each keeps. A meaning that raises one answers the
state with `State.fault` set; every later step then stops with it. Each is safe: it stops a run that the
hardware might continue (D42, "toward unprovable"). -/
inductive Fault where
  /-- `F1 RANGE`, raised by any window access whose offset lies outside 0..15 (R51). Safe. -/
  | range (a : Addr)
  /-- `F2 ACCESS`, raised by a window access of another width than 32 bits or at an offset that is no
  multiple of 4 (R51, R52), and by a bus-access code that is not admitted (R79). Safe. -/
  | access (i : AccessInfo)
  /-- `F3 TX_OVERFLOW`, raised by a write of TX-Data while the TX FIFO is full (R93). Safe. -/
  | txOverflow (v : Word)
  /-- `F4 BITOP_DATA`, raised by `set_bit`, `clear_bit` and `test_bit` on any register but Control and
  Status (R76). Safe. -/
  | bitopData (reg : Byte)
  /-- `F5 STATE`, raised by the operations of R138 when their `life` precondition fails. Safe. -/
  | state (o : Operation)
  /-- `F6 RESERVED`, raised by an action code 0x8F to 0xFF (R79). Safe. -/
  | reserved (c : Byte)
deriving DecidableEq, Repr

/-- The refusals: uses the spec gives no step (R191), so that the run has no meaning. Each is safe: a run
that reaches one is excluded from every claim. -/
inductive Refusal where
  /-- An instruction the model has no meaning for yet; raised only by an arm of `exec`. Safe. -/
  | notModelled (mnemonic : String)
  /-- Raised by an action for a line index at which no port exists (R70, notes/assumptions/8.md). Safe. -/
  | noSuchPort (p : Nat)
  /-- Raised by any access while the port's window is not mapped (R66, R191). Safe. -/
  | windowUnmapped
  /-- Raised by a lifecycle operation while another one of the port is in progress (R138), and by an operation
  that needs the port's control point while it is taken (R45, notes/assumptions/9.md). Safe. -/
  | portBusy
  /-- Raised by `console_write` when no port has line `CONSOLE_LINE` (R151, R191). Safe. -/
  | consoleAbsent
  /-- Raised by an `irq_handler` action that dispatch did not issue (R138, R191). Safe. -/
  | handlerNotDispatched
  /-- Raised by a caller's action whose port byte is no line index (R70). Safe. -/
  | badPort (port : Byte)
  /-- Raised by a caller's action whose bytes end before its operands do (notes/assumptions/5.md). Safe. -/
  | truncatedAction (c : Byte)
deriving DecidableEq, Repr

/-- The three outcomes of a step. -/
abbrev Out (σ : Type) := Host.Outcome σ Fault Refusal

/-- Why a step of an operation stops: a fault (R190) or a refusal (R191). -/
inductive Stop where
  | fault (f : Fault)
  | refusal (r : Refusal)
deriving DecidableEq, Repr

/-- The lifecycle state of a port (R42). -/
inductive Life where
  | inactive
  | starting
  | active
  | stopping
deriving DecidableEq, Repr

/-- The flag of an input-queue item; only `NORMAL` is ever produced (R44, D50). -/
inductive Flag where
  | normal
deriving DecidableEq, Repr

/-- Which access of a read-modify-write is next: the read, or the write after `v` was read (`sb0`/`sb1` of
R96, `cb0`/`cb1` of R97). -/
inductive Rmw where
  | read
  | write (v : Word)
deriving DecidableEq, Repr

/-- The control points of `write_tx_fifo` with its locals (R110): `t` is the tail read at `wf0`, `b` the byte
read at `wf3`. -/
inductive RefillPoint where
  | wf0
  | wf1 (t : Nat)
  | wf2 (m : Rmw)
  | wf3 (t : Nat)
  | wf4 (t : Nat) (b : Byte)
  | wf5 (t : Nat)
  | wfEmpty (m : Rmw)
deriving DecidableEq, Repr

/-- The control points of `rx_drain` (R111). -/
inductive DrainPoint where
  | rd0
  | rd1
  | rdFlush
deriving DecidableEq, Repr

/-- The control points of `irq_handler` with its local, the Status value `s` read at `ih0` (R112). At `ih1`
and `ih2` the point inside the refill or the drain stands beside it. -/
inductive HandlerPoint where
  | ih0
  | ih1 (s : Word) (r : RefillPoint)
  | ih2 (s : Word) (d : DrainPoint)
  | ih3 (m : Rmw)
deriving DecidableEq, Repr

/-- The control points `(operation, label)` of the ordinary-context operations on a port (R45), named by the
labels of their pseudocode: `set_bit` and `clear_bit` (R96, R97), a direct refill and drain (R110, R111),
`startup` `su0`..`su2` (R125), `shutdown` `sd0`..`sd2` (R130), `start_tx` (R131), `stop_tx` `st0`..`st2`
(R132), `stop_rx` `sr0`..`sr3` (R133). The operations of a single step (`test_bit`, `tx_empty`, the stubs)
have no point of their own: they end in the step that starts them. -/
inductive OpPoint where
  | setBit (r : Reg) (mask : Word) (m : Rmw)
  | clearBit (r : Reg) (mask : Word) (m : Rmw)
  | writeTxFifo (r : RefillPoint)
  | rxDrain (d : DrainPoint)
  | su0
  | su1 (m : Rmw)
  | su2 (m : Rmw)
  | sd0 (m : Rmw)
  | sd1 (m : Rmw)
  | sd2
  | startTx (r : RefillPoint)
  | st0 (m : Rmw)
  | st1
  | st2 (m : Rmw)
  | sr0 (m : Rmw)
  | sr1
  | sr2
  | sr3 (m : Rmw)
deriving DecidableEq, Repr

/-- The control points of `console_write` (R150). `i` counts the bytes sent and `c` is the byte read at
`cw4`. -/
inductive ConsolePoint where
  | cw0
  | cw1 (m : Rmw)
  | cw2 (i : Addr)
  | cw3 (i : Addr)
  | cw4 (i : Addr)
  | cw5 (i : Addr) (c : Byte)
  | cw6
  | cw7 (m : Rmw)
deriving DecidableEq, Repr

/-- A console write in progress: its operands `s` and `n`, its snapshot of `TXIE`, its control point
(R150, R155). -/
structure ConsoleRun where
  str : Addr
  count : Addr
  snap : Bool
  point : ConsolePoint
deriving DecidableEq, Repr

/-- A running interrupt handler: the port it serves (`in_handler`) and its control point (`hctl`)
(R45, R46). -/
structure HandlerRun where
  port : Nat
  point : HandlerPoint
deriving DecidableEq, Repr

/-- What a port's last value-returning action returned (R75): a word read, a Bool, `ok` or `err(c)`. -/
inductive Ret where
  | nothing
  | word (w : Word)
  | bool (b : Bool)
  | ok
  | err (c : Word)
deriving DecidableEq, Repr

/-- The hardware state of one UART (R20 item 1). The window's RX-Data, TX-Data and Status registers are views
of it; Control is stored. -/
structure UartHw where
  /-- Control, offset 0x0, all 32 bits (R23 to R27). -/
  ctrl : Word
  /-- The TX FIFO, oldest byte first (R39). -/
  txfifo : List Byte
  /-- The byte being sent on the line (R39). -/
  shifter : Option Byte
  /-- The RX FIFO, oldest byte first (R40). -/
  rxfifo : List Byte
  /-- `TXPEND`, Status bit 1 (R36). -/
  txpend : Bool
  /-- `RXPEND`, Status bit 0 (R37). -/
  rxpend : Bool
deriving DecidableEq, Repr

/-- The host-owned transmit ring of a port (R43). -/
structure Ring where
  buf : List Byte
  head : Nat
  tail : Nat
deriving DecidableEq, Repr

/-- The line-discipline input queue of a port (R44). -/
structure InputQueue where
  items : List (Byte × Flag)
  published : Nat
deriving DecidableEq, Repr

/-- Everything the spec keeps per port: the UART (R20), the Port record (R41), its ring and input queue
(R43, R44), its registration (R46) and its transmitted bytes (R47). -/
structure Port where
  hw : UartHw
  /-- The line index (R41). -/
  line : Nat
  /-- The base address of the Register Window (R41, R65). -/
  base : Addr
  /-- The interrupt line identifier (R41). -/
  irq : Nat
  /-- Bytes the refill wrote to TX-Data (R41, R196). -/
  txCount : Word
  /-- Bytes the drain delivered (R41, R196). -/
  rxCount : Word
  /-- The lifecycle state (R42). -/
  life : Life
  /-- The control point of the ordinary-context operation in progress, `none` when Idle (R45). Each port has its
  own, and operations of several ports may be in progress at once (DESIGN CHOICE, notes/assumptions/24.md). -/
  ctl : Option OpPoint
  ring : Ring
  inq : InputQueue
  /-- A handler is registered for the port's line (R46). -/
  registered : Bool
  /-- The bytes the transmitter has sent, in order (R47). -/
  lineOut : List Byte
  /-- The glue keeps the Register Window mapped (R66, R214). No step changes it
  (DESIGN CHOICE, notes/assumptions/19.md). -/
  mapped : Bool
  /-- The host producer stands between its steps `hp0` and `hp1` (R188). -/
  producing : Bool
  /-- The model's own field: the value the port's last value-returning action returned (R75;
  DESIGN CHOICE, notes/assumptions/11.md). -/
  ret : Ret
deriving DecidableEq, Repr

/-- Host memory, the space that holds the console's bytes (R50, R150): the bytes that have been stored, by
strictly rising address. An unlisted address has no value of its own (notes/assumptions/6.md). -/
abbrev Memory := List Host.Cell

/-- The whole modelled system (R20). -/
structure State where
  /-- The implementation parameters (R8). No step changes them (notes/assumptions/20.md). -/
  config : Config
  /-- The ports; slot `p` holds the port of line index `p` (R41, R70, R195). -/
  ports : List Port
  /-- `in_handler` and `hctl`: the running handler (R45, R46). -/
  handler : Option HandlerRun
  /-- The CPU holds off interrupt dispatch (R46). -/
  cpuMasked : Bool
  /-- The console writes in progress (R155; notes/assumptions/14.md). -/
  console : List ConsoleRun
  /-- Host memory (R50, R53). -/
  hostMem : Memory
  /-- The fault that stopped the model (R190; notes/assumptions/18.md). -/
  fault : Option Fault
  /-- The model's own field: the bytes of the actions the caller has yet to issue (R22, R70;
  notes/assumptions/5.md and 7.md). -/
  calls : List Byte
  /-- The model's own field: the scheduling choices listed for the coming steps (R180;
  notes/assumptions/1.md). -/
  schedule : List Choice
  /-- The model's own field: how many steps have been taken; it indexes `Config.choice`. -/
  tick : Nat
  /-- The model's own field, a FREE VALUE: the draw of the step being taken (R38, R92, R93, R125;
  notes/assumptions/3.md and 13.md). -/
  draw : Word
deriving DecidableEq, Repr

/-- What the glue, the host and the hardware's own reset give a port at its creation: the window base and
interrupt line (R41), the draws `CTRL_RESET` and `PEND_RESET` (R210), the host's ring contents and its
common index `head = tail` (R213). -/
structure PortInit where
  base : Addr
  irq : Nat
  ctrlReset : Word
  txpendReset : Bool
  rxpendReset : Bool
  buf : List Byte
  index : Nat
deriving DecidableEq, Repr

/-- The UART hardware state at hardware reset (R210). -/
def UartHw.reset (g : PortInit) : UartHw where
  ctrl := g.ctrlReset
  txfifo := []
  shifter := none
  rxfifo := []
  txpend := g.txpendReset
  rxpend := g.rxpendReset

/-- A port when the glue has created it (R211). -/
def Port.created (line : Nat) (g : PortInit) : Port where
  hw := UartHw.reset g
  line := line
  base := g.base
  irq := g.irq
  txCount := 0
  rxCount := 0
  life := .inactive
  ctl := none
  ring := ⟨g.buf, g.index, g.index⟩
  inq := ⟨[], 0⟩
  registered := false
  lineOut := []
  mapped := true
  producing := false
  ret := .nothing

/-- A start state, for every parameter and draw that R8 and R210 to R213 leave open. -/
def State.resetWith (c : Config) (masked : Bool) (d : Word) (gs : List PortInit) : State where
  config := c
  ports := gs.mapIdx Port.created
  handler := none
  cpuMasked := masked
  console := []
  hostMem := []
  fault := none
  calls := []
  schedule := []
  tick := 0
  draw := d

/-- The glue's values of port `p` in `State.reset` (DESIGN CHOICE, notes/assumptions/2.md). -/
def PortInit.default (p : Nat) : PortInit where
  base := BitVec.ofNat 64 (16 * p)
  irq := p
  ctrlReset := 0
  txpendReset := false
  rxpendReset := false
  buf := List.replicate 16 0
  index := 0

/-- The machine right after reset: the reference configuration with its six ports, and zero for every draw
of R210 (DESIGN CHOICE, notes/assumptions/2.md and 3.md). -/
def State.reset : State :=
  State.resetWith Config.reference false 0 ((List.range 6).map PortInit.default)

end Sys2Proof.Machine
end

