-- ==== Sys2Proof/Machine/Operands.lean ====
section
/-!
DEFINITION. Operand forms: the register and bit maps (spec/30_encoding.md R72 to R77) and the address decode
of the window (spec/20_memory.md R51, R52).
-/

namespace Sys2Proof.Machine

/-- `TXIE`, Control bit 19 (R73). -/
def TXIE : Word := 0x00080000
/-- `RXIE`, Control bit 18 (R73). -/
def RXIE : Word := 0x00040000
/-- `UARTEN`, Control bit 15 (R73). -/
def UARTEN : Word := 0x00008000
/-- The named Control bits (R73). -/
def CTRL_NAMED : Word := 0x000C8000
/-- The reserved Control bits (R73). -/
def CTRL_RSVD : Word := 0xFFF37FFF

/-- `TXBUSY`, Status bit 17 (R74). -/
def TXBUSY : Word := 0x00020000
/-- `TXFE`, Status bit 10 (R74). -/
def TXFE : Word := 0x00000400
/-- `RXFF`, Status bit 9 (R74). -/
def RXFF : Word := 0x00000200
/-- `TXFF`, Status bit 6 (R74). -/
def TXFF : Word := 0x00000040
/-- `RXFE`, Status bit 5 (R74). -/
def RXFE : Word := 0x00000020
/-- `TXPEND`, Status bit 1 (R74). -/
def TXPEND : Word := 0x00000002
/-- `RXPEND`, Status bit 0 (R74). -/
def RXPEND : Word := 0x00000001
/-- The named Status bits (R74). -/
def STAT_NAMED : Word := 0x00020663
/-- The reserved Status bits (R74). -/
def STAT_RSVD : Word := 0xFFFDF99C
/-- `TXPEND | RXPEND` (R74). -/
def PEND_BOTH : Word := 0x00000003

/-- `WINDOW_SIZE` in bytes (R8, R50). -/
def WINDOW_SIZE : Addr := 16

/-- `CONSOLE_LINE` (R8, R151). -/
def CONSOLE_LINE : Nat := 5

/-- `TX_EMPTY_TRUE`, the value `tx_empty` returns when the TX FIFO is empty (R8, R134). -/
def TX_EMPTY_TRUE : Word := 1

/-- The byte offset of a register in the window (R72). -/
def regOffset : Reg → Addr
  | .ctrl => 0x0
  | .rxdata => 0x4
  | .txdata => 0x8
  | .status => 0xC

/-- Address decode of the window at `base` for an access of `width` bits at `a` (R51, R52): the range check
comes before the width and alignment check (R186). -/
def decodeWindow (base a : Addr) (width : Nat) : Except Fault Reg :=
  let off := a - base
  if WINDOW_SIZE ≤ off then .error (.range a)
  else if width ≠ 32 ∨ off.extractLsb' 0 2 ≠ 0b00#2 then .error (.access (.address a))
  else .ok (Reg.ofIndex (off.extractLsb' 2 2))

/-- The register operand of a bit operation: only Control and Status are admitted (R76, R96). -/
def bitopReg (reg : Byte) : Except Stop Reg :=
  if reg = 0x0 then .ok .ctrl
  else if reg = 0xC then .ok .status
  else .error (.fault (.bitopData reg))

/-- The byte a data register carries: bits 7:0 (R77). -/
def lowByte (v : Word) : Byte := v.extractLsb' 0 8

/-- The value written to TX-Data for a byte (R77). -/
def zext (b : Byte) : Word := b.zeroExtend 32

/-- The value read from RX-Data: the byte in bits 7:0, a draw in bits 31:8 (R77, R92). -/
def rxValue (d : Word) (b : Byte) : Word := d.extractLsb' 8 24 ++ b

/-- `test_bit` on a value: true if any masked bit is 1 (R98). -/
def anyBit (v mask : Word) : Bool := v &&& mask != 0

end Sys2Proof.Machine
end

