-- ==== Sys2Proof/Machine/Flags.lean ====
section
/-!
DEFINITION. The flags of the UART: the Status bits computed from the FIFOs and the shifter
(spec/10_state.md R31 to R38), the Control enables, and the interrupt line (spec/44_hardware_events.md R168).
-/

namespace Sys2Proof.Machine

/-- `TXBUSY`: the TX FIFO is non-empty or the shifter holds a byte (R31). -/
def UartHw.txbusy (hw : UartHw) : Bool := !hw.txfifo.isEmpty || hw.shifter.isSome

/-- `TXFE`: the TX FIFO is empty (R32). -/
def UartHw.txfe (hw : UartHw) : Bool := hw.txfifo.isEmpty

/-- `RXFF`: the RX FIFO is full (R33). -/
def UartHw.rxff (c : Config) (hw : UartHw) : Bool := hw.rxfifo.length == c.rxFifoDepth

/-- `TXFF`: the TX FIFO is full (R34). -/
def UartHw.txff (c : Config) (hw : UartHw) : Bool := hw.txfifo.length == c.txFifoDepth

/-- `RXFE`: the RX FIFO is empty (R35). -/
def UartHw.rxfe (hw : UartHw) : Bool := hw.rxfifo.isEmpty

/-- The Control enables (R24, R25, R26). -/
def UartHw.txie (hw : UartHw) : Bool := hw.ctrl.getLsbD 19
def UartHw.rxie (hw : UartHw) : Bool := hw.ctrl.getLsbD 18
def UartHw.uarten (hw : UartHw) : Bool := hw.ctrl.getLsbD 15

/-- A flag at its place in a word. -/
def flagAt (b : Bool) (mask : Word) : Word := if b then mask else 0

/-- The named bits of Status, one snapshot of the state (R30, R57, R95). -/
def UartHw.statusNamed (c : Config) (hw : UartHw) : Word :=
  flagAt hw.txbusy TXBUSY ||| flagAt hw.txfe TXFE ||| flagAt (hw.rxff c) RXFF |||
    flagAt (hw.txff c) TXFF ||| flagAt hw.rxfe RXFE ||| flagAt hw.txpend TXPEND |||
    flagAt hw.rxpend RXPEND

/-- A read of Status: the named bits, and a draw in the reserved ones (R38, R95). -/
def UartHw.statusRead (c : Config) (d : Word) (hw : UartHw) : Word :=
  hw.statusNamed c ||| (d &&& STAT_RSVD)

/-- The effect of a Status write on one pending bit: 0 clears it, 1 follows `PEND_W1` (R95). -/
def pendAfterWrite (c : Config) (bit : Bool) (pend : Bool) : Bool :=
  if bit then (if c.pendW1 = .set then true else pend) else false

/-- The interrupt line, a level computed from the state (R168). -/
def UartHw.irqOut (c : Config) (hw : UartHw) : Bool :=
  (!c.enGatesIrq || hw.uarten) && ((hw.txie && hw.txpend) || (hw.rxie && hw.rxpend))

/-- The transmitter may step: UART-enable does not stop it (R161, R170). -/
def UartHw.txGate (c : Config) (hw : UartHw) : Bool := !c.enGatesTx || hw.uarten

end Sys2Proof.Machine
end

