-- ==== Sys2Proof/Machine/Ops.lean ====
section
/-!
DEFINITION. The named operations over registers, ports and host memory that every meaning is built from:
the register accesses (spec/40_register_interface.md R90 to R98), host memory (spec/20_memory.md R53), the
fault state (spec/60_exceptions.md R190), and taking and leaving an interrupt (R182, R184).
-/

namespace Sys2Proof.Machine

/-! ## Host memory -/

/-- The canonical form of host memory: addresses strictly rising. An unlisted address reads as no value, so
no entry can equal what an unlisted address reads as. -/
abbrev Memory.wf (m : Memory) : Prop := m.Pairwise fun x y => x.1 < y.1

/-- The byte stored at an address, if one was. -/
def Memory.read : Memory → Nat → Option Byte
  | [], _ => none
  | (a', b) :: m, a => if a = a' then some b else Memory.read m a

/-- Stores a byte and keeps the canonical form. -/
def Memory.write : Memory → Nat → Byte → Memory
  | [], a, b => [(a, b)]
  | (a', b') :: m, a, b =>
    if a < a' then (a, b) :: (a', b') :: m
    else if a = a' then (a, b) :: m
    else (a', b') :: Memory.write m a b

/-- `MemRead(a, 1)` (R53): the stored byte, or the draw's byte where nothing has been stored. -/
def Memory.readByte (m : Memory) (d : Word) (a : Addr) : Byte := (m.read a.toNat).getD (lowByte d)

/-! ## The transmit ring and the input queue -/

/-- `MemRead(&buf[t], 1)` (R53, R110). -/
def Ring.byteAt (r : Ring) (d : Word) (t : Nat) : Byte := (r.buf[t]?).getD (lowByte d)

/-- The index after `i`, modulo the capacity (R114). -/
def ringNext (c : Config) (i : Nat) : Nat := (i + 1) % c.xmitCap

/-- The unconsumed byte count `(head - tail) mod XMIT_CAP` (R43, R114). -/
def Ring.count (c : Config) (r : Ring) : Nat := (r.head + (c.xmitCap - r.tail)) % c.xmitCap

/-- `push(q, (b, NORMAL))` (R111). -/
def InputQueue.push (q : InputQueue) (b : Byte) : InputQueue :=
  { q with items := q.items ++ [(b, .normal)] }

/-- `flush(q)`: every item so far becomes visible to a reader (R44, R111). -/
def InputQueue.flush (q : InputQueue) : InputQueue := { q with published := q.items.length }

/-! ## Register accesses -/

/-- A read of RX-Data: dequeues the oldest byte, or a draw when the FIFO is empty (R92). -/
def UartHw.readRx (d : Word) (hw : UartHw) : Word × UartHw :=
  match hw.rxfifo with
  | [] => (d, hw)
  | b :: bs => (rxValue d b, { hw with rxfifo := bs })

/-- A write of TX-Data: enqueues bits 7:0, or faults `F3` when the FIFO is full (R93). -/
def UartHw.writeTx (c : Config) (v : Word) (hw : UartHw) : Except Fault UartHw :=
  if hw.txff c then .error (.txOverflow v)
  else .ok { hw with txfifo := hw.txfifo ++ [lowByte v] }

/-- A write of Control: stores all 32 bits (R94). -/
def UartHw.writeCtrl (v : Word) (hw : UartHw) : UartHw := { hw with ctrl := v }

/-- A write of Status: acts on the two pending bits alone (R95). -/
def UartHw.writeStatus (c : Config) (v : Word) (hw : UartHw) : UartHw :=
  { hw with
    txpend := pendAfterWrite c (v.getLsbD 1) hw.txpend
    rxpend := pendAfterWrite c (v.getLsbD 0) hw.rxpend }

/-- The value and effect of reading a register (R90). -/
def UartHw.readReg (c : Config) (d : Word) (r : Reg) (hw : UartHw) : Word × UartHw :=
  match r with
  | .ctrl => (hw.ctrl, hw)
  | .rxdata => hw.readRx d
  | .txdata => (d, hw)
  | .status => (hw.statusRead c d, hw)

/-- The effect of writing a register (R91). -/
def UartHw.writeReg (c : Config) (r : Reg) (v : Word) (hw : UartHw) : Except Fault UartHw :=
  match r with
  | .ctrl => .ok (hw.writeCtrl v)
  | .rxdata => .ok hw
  | .txdata => hw.writeTx c v
  | .status => .ok (hw.writeStatus c v)

/-- A bus read of `width` bits at address `a` on behalf of a port: refused while the window is not mapped
(R66), then decoded (R51, R52). -/
def Port.busRead (c : Config) (d : Word) (a : Addr) (width : Nat) (P : Port) :
    Except Stop (Word × Port) :=
  if P.mapped then
    match decodeWindow P.base a width with
    | .error f => .error (.fault f)
    | .ok r => .ok ((P.hw.readReg c d r).1, { P with hw := (P.hw.readReg c d r).2 })
  else .error (.refusal .windowUnmapped)

/-- A bus write of `width` bits at address `a` on behalf of a port (R51, R52, R66). -/
def Port.busWrite (c : Config) (a : Addr) (width : Nat) (v : Word) (P : Port) : Except Stop Port :=
  if P.mapped then
    match decodeWindow P.base a width with
    | .error f => .error (.fault f)
    | .ok r =>
      match P.hw.writeReg c r v with
      | .error f => .error (.fault f)
      | .ok hw => .ok { P with hw := hw }
  else .error (.refusal .windowUnmapped)

/-- `RegRead(off)` (R90). -/
def Port.regRead (c : Config) (d : Word) (r : Reg) (P : Port) : Except Stop (Word × Port) :=
  P.busRead c d (P.base + regOffset r) 32

/-- `RegWrite(off, v)` (R91). -/
def Port.regWrite (c : Config) (r : Reg) (v : Word) (P : Port) : Except Stop Port :=
  P.busWrite c (P.base + regOffset r) 32 v

/-- `test_bit(reg, mask)`: one read (R98). -/
def Port.testBit (c : Config) (d : Word) (r : Reg) (mask : Word) (P : Port) :
    Except Stop (Bool × Port) :=
  match P.regRead c d r with
  | .error e => .error e
  | .ok (v, P') => .ok (anyBit v mask, P')

/-- The next access of a read-modify-write that writes `f v` after reading `v`; `none` once it has written
(R59, R96, R97). -/
def Port.rmw (c : Config) (d : Word) (r : Reg) (f : Word → Word) (m : Rmw) (P : Port) :
    Except Stop (Port × Option Rmw) :=
  match m with
  | .read =>
    match P.regRead c d r with
    | .error e => .error e
    | .ok (v, P') => .ok (P', some (.write v))
  | .write v =>
    match P.regWrite c r (f v) with
    | .error e => .error e
    | .ok P' => .ok (P', none)

/-- The next access of `set_bit(reg, mask)` (R96). -/
def Port.setBit (c : Config) (d : Word) (r : Reg) (mask : Word) (m : Rmw) (P : Port) :
    Except Stop (Port × Option Rmw) :=
  P.rmw c d r (fun v => v ||| mask) m

/-- The next access of `clear_bit(reg, mask)` (R97). -/
def Port.clearBit (c : Config) (d : Word) (r : Reg) (mask : Word) (m : Rmw) (P : Port) :
    Except Stop (Port × Option Rmw) :=
  P.rmw c d r (fun v => v &&& ~~~mask) m

/-- Continues a caller after a step of what it calls: `stay` names the caller's point while the callee is in
progress, `next` what the caller does when the callee has returned. -/
def andThen {α β : Type} (stay : α → β) (next : Port → Port × Option β)
    (r : Except Stop (Port × Option α)) : Except Stop (Port × Option β) :=
  match r with
  | .error e => .error e
  | .ok (P, some a) => .ok (P, some (stay a))
  | .ok (P, none) => .ok (next P)

/-- Goes on at a point. -/
def goto {β : Type} (b : β) (P : Port) : Port × Option β := (P, some b)

/-- Returns to the caller. -/
def done {β : Type} (P : Port) : Port × Option β := (P, none)

/-! ## Faults and ports -/

/-- `raise Fault(F<n>, info)`: the state keeps the fault and takes no further step (R12, R190). -/
def State.raise (f : Fault) (s : State) : Out State := .next { s with fault := some f }

/-- Stops with a fault or a refusal. -/
def State.stop (e : Stop) (s : State) : Out State :=
  match e with
  | .fault f => s.raise f
  | .refusal r => .refused r

/-- Puts a port back in its slot. -/
def State.setPort (p : Nat) (P : Port) (s : State) : State := { s with ports := s.ports.set p P }

/-- A step of the port in slot `p`, with what it hands to the rest of the state. -/
def State.onPortWith {α : Type} (p : Nat) (f : Port → Except Stop (Port × α)) (k : α → State → State)
    (s : State) : Out State :=
  match s.ports[p]? with
  | none => .refused (.noSuchPort p)
  | some P =>
    match f P with
    | .error e => s.stop e
    | .ok (P', a) => .next (k a (s.setPort p P'))

/-- A step of the port in slot `p` alone. -/
def State.onPort (p : Nat) (f : Port → Except Stop Port) (s : State) : Out State :=
  match s.ports[p]? with
  | none => .refused (.noSuchPort p)
  | some P =>
    match f P with
    | .error e => s.stop e
    | .ok P' => .next (s.setPort p P')

/-- The `life` precondition of an operation (R138). -/
def Port.requireLife (l : Life) (o : Operation) (P : Port) : Except Stop Port :=
  if P.life = l then .ok P else .error (.fault (.state o))

/-! ## Taking an interrupt and returning from it -/

/-- A port asks for its handler: one is registered and its line is high (R182). -/
def Port.interrupting (c : Config) (P : Port) : Bool := P.registered && P.hw.irqOut c

/-- The CPU takes interrupts: no handler runs and none is held off (R182). -/
def State.takesInterrupts (s : State) : Bool := s.handler.isNone && !s.cpuMasked

/-- Dispatch is enabled for the port in slot `p` (R182). -/
def State.dispatchEnabled (p : Nat) (s : State) : Bool :=
  s.takesInterrupts && (s.ports[p]?).any (Port.interrupting s.config)

/-- Dispatch is enabled: for some port (R182). -/
def State.dispatchPending (s : State) : Bool :=
  s.takesInterrupts && s.ports.any (Port.interrupting s.config)

/-- TAKING AN EXCEPTION, the model's only trap entry (R182): the ordinary context stays saved in `ctl`, the
handler of the port is entered at `ih0`, and nothing else changes. -/
def State.takeInterrupt (p : Nat) (s : State) : State := { s with handler := some ⟨p, .ih0⟩ }

/-- RETURN FROM THE HANDLER (R184): the ordinary context resumes; nothing is restored in the UART. -/
def State.returnFromHandler (s : State) : State := { s with handler := none }

/-- The handler goes on at a point, or returns (R183, R184). -/
def State.continueHandler (p : Nat) (pt : Option HandlerPoint) (s : State) : State :=
  match pt with
  | some q => { s with handler := some ⟨p, q⟩ }
  | none => s.returnFromHandler

end Sys2Proof.Machine
end

