-- ==== Sys2Proof/Machine/Operations.lean ====
section
/-!
DEFINITION. One step of a core operation from each of its control points (spec/10_state.md R45,
spec/00_scope.md R12): the refill and the drain (R110, R111), the interrupt handler (R112), and every
ordinary-context operation. A step performs the one access that stands at the point and the work without
access up to the next point.
-/

namespace Sys2Proof.Machine

/-- One step of `write_tx_fifo` (R110). -/
def refillStep (c : Config) (d : Word) (pt : RefillPoint) (P : Port) :
    Except Stop (Port × Option RefillPoint) :=
  match pt with
  | .wf0 =>
    .ok (P, some (if P.ring.head = P.ring.tail then .wfEmpty .read else .wf1 P.ring.tail))
  | .wf1 t =>
    match P.testBit c d .status TXFF with
    | .error e => .error e
    | .ok (full, P') => .ok (P', some (if full then .wf2 .read else .wf3 t))
  | .wf2 m => andThen .wf2 done (P.setBit c d .ctrl TXIE m)
  | .wf3 t => .ok (P, some (.wf4 t (P.ring.byteAt d t)))
  | .wf4 t b =>
    match P.regWrite c .txdata (zext b) with
    | .error e => .error e
    | .ok P' => .ok (P', some (.wf5 t))
  | .wf5 t =>
    .ok ({ P with
            ring := { P.ring with tail := ringNext c t }
            txCount := P.txCount + 1 }, some .wf0)
  | .wfEmpty m => andThen .wfEmpty done (P.clearBit c d .ctrl TXIE m)

/-- One step of `rx_drain` (R111). -/
def drainStep (c : Config) (d : Word) (pt : DrainPoint) (P : Port) :
    Except Stop (Port × Option DrainPoint) :=
  match pt with
  | .rd0 =>
    match P.testBit c d .status RXFE with
    | .error e => .error e
    | .ok (empty, P') => .ok (P', some (if empty then .rdFlush else .rd1))
  | .rd1 =>
    match P.regRead c d .rxdata with
    | .error e => .error e
    | .ok (v, P') =>
      .ok ({ P' with inq := P'.inq.push (lowByte v), rxCount := P'.rxCount + 1 }, some .rd0)
  | .rdFlush => .ok ({ P with inq := P.inq.flush }, none)

/-- The handler from `ih3`: one combined clear of both pending bits, then the return (R112, D32). -/
def ih3Step (c : Config) (d : Word) (m : Rmw) (P : Port) : Except Stop (Port × Option HandlerPoint) :=
  andThen .ih3 done (P.clearBit c d .status PEND_BOTH m)

/-- The handler from `ih2`: the drain if the Status value read at `ih0` has RX-pending (R112). -/
def ih2Step (c : Config) (d : Word) (s : Word) (pt : DrainPoint) (P : Port) :
    Except Stop (Port × Option HandlerPoint) :=
  if s.getLsbD 0 then andThen (.ih2 s) (goto (.ih3 .read)) (drainStep c d pt P)
  else ih3Step c d .read P

/-- The handler from `ih1`: the refill if the Status value read at `ih0` has TX-pending (R112). -/
def ih1Step (c : Config) (d : Word) (s : Word) (pt : RefillPoint) (P : Port) :
    Except Stop (Port × Option HandlerPoint) :=
  if s.getLsbD 1 then andThen (.ih1 s) (goto (.ih2 s .rd0)) (refillStep c d pt P)
  else ih2Step c d s .rd0 P

/-- The handler from `ih0`: it reads Status once (R112). -/
def ih0Step (c : Config) (d : Word) (P : Port) : Except Stop (Port × Option HandlerPoint) :=
  match P.regRead c d .status with
  | .error e => .error e
  | .ok (v, P') => .ok (P', some (.ih1 v .wf0))

/-- One step of `irq_handler` (R112). -/
def handlerStep (c : Config) (d : Word) (pt : HandlerPoint) (P : Port) :
    Except Stop (Port × Option HandlerPoint) :=
  match pt with
  | .ih0 => ih0Step c d P
  | .ih1 s r => ih1Step c d s r P
  | .ih2 s q => ih2Step c d s q P
  | .ih3 m => ih3Step c d m P

/-- `su0`: the platform answers the registration; a draw of 0 is `ok`, any other draw is the code of an
`err` (R125, R126, D38). -/
def registerStep (answer : Word) (P : Port) : Port × Option OpPoint :=
  if answer = 0 then ({ P with registered := true }, some (.su1 .read))
  else ({ P with life := .inactive, ret := .err answer }, none)

/-- The end of `startup`: the port is Active and the caller gets `ok` (R125). -/
def finishStartup (P : Port) : Port × Option OpPoint := done { P with life := .active, ret := .ok }

/-- `sd2`: the handler is unregistered and the port is Inactive (R130). -/
def finishShutdown (P : Port) : Port × Option OpPoint :=
  done { P with registered := false, life := .inactive }

/-- `st1`: `stop_tx` waits for an empty TX FIFO, one read per iteration (R132). -/
def st1Step (c : Config) (d : Word) (P : Port) : Except Stop (Port × Option OpPoint) :=
  match P.testBit c d .status TXFE with
  | .error e => .error e
  | .ok (empty, P') => .ok (P', some (if empty then .st2 .read else .st1))

/-- `sr1`: `stop_rx` looks for another byte to discard (R133). -/
def sr1Step (c : Config) (d : Word) (P : Port) : Except Stop (Port × Option OpPoint) :=
  match P.testBit c d .status RXFE with
  | .error e => .error e
  | .ok (empty, P') => .ok (P', some (if empty then .sr3 .read else .sr2))

/-- `sr2`: one byte is read and discarded, neither pushed nor counted (R133). -/
def sr2Step (c : Config) (d : Word) (P : Port) : Except Stop (Port × Option OpPoint) :=
  match P.regRead c d .rxdata with
  | .error e => .error e
  | .ok (_, P') => .ok (P', some .sr1)

/-- One step of the ordinary-context operation at a control point (R45). -/
def opStep (c : Config) (d : Word) (pt : OpPoint) (P : Port) : Except Stop (Port × Option OpPoint) :=
  match pt with
  | .setBit r mask m => andThen (.setBit r mask) done (P.setBit c d r mask m)
  | .clearBit r mask m => andThen (.clearBit r mask) done (P.clearBit c d r mask m)
  | .writeTxFifo r => andThen .writeTxFifo done (refillStep c d r P)
  | .rxDrain q => andThen .rxDrain done (drainStep c d q P)
  | .su0 => .ok (registerStep d P)
  | .su1 m => andThen .su1 (goto (.su2 .read)) (P.setBit c d .ctrl RXIE m)
  | .su2 m => andThen .su2 finishStartup (P.setBit c d .ctrl UARTEN m)
  | .sd0 m => andThen .sd0 (goto (.sd1 .read)) (P.clearBit c d .ctrl UARTEN m)
  | .sd1 m => andThen .sd1 (goto .sd2) (P.clearBit c d .ctrl RXIE m)
  | .sd2 => .ok (finishShutdown P)
  | .startTx r => andThen .startTx done (refillStep c d r P)
  | .st0 m => andThen .st0 (goto .st1) (P.clearBit c d .ctrl TXIE m)
  | .st1 => st1Step c d P
  | .st2 m => andThen .st2 done (P.clearBit c d .status TXPEND m)
  | .sr0 m => andThen .sr0 (goto .sr1) (P.clearBit c d .ctrl RXIE m)
  | .sr1 => sr1Step c d P
  | .sr2 => sr2Step c d P
  | .sr3 m => andThen .sr3 done (P.clearBit c d .status RXPEND m)

/-- Takes one step of an operation of the port and stores the control point it reaches (R45). -/
def Port.runOp (c : Config) (d : Word) (pt : OpPoint) (P : Port) : Except Stop Port :=
  match opStep c d pt P with
  | .error e => .error e
  | .ok (P', pt') => .ok { P' with ctl := pt' }

/-- The control points of the lifecycle operations, R125 to R137, which the caller serialises (R138). -/
def inLifecycleOp : Option OpPoint → Bool
  | none => false
  | some (.setBit _ _ _) => false
  | some (.clearBit _ _ _) => false
  | some (.writeTxFifo _) => false
  | some (.rxDrain _) => false
  | some .su0 => true
  | some (.su1 _) => true
  | some (.su2 _) => true
  | some (.sd0 _) => true
  | some (.sd1 _) => true
  | some .sd2 => true
  | some (.startTx _) => true
  | some (.st0 _) => true
  | some .st1 => true
  | some (.st2 _) => true
  | some (.sr0 _) => true
  | some .sr1 => true
  | some .sr2 => true
  | some (.sr3 _) => true

/-- The port's one control point is free (R45, notes/assumptions/9.md). -/
def Port.requireIdle (P : Port) : Except Stop Port :=
  if P.ctl = none then .ok P else .error (.refusal .portBusy)

/-- No lifecycle operation of the port is in progress: a second one is outside the model (R138). -/
def Port.requireSerial (P : Port) : Except Stop Port :=
  if inLifecycleOp P.ctl then .error (.refusal .portBusy) else .ok P

/-- The entry of an operation: its `life` precondition (R138, R186: judged before any access), then that the
port's control point is free. -/
def Port.enter (entry : Port → Except Stop Port) (P : Port) : Except Stop Port :=
  match entry P with
  | .error e => .error e
  | .ok P' => P'.requireIdle

/-- The entry of a lifecycle operation: refused while another one is in progress, before anything else is
judged (R138). -/
def Port.enterLifecycle (entry : Port → Except Stop Port) (P : Port) : Except Stop Port :=
  match P.requireSerial with
  | .error e => .error e
  | .ok P' => P'.enter entry

/-- Starts an operation of a port: its entry, then its first step. -/
def Port.begin (c : Config) (d : Word) (entry : Port → Except Stop Port) (pt : OpPoint) (P : Port) :
    Except Stop Port :=
  match entry P with
  | .error e => .error e
  | .ok P' => P'.runOp c d pt

/-- The next step of the operation in progress on the port of slot `p`, if there is one (R45), whatever
operations of other ports are in progress (DESIGN CHOICE, notes/assumptions/24.md). -/
def State.opAgent (p : Nat) (s : State) : Out State :=
  match s.ports[p]? with
  | none => .next s
  | some P =>
    match P.ctl with
    | none => .next s
    | some pt => s.onPort p (Port.runOp s.config s.draw pt)

/-- The next step of the running handler, if there is one (R183). -/
def State.handlerAgent (s : State) : Out State :=
  match s.handler with
  | none => .next s
  | some h => s.onPortWith h.port (handlerStep s.config s.draw h.point) (State.continueHandler h.port)

end Sys2Proof.Machine
end

