-- ==== Sys2Proof/Machine/BitOps.lean ====
section
/-!
DEFINITION. The bit primitives, codes 0x80 to 0x82 (spec/40_register_interface.md R96 to R98). `set_bit` and
`clear_bit` are two steps, a read and a write; `test_bit` is one.
-/

namespace Sys2Proof.Machine

/-- Starts a bit operation: the register operand is judged first (R76), then that the port's control point is
free, then the operation takes its read. -/
def Port.beginBitOp (c : Config) (d : Word) (reg : Byte) (pt : Reg → OpPoint) (P : Port) :
    Except Stop Port :=
  match bitopReg reg with
  | .error e => .error e
  | .ok r => P.begin c d Port.requireIdle (pt r)

/-- `set_bit(reg, mask)`, step `sb0` (R96). -/
def execSetBit (p : Nat) (reg : Byte) (mask : Word) (s : State) : Out State :=
  s.onPort p (Port.beginBitOp s.config s.draw reg fun r => .setBit r mask .read)

/-- `clear_bit(reg, mask)`, step `cb0` (R97). -/
def execClearBit (p : Nat) (reg : Byte) (mask : Word) (s : State) : Out State :=
  s.onPort p (Port.beginBitOp s.config s.draw reg fun r => .clearBit r mask .read)

/-- `test_bit(reg, mask) -> Bool`: the Bool is returned to the caller (R98). -/
def Port.testAction (c : Config) (d : Word) (reg : Byte) (mask : Word) (P : Port) : Except Stop Port :=
  match bitopReg reg with
  | .error e => .error e
  | .ok r =>
    match P.testBit c d r mask with
    | .error e => .error e
    | .ok (t, P') => .ok { P' with ret := .bool t }

/-- `test_bit(reg, mask)`, step `tb0` (R98). -/
def execTestBit (p : Nat) (reg : Byte) (mask : Word) (s : State) : Out State :=
  s.onPort p (Port.testAction s.config s.draw reg mask)

end Sys2Proof.Machine
end

