-- ==== Sys2Proof/Machine/BusAccess.lean ====
section
/-!
DEFINITION. The bus-access actions, codes 0x40 to 0x5C (spec/40_register_interface.md R90 to R95). Each is one
atomic step (spec/20_memory.md R57).
-/

namespace Sys2Proof.Machine

/-- A read action: the value read is returned to the caller (R80, R90). -/
def Port.readAction (c : Config) (d : Word) (r : Reg) (P : Port) : Except Stop Port :=
  match P.regRead c d r with
  | .error e => .error e
  | .ok (v, P') => .ok { P' with ret := .word v }

/-- `rd CTRL` (R94). -/
def execRdCtrl (p : Nat) (s : State) : Out State :=
  s.onPort p (Port.readAction s.config s.draw .ctrl)

/-- `rd RXDATA` (R92). -/
def execRdRxdata (p : Nat) (s : State) : Out State :=
  s.onPort p (Port.readAction s.config s.draw .rxdata)

/-- `rd TXDATA` (R93). -/
def execRdTxdata (p : Nat) (s : State) : Out State :=
  s.onPort p (Port.readAction s.config s.draw .txdata)

/-- `rd STATUS` (R95). -/
def execRdStatus (p : Nat) (s : State) : Out State :=
  s.onPort p (Port.readAction s.config s.draw .status)

/-- `wr CTRL` (R94). -/
def execWrCtrl (p : Nat) (v : Word) (s : State) : Out State :=
  s.onPort p (Port.regWrite s.config .ctrl v)

/-- `wr RXDATA` (R92). -/
def execWrRxdata (p : Nat) (v : Word) (s : State) : Out State :=
  s.onPort p (Port.regWrite s.config .rxdata v)

/-- `wr TXDATA` (R93). -/
def execWrTxdata (p : Nat) (v : Word) (s : State) : Out State :=
  s.onPort p (Port.regWrite s.config .txdata v)

/-- `wr STATUS` (R95). -/
def execWrStatus (p : Nat) (v : Word) (s : State) : Out State :=
  s.onPort p (Port.regWrite s.config .status v)

end Sys2Proof.Machine
end

