-- ==== Sys2Proof/Machine/Console.lean ====
section
/-!
DEFINITION. The console output path, code 0x8E (spec/43_console_path.md R150 to R155). A console write has a
control point of its own, so that its steps may interleave with those of an operation of the same port in
progress (R155).
-/

namespace Sys2Proof.Machine

/-- Continues a console write at a point. -/
def ConsoleRun.moveTo (run : ConsoleRun) (pt : ConsolePoint) : ConsoleRun := { run with point := pt }

/-- The wait at `cw3` while the TX FIFO is full (R150). -/
def cw3Step (c : Config) (d : Word) (run : ConsoleRun) (i : Addr) (P : Port) :
    Except Stop (Port × Option ConsoleRun) :=
  match P.testBit c d .status TXFF with
  | .error e => .error e
  | .ok (full, P') => .ok (P', some (run.moveTo (if full then .cw3 i else .cw4 i)))

/-- The wait at `cw6` until the transmitter is not busy (R150). -/
def cw6Step (c : Config) (d : Word) (run : ConsoleRun) (P : Port) :
    Except Stop (Port × Option ConsoleRun) :=
  match P.testBit c d .status TXBUSY with
  | .error e => .error e
  | .ok (busy, P') => .ok (P', some (run.moveTo (if busy then .cw6 else .cw7 .read)))

/-- One step of `console_write` (R150). The comparison at `cw2` belongs to the step that follows it (R12). -/
def consoleStep (c : Config) (d : Word) (mem : Memory) (run : ConsoleRun) (P : Port) :
    Except Stop (Port × Option ConsoleRun) :=
  match run.point with
  | .cw0 =>
    match P.testBit c d .ctrl TXIE with
    | .error e => .error e
    | .ok (snap, P') => .ok (P', some { run with snap := snap, point := .cw1 .read })
  | .cw1 m =>
    andThen (fun m' => run.moveTo (.cw1 m')) (goto (run.moveTo (.cw2 0))) (P.clearBit c d .ctrl TXIE m)
  | .cw2 i => if i = run.count then cw6Step c d run P else cw3Step c d run i P
  | .cw3 i => cw3Step c d run i P
  | .cw4 i => .ok (P, some (run.moveTo (.cw5 i (mem.readByte d (run.str + i)))))
  | .cw5 i b =>
    match P.regWrite c .txdata (zext b) with
    | .error e => .error e
    | .ok P' => .ok (P', some (run.moveTo (.cw2 (i + 1))))
  | .cw6 => cw6Step c d run P
  | .cw7 m =>
    andThen (fun m' => run.moveTo (.cw7 m')) done
      (if run.snap then P.setBit c d .ctrl TXIE m else P.clearBit c d .ctrl TXIE m)

/-- The console writes in progress after the `k`-th one has taken a step. -/
def updateConsole (k : Nat) (run : Option ConsoleRun) (s : State) : State :=
  match run with
  | some r => { s with console := s.console.set k r }
  | none => { s with console := s.console.eraseIdx k }

/-- A step of the console port: the port whose line is `CONSOLE_LINE`; without it, refused (R151). -/
def State.onConsole (f : Port → Except Stop (Port × Option ConsoleRun))
    (k : Option ConsoleRun → State → State) (s : State) : Out State :=
  if CONSOLE_LINE < s.ports.length then s.onPortWith CONSOLE_LINE f k
  else .refused .consoleAbsent

/-- The next step of the `k`-th console write in progress, if there is one (R155). -/
def State.consoleAgent (k : Nat) (s : State) : Out State :=
  match s.console[k]? with
  | none => .next s
  | some run => s.onConsole (consoleStep s.config s.draw s.hostMem run) (updateConsole k)

/-- `console_write(s, n)`, step `cw0` (R150). The port is the console's, whatever port the action names
(R151). It never faults `F5` (R152). -/
def execConsoleWrite (_p : Nat) (str count : Addr) (s : State) : Out State :=
  s.onConsole (consoleStep s.config s.draw s.hostMem ⟨str, count, false, .cw0⟩)
    (fun run t => { t with console := t.console ++ run.toList })

end Sys2Proof.Machine
end

