-- ==== Sys2Proof/Machine/Engine.lean ====
section
/-!
DEFINITION. The TX/RX engine, codes 0x83 to 0x85 (spec/41_txrx_engine.md R110 to R112).
-/

namespace Sys2Proof.Machine

/-- `write_tx_fifo`, invoked directly: the port must be Active (R67, R138). Step `wf0` (R110). -/
def execWriteTxFifo (p : Nat) (s : State) : Out State :=
  s.onPort p
    (Port.begin s.config s.draw (Port.enter (Port.requireLife .active .writeTxFifo)) (.writeTxFifo .wf0))

/-- `rx_drain`, invoked directly: the port must be Active (R67, R138). Step `rd0` (R111). -/
def execRxDrain (p : Nat) (s : State) : Out State :=
  s.onPort p
    (Port.begin s.config s.draw (Port.enter (Port.requireLife .active .rxDrain)) (.rxDrain .rd0))

/-- `irq_handler`: only dispatch may invoke it (R138, R191), so it runs where dispatch has just entered the
handler of the port. Step `ih0` (R112). -/
def execIrqHandler (p : Nat) (s : State) : Out State :=
  if s.handler = some ⟨p, .ih0⟩ then s.handlerAgent else .refused .handlerNotDispatched

end Sys2Proof.Machine
end

