-- ==== Sys2Proof/Machine/Lifecycle.lean ====
section
/-!
DEFINITION. The port lifecycle, codes 0x86 to 0x8D (spec/42_port_lifecycle.md R125 to R138).
-/

namespace Sys2Proof.Machine

/-- Entry of `startup`: `life` goes from Inactive to Starting (R125, R127). -/
def Port.enterStartup (P : Port) : Except Stop Port :=
  match P.requireLife .inactive .startup with
  | .error e => .error e
  | .ok P' => .ok { P' with life := .starting }

/-- Entry of `shutdown`: `life` goes from Active to Stopping (R127, R130). -/
def Port.enterShutdown (P : Port) : Except Stop Port :=
  match P.requireLife .active .shutdown with
  | .error e => .error e
  | .ok P' => .ok { P' with life := .stopping }

/-- `startup`, step `su0` (R125). -/
def execStartup (p : Nat) (s : State) : Out State :=
  s.onPort p (Port.begin s.config s.draw (Port.enterLifecycle Port.enterStartup) .su0)

/-- `shutdown`, the read of `sd0` (R130). -/
def execShutdown (p : Nat) (s : State) : Out State :=
  s.onPort p (Port.begin s.config s.draw (Port.enterLifecycle Port.enterShutdown) (.sd0 .read))

/-- `start_tx`: a refill in the caller's context, step `wf0` (R131). -/
def execStartTx (p : Nat) (s : State) : Out State :=
  s.onPort p
    (Port.begin s.config s.draw (Port.enterLifecycle (Port.requireLife .active .startTx)) (.startTx .wf0))

/-- `stop_tx`, the read of `st0` (R132). -/
def execStopTx (p : Nat) (s : State) : Out State :=
  s.onPort p
    (Port.begin s.config s.draw (Port.enterLifecycle (Port.requireLife .active .stopTx)) (.st0 .read))

/-- `stop_rx`, the read of `sr0` (R133). -/
def execStopRx (p : Nat) (s : State) : Out State :=
  s.onPort p
    (Port.begin s.config s.draw (Port.enterLifecycle (Port.requireLife .active .stopRx)) (.sr0 .read))

/-- `tx_empty -> word`: one read of Status (R134). -/
def Port.txEmptyAction (c : Config) (d : Word) (P : Port) : Except Stop Port :=
  match P.enterLifecycle (Port.requireLife .active .txEmpty) with
  | .error e => .error e
  | .ok P' =>
    match P'.testBit c d .status TXFE with
    | .error e => .error e
    | .ok (empty, P'') => .ok { P'' with ret := .word (if empty then TX_EMPTY_TRUE else 0) }

/-- `tx_empty`, step `te0` (R134). -/
def execTxEmpty (p : Nat) (s : State) : Out State :=
  s.onPort p (Port.txEmptyAction s.config s.draw)

/-- `set_mctrl`: no access and no state change in any `life` state (R136). The operand is opaque (R76). -/
def execSetMctrl (p : Nat) (_mctrl : Word) (s : State) : Out State := s.onPort p .ok

/-- `set_termios`: no access and no state change (R137). The operands are opaque (R76). -/
def execSetTermios (p : Nat) (_new _old : Word) (s : State) : Out State := s.onPort p .ok

end Sys2Proof.Machine
end

