-- ==== Sys2Proof/Machine/Dispatch.lean ====
section
/-!
DEFINITION. The meaning of every action (spec/30_encoding.md R78): one arm per constructor.
-/

namespace Sys2Proof.Machine

def exec (i : Instr) (s : State) : Host.Outcome State Fault Refusal :=
  match i with
  | .rdCtrl p => Sys2Proof.Machine.execRdCtrl p s
  | .rdRxdata p => Sys2Proof.Machine.execRdRxdata p s
  | .rdTxdata p => Sys2Proof.Machine.execRdTxdata p s
  | .rdStatus p => Sys2Proof.Machine.execRdStatus p s
  | .wrCtrl p v => Sys2Proof.Machine.execWrCtrl p v s
  | .wrRxdata p v => Sys2Proof.Machine.execWrRxdata p v s
  | .wrTxdata p v => Sys2Proof.Machine.execWrTxdata p v s
  | .wrStatus p v => Sys2Proof.Machine.execWrStatus p v s
  | .setBit p reg mask => Sys2Proof.Machine.execSetBit p reg mask s
  | .clearBit p reg mask => Sys2Proof.Machine.execClearBit p reg mask s
  | .testBit p reg mask => Sys2Proof.Machine.execTestBit p reg mask s
  | .writeTxFifo p => Sys2Proof.Machine.execWriteTxFifo p s
  | .rxDrain p => Sys2Proof.Machine.execRxDrain p s
  | .irqHandler p => Sys2Proof.Machine.execIrqHandler p s
  | .startup p => Sys2Proof.Machine.execStartup p s
  | .shutdown p => Sys2Proof.Machine.execShutdown p s
  | .startTx p => Sys2Proof.Machine.execStartTx p s
  | .stopTx p => Sys2Proof.Machine.execStopTx p s
  | .stopRx p => Sys2Proof.Machine.execStopRx p s
  | .txEmpty p => Sys2Proof.Machine.execTxEmpty p s
  | .setMctrl p mctrl => Sys2Proof.Machine.execSetMctrl p mctrl s
  | .setTermios p new old => Sys2Proof.Machine.execSetTermios p new old s
  | .consoleWrite p str count => Sys2Proof.Machine.execConsoleWrite p str count s

end Sys2Proof.Machine
end

