-- ==== Sys2Proof/Machine/Events.lean ====
section
/-!
DEFINITION. The steps of the other agents: the UART's own (spec/44_hardware_events.md R161 to R167), the
platform's dispatch (spec/60_exceptions.md R182), and the host's (R188). A step that is not enabled changes
nothing (notes/assumptions/1.md).
-/

namespace Sys2Proof.Machine

/-! ## The UART -/

/-- `TxEvent`: a TX event sets `TXPEND` by `TX_EVENT` and `PEND_GATED` (R166). -/
def UartHw.txEvent (c : Config) (wasLast : Bool) (hw : UartHw) : UartHw :=
  let fire := c.txEvent = .dequeue ∨ (c.txEvent = .fifoEmpty ∧ wasLast)
  if fire ∧ (c.pendGated = false ∨ hw.txie) then { hw with txpend := true } else hw

/-- `RxEvent`: an RX event sets `RXPEND` by `RX_EVENT` and `PEND_GATED` (R167). -/
def UartHw.rxEvent (c : Config) (hw : UartHw) : UartHw :=
  if c.rxEvent = .enqueue ∧ (c.pendGated = false ∨ hw.rxie) then { hw with rxpend := true } else hw

/-- `tx_load`: the oldest byte of the TX FIFO moves into the empty shifter; `none` when not enabled
(R161). -/
def UartHw.txLoad (c : Config) (hw : UartHw) : Option UartHw :=
  match hw.shifter, hw.txfifo with
  | none, b :: bs =>
    if hw.txGate c then
      some ({ hw with shifter := some b, txfifo := bs }.txEvent c bs.isEmpty)
    else none
  | _, _ => none

/-- `tx_done`: the byte in the shifter has been sent; `none` when not enabled (R162). -/
def Port.txDone (c : Config) (P : Port) : Option Port :=
  match P.hw.shifter with
  | some b =>
    if P.hw.txGate c then
      some { P with lineOut := P.lineOut ++ [b], hw := { P.hw with shifter := none } }
    else none
  | none => none

/-- A list of exactly `n` bytes made of a draw. -/
def fitTo (n : Nat) (bs : List Byte) : List Byte := (bs ++ List.replicate n 0).take n

/-- `Overrun(b)`: a byte arrives while the RX FIFO is full (R165). -/
def UartHw.overrun (c : Config) (ovr : OverrunDraw) (hw : UartHw) : UartHw :=
  match c.rxOverrun with
  | .dropNew => hw
  | .any => { hw with rxfifo := fitTo c.rxFifoDepth ovr.fifo, rxpend := ovr.rxpend }

/-- `rx b`: the environment offers a byte (R164). -/
def UartHw.rx (c : Config) (b : Byte) (ovr : OverrunDraw) (hw : UartHw) : UartHw :=
  if c.enGatesRx && !hw.uarten then hw
  else if hw.rxfifo.length < c.rxFifoDepth then
    { hw with rxfifo := hw.rxfifo ++ [b] }.rxEvent c
  else hw.overrun c ovr

/-- `pend_tx`: a step only when `TX_EVENT = spontaneous` (R166). -/
def UartHw.pendTx (c : Config) (hw : UartHw) : Option UartHw :=
  if c.txEvent = .spontaneous then some { hw with txpend := true } else none

/-- `pend_rx`: a step only when `RX_EVENT = spontaneous` (R167). -/
def UartHw.pendRx (c : Config) (hw : UartHw) : Option UartHw :=
  if c.rxEvent = .spontaneous then some { hw with rxpend := true } else none

/-! ## The host -/

/-- Step `hp0` of `host_put b`: enabled while the ring has room for one more byte (R188, D23). -/
def Port.hostPut (c : Config) (b : Byte) (P : Port) : Option Port :=
  if P.producing = false ∧ P.ring.count c < c.xmitCap - 1 then
    some { P with
      ring := { P.ring with buf := P.ring.buf.set P.ring.head b }
      producing := true }
  else none

/-- Step `hp1` of `host_put b`: the byte is published (R61, R188). -/
def Port.hostPublish (c : Config) (P : Port) : Option Port :=
  if P.producing then
    some { P with ring := { P.ring with head := ringNext c P.ring.head }, producing := false }
  else none

/-- The reader takes the oldest published item (R44, R188; notes/assumptions/10.md). -/
def Port.hostTake (P : Port) : Option Port :=
  if 0 < P.inq.published then
    some { P with inq := ⟨P.inq.items.tail, P.inq.published - 1⟩ }
  else none

/-! ## Lifting to the whole state -/

/-- A step of port `p` that may not be enabled. -/
def State.portEvent (p : Nat) (f : Port → Option Port) (s : State) : Out State :=
  match s.ports[p]? with
  | none => .next s
  | some P =>
    match f P with
    | none => .next s
    | some P' => .next (s.setPort p P')

/-- A step of the UART of port `p` that may not be enabled. -/
def State.hwEvent (p : Nat) (f : UartHw → Option UartHw) (s : State) : Out State :=
  s.portEvent p fun P => (f P.hw).map fun hw => { P with hw := hw }

/-- `dispatch` for port `p`, when it is enabled (R182). -/
def State.dispatchAgent (p : Nat) (s : State) : Out State :=
  .next (if s.dispatchEnabled p then s.takeInterrupt p else s)

/-- The ordinary context has a step: no handler runs (R180, R183) and no dispatch is enabled, since the
handler wins at every step boundary at which it is (R186; DEDUCED, notes/assumptions/23.md). -/
def State.ordinaryRuns (s : State) : Bool := s.handler.isNone && !s.dispatchPending

/-- A step of the ordinary context, where it has one. -/
def State.ordinary (f : State → Out State) (s : State) : Out State :=
  if s.ordinaryRuns then f s else .next s

end Sys2Proof.Machine
end

