-- ==== Sys2Proof/Machine/Agents.lean ====
section
/-!
DEFINITION. What each agent of spec/60_exceptions.md R180 does when it is chosen, and how the caller's next
action is fetched from the bytes of `State.calls` (spec/30_encoding.md R70).
-/

namespace Sys2Proof.Machine

/-- What bytes that are no action do (R79; R191 for what has no fault). -/
def State.undecoded (e : DecodeError) (s : State) : Out State :=
  match e with
  | .empty => .next s
  | .notAdmitted code => s.raise (.access (.code code))
  | .reserved code => s.raise (.reserved code)
  | .badPort port => .refused (.badPort port)
  | .truncated code => .refused (.truncatedAction code)

/-- The caller issues its next action, if it has one (R22, R70), also while an operation of another port is in
progress (DESIGN CHOICE, notes/assumptions/24.md). -/
def State.callAgent (s : State) : Out State :=
  match decode s.calls with
  | .ok (i, rest) => exec i { s with calls := rest }
  | .error e => s.undecoded e

/-- The running handler steps; dispatch's invocation of it is the action `irq_handler` (R182, R183). -/
def State.runHandler (s : State) : Out State :=
  match s.handler with
  | some ⟨p, .ih0⟩ => exec (.irqHandler p) s
  | _ => s.handlerAgent

/-- One step of the chosen agent (R180). Operations of several ports may be in progress at once, and any of
them may be the one that steps (R45, R180, R195; DESIGN CHOICE, notes/assumptions/24.md). -/
def State.runAgent (a : Agent) (s : State) : Out State :=
  match a with
  | .call => s.ordinary State.callAgent
  | .op p => s.ordinary (State.opAgent p)
  | .console k => s.ordinary (State.consoleAgent k)
  | .handler => s.runHandler
  | .dispatch p => s.dispatchAgent p
  | .txLoad p => s.hwEvent p (UartHw.txLoad s.config)
  | .txDone p => s.portEvent p (Port.txDone s.config)
  | .rx p b ovr => s.hwEvent p fun hw => some (hw.rx s.config b ovr)
  | .pendTx p => s.hwEvent p (UartHw.pendTx s.config)
  | .pendRx p => s.hwEvent p (UartHw.pendRx s.config)
  | .hostPut p b => s.ordinary (State.portEvent p (Port.hostPut s.config b))
  | .hostPublish p => s.ordinary (State.portEvent p (Port.hostPublish s.config))
  | .hostTake p => s.ordinary (State.portEvent p Port.hostTake)
  | .hostStore a b => s.ordinary fun t => .next { t with hostMem := t.hostMem.write a.toNat b }
  | .setMasked m => s.ordinary fun t => .next { t with cpuMasked := m }

/-- The choice of the step to come: the next one listed, or the free choice when none is (R180). -/
def State.nextChoice (s : State) : Choice :=
  match s.schedule with
  | ch :: _ => ch
  | [] => Config.choice s.tick

/-- The state in which the chosen agent steps: its choice is used up, its draw is at hand. -/
def State.chosen (s : State) : State :=
  { s with schedule := s.schedule.tail, tick := s.tick + 1, draw := s.nextChoice.draw }

/-- The bytes of one action laid where the caller's next action is fetched, without the padding that
follows it. -/
def actionBytes (bs : List Byte) : List Byte :=
  match decode bs with
  | .ok (_, rest) => bs.take (bs.length - rest.length)
  | .error _ => bs

/-- The state in which the next step issues the action of the given bytes: no fault, no handler running, the
caller chosen with the draw the state holds, and the CPU masked where a dispatch would come first (R186). -/
def State.placeCall (bs : List Byte) (s : State) : State :=
  { s with
    calls := actionBytes bs
    schedule := ⟨.call, s.draw⟩ :: s.schedule
    handler := none
    cpuMasked := s.cpuMasked || { s with handler := none }.dispatchPending
    fault := none }

/-- The state in which the next step is the handler's first, as dispatch leaves it (R182). -/
def State.placeHandler (p : Nat) (s : State) : State :=
  { s with
    schedule := ⟨.handler, s.draw⟩ :: s.schedule
    handler := some ⟨p, .ih0⟩
    fault := none }

/-- Places an action so that the very next step runs it. `irq_handler` is issued by dispatch alone (R138),
so for it the state is the one dispatch leaves (notes/assumptions/7.md). -/
def State.placeAction (bs : List Byte) (s : State) : State :=
  match decode bs with
  | .ok (.irqHandler p, _) => s.placeHandler p
  | _ => s.placeCall bs

end Sys2Proof.Machine
end

