-- ==== Sys2Proof/Machine/Step.lean ====
section
/-!
DEFINITION. One step of the whole system (spec/60_exceptions.md R180): the chosen agent steps; a faulted
system takes no further step (R190).
-/

namespace Sys2Proof.Machine

def step (s : State) : Host.Outcome State Fault Refusal :=
  match s.fault with
  | some f => .fault f
  | none => s.chosen.runAgent s.nextChoice.agent

/-- `s` with the action of a table word placed so that the next step runs it. -/
def State.withFetchWord (s : State) (nbits w : Nat) : State := s.placeAction (tableBytes nbits w)

end Sys2Proof.Machine
end

