-- ==== Sys2Proof/Safety.lean ====
section
/-!
DEFINITION. What a run is, what counts as a sound state, and the words claims use: quiescent states
(spec/60_exceptions.md R189), runs in which chosen agents step, the invariant every step keeps, the
transmitter's fairness (spec/44_hardware_events.md R171).
-/

namespace Sys2Proof.Machine

/-! ## Runs -/

/-- `s` with the given choices listed for its next steps. -/
def State.scheduled (chs : List Choice) (s : State) : State := { s with schedule := chs ++ s.schedule }

/-- A run of exactly the given choices. -/
def State.runChoices (chs : List Choice) (s : State) : Out State :=
  Host.Core.run Sys2Proof.core chs.length (s.scheduled chs)

/-- What the model's own fields hold after the given choices have been used up. -/
def State.after (chs : List Choice) (s : State) : State :=
  { s with
    tick := s.tick + chs.length
    draw := (chs.getLast?.map Choice.draw).getD s.draw }

/-- Choices in which only the operation in progress on port `p` steps, with the given draws. -/
def opChoices (p : Nat) (ds : List Word) : List Choice := ds.map fun d => ⟨.op p, d⟩

/-- Choices in which only the running handler steps, with the given draws. -/
def handlerChoices (ds : List Word) : List Choice := ds.map fun d => ⟨.handler, d⟩

/-- Choices in which only the `k`-th console write in progress steps, with the given draws. -/
def consoleChoices (k : Nat) (ds : List Word) : List Choice := ds.map fun d => ⟨.console k, d⟩

/-- An infinite run: every state's step gives the next one. -/
def IsRun (run : Nat → State) : Prop := ∀ n, step (run n) = .next (run (n + 1))

/-- Ordinary code can step: no fault has stopped the model (R190), no handler runs (R183) and no dispatch is
enabled (R186, notes/assumptions/23.md). -/
def State.ordinaryReady (s : State) : Prop :=
  s.fault = none ∧ s.handler = none ∧ s.dispatchPending = false

/-! ## Quiescent states -/

/-- No operation is in progress, no handler runs, there is no fault and no dispatch is enabled (R189). -/
def State.quiescent (s : State) : Bool :=
  s.ports.all (fun P => P.ctl.isNone) && s.console.isEmpty && s.handler.isNone && s.fault.isNone &&
    !s.dispatchPending

/-! ## The invariant -/

/-- The control points at which `life` is Starting (R125, R127). -/
def inStartup : Option OpPoint → Bool
  | some (.su1 _) | some (.su2 _) => true
  | _ => false

/-- The control points at which `life` is Stopping (R127, R130). -/
def inShutdown : Option OpPoint → Bool
  | some (.sd0 _) | some (.sd1 _) | some .sd2 => true
  | _ => false

/-- The lifecycle of a port agrees with its registration and its control point (R42, R46, R127). -/
def Port.lifeOk (P : Port) : Prop :=
  (P.registered = true ↔ P.life ≠ .inactive) ∧
    (P.life = .starting ↔ inStartup P.ctl = true) ∧
    (P.life = .stopping ↔ inShutdown P.ctl = true) ∧ P.ctl ≠ some .su0

/-- The transmit ring of a port keeps its shape (R43). -/
def Ring.shapeOk (c : Config) (r : Ring) : Prop :=
  r.buf.length = c.xmitCap ∧ r.head < c.xmitCap ∧ r.tail < c.xmitCap

/-- A sound port in slot `p`: its line is the slot (R41, R70), its window is aligned (R8), its FIFOs fit their
depths (R39, R40), its ring keeps its shape (R43), it has published no more items than it has (R44), and its lifecycle is
consistent. -/
structure Port.Ok (c : Config) (p : Nat) (P : Port) : Prop where
  line : P.line = p
  aligned : P.base.toNat % 4 = 0
  txfifo : P.hw.txfifo.length ≤ c.txFifoDepth
  rxfifo : P.hw.rxfifo.length ≤ c.rxFifoDepth
  ring : P.ring.shapeOk c
  published : P.inq.published ≤ P.inq.items.length
  life : P.lifeOk

/-- The windows at two bases share no byte (R65). -/
def windowsApart (a b : Addr) : Prop := WINDOW_SIZE ≤ a - b ∧ WINDOW_SIZE ≤ b - a

/-- The invariant of the system: the parameters keep their bounds (R8), there are at most six sound ports
(R41, R195) whose windows do not overlap (R65), host memory keeps its canonical form, a handler runs only for a port whose handler is
registered (R182), and a console write runs only where the console has its port (R151). -/
structure State.Inv (s : State) : Prop where
  config : s.config.wf = true
  count : s.ports.length ≤ lineMax + 1
  ports : ∀ (p : Nat) (P : Port), s.ports[p]? = some P → P.Ok s.config p
  windows : ∀ (p q : Nat) (P Q : Port), s.ports[p]? = some P → s.ports[q]? = some Q → p ≠ q →
    windowsApart P.base Q.base
  memory : Memory.wf s.hostMem
  handler : ∀ h, s.handler = some h → ∃ P, s.ports[h.port]? = some P ∧ P.registered = true
  console : s.console ≠ [] → CONSOLE_LINE < s.ports.length

/-- The glue's and the host's duties when a port is created (R8, R213, R214): an aligned window, a ring of the
configured capacity and an index inside it. -/
def PortInit.ok (c : Config) (g : PortInit) : Prop :=
  g.base.toNat % 4 = 0 ∧ g.buf.length = c.xmitCap ∧ g.index < c.xmitCap

/-- The glue's duty towards the ports together: each owns its window alone (R41, R65). -/
def glueOk (gs : List PortInit) : Prop := gs.Pairwise fun g h => windowsApart g.base h.base

/-! ## The transmitter -/

/-- Every byte a port has accepted for transmission and not lost: sent, in the shifter, in the FIFO. -/
def Port.txStream (P : Port) : List Byte := P.lineOut ++ P.hw.shifter.toList ++ P.hw.txfifo

/-- The bytes of the ring from its tail on, `k` of them. -/
def Ring.bytes (c : Config) (r : Ring) (k : Nat) : List Byte :=
  (List.range k).map fun j => r.buf.getD ((r.tail + j) % c.xmitCap) 0

/-- `tx_done` is enabled on port `p` (R162). -/
def State.txDoneEnabled (p : Nat) (s : State) : Prop :=
  ∃ P, s.ports[p]? = some P ∧ P.hw.shifter ≠ none ∧ P.hw.txGate s.config = true

/-- `tx_load` is enabled on port `p` (R161). -/
def State.txLoadEnabled (p : Nat) (s : State) : Prop :=
  ∃ P, s.ports[p]? = some P ∧ P.hw.shifter = none ∧ P.hw.txfifo ≠ [] ∧ P.hw.txGate s.config = true

/-- Weak fairness of the transmitter: a step that stays enabled is eventually taken (R171). -/
def TransmitterFair (run : Nat → State) : Prop :=
  ∀ p n,
    ((∀ m, n ≤ m → (run m).txDoneEnabled p) → ∃ m, n ≤ m ∧ (run m).nextChoice.agent = .txDone p) ∧
      ((∀ m, n ≤ m → (run m).txLoadEnabled p) → ∃ m, n ≤ m ∧ (run m).nextChoice.agent = .txLoad p)

end Sys2Proof.Machine
end

