-- ==== Sys2Proof/Certificates/Slice0/Obligations.lean ====
section
/-!
DEFINITION. The statements about the model, for the provers. Each docstring names the rule of spec/ it rests
on; where a clause rests on a choice of the model, it names the log entry.
-/

open Sys2Proof Sys2Proof.Machine

/-! ## Encoding -/

/-- R70 to R79: decoding an encoded action gives it back, at every value of every operand, and leaves the
bytes after it. The layout of port and operands is the model's (notes/assumptions/5.md). -/
def Obligations.DecodeOfEncodeIsTheAction : Prop :=
  ∀ (i : Instr) (rest : List Byte), i.wellFormed = true → decode (encode i ++ rest) = .ok (i, rest)

/-- The map of R78: the admitted codes and what each selects. -/
def codeMap : List (Byte × Opcode) :=
  [(0x40, .rd .ctrl), (0x44, .rd .rxdata), (0x48, .rd .txdata), (0x4C, .rd .status),
    (0x50, .wr .ctrl), (0x54, .wr .rxdata), (0x58, .wr .txdata), (0x5C, .wr .status)] ++
  [(0x80, .op .setBit), (0x81, .op .clearBit), (0x82, .op .testBit), (0x83, .op .writeTxFifo),
    (0x84, .op .rxDrain), (0x85, .op .irqHandler), (0x86, .op .startup), (0x87, .op .shutdown)] ++
  [(0x88, .op .startTx), (0x89, .op .stopTx), (0x8A, .op .stopRx), (0x8B, .op .txEmpty),
    (0x8C, .op .setMctrl), (0x8D, .op .setTermios), (0x8E, .op .consoleWrite)]

/-- R78: a code selects what the map says, and the encoder writes that code; every code outside the map is not
admitted (bit 7 clear) or reserved (bit 7 set). -/
def Obligations.CodeMapIsComplete : Prop :=
  ∀ code : Byte,
    (∀ o : Opcode, (decodeCode code = .ok o ↔ (code, o) ∈ codeMap) ∧ ((code, o) ∈ codeMap ↔ o.code = code)) ∧
      ((∀ o : Opcode, (code, o) ∉ codeMap) →
        decodeCode code = .error (if code.getLsbD 7 then .reserved code else .notAdmitted code))

/-- R71, R75, R82: table words written out from the encodings decode to their actions (port 0, zero
operands). A sanity statement. -/
def Obligations.TableWordsDecode : Prop :=
  decodeTableWord 8 0b01001100 = some (.rdStatus 0) ∧
    decodeTableWord 8 0b01011000 = some (.wrTxdata 0 0) ∧
    decodeTableWord 8 0b10000001 = some (.clearBit 0 0 0) ∧
    decodeTableWord 8 0b10000011 = some (.writeTxFifo 0) ∧
    decodeTableWord 8 0b10000110 = some (.startup 0) ∧
    decodeTableWord 8 0b10001110 = some (.consoleWrite 0 0 0) ∧
    decodeTableWord 8 0b01001101 = none ∧ decodeTableWord 8 0b10001111 = none

/-- R79 items 1 and 2, R190: when the caller issues a code that R78 does not list, the model faults with
`F2 ACCESS` or `F6 RESERVED`, keeps the code, and changes nothing else.
Which agent steps is the model's schedule (notes/assumptions/1.md).
Ordinary steps are taken where no fault is set, no handler runs and no dispatch is enabled (R186,
notes/assumptions/23.md). -/
def Obligations.UnlistedCodesFault : Prop :=
  ∀ (s : State) (code : Byte) (bs : List Byte) (d : Word) (chs : List Choice),
    s.ordinaryReady → s.calls = code :: bs → s.schedule = ⟨.call, d⟩ :: chs →
    (∀ o : Opcode, o.code ≠ code) →
    step s = .next { s with
      schedule := chs
      tick := s.tick + 1
      draw := d
      fault := some (if code.getLsbD 7 then .reserved code else .access (.code code)) }

/-! ## The step -/

/-- R70, R180, R186: while no fault is set, no handler runs and no dispatch is enabled, when the caller is chosen
and its bytes decode to an action, the step is the action's meaning, in the state in which the action's bytes,
the choice and one tick are used up.
While a dispatch is enabled the same choice changes nothing (`HandlerRunsToCompletion`): the model's reading of
R186 (notes/assumptions/23.md).
Bytes, schedule, tick and draw are the model's (notes/assumptions/1.md, 7.md). -/
def Obligations.StepRunsTheDecodedAction : Prop :=
  ∀ (s : State) (i : Instr) (rest : List Byte) (d : Word) (chs : List Choice),
    s.ordinaryReady → s.schedule = ⟨.call, d⟩ :: chs → decode s.calls = .ok (i, rest) →
    step s = exec i { s with calls := rest, schedule := chs, tick := s.tick + 1, draw := d }

/-- R182, R184, R190: a fault stops the model; a running handler's step is the handler's next step, and the
first of them is the action `irq_handler`.
Which agent steps is the model's schedule (notes/assumptions/1.md). -/
def Obligations.FaultStopsAndHandlerSteps : Prop :=
  (∀ (s : State) (f : Fault), s.fault = some f → step s = .fault f) ∧
    (∀ (s : State) (h : HandlerRun) (d : Word) (chs : List Choice),
      s.fault = none → s.handler = some h → s.schedule = ⟨.handler, d⟩ :: chs →
      step s =
        State.handlerAgent { s with schedule := chs, tick := s.tick + 1, draw := d }) ∧
    (∀ (s : State) (p : Nat) (d : Word) (chs : List Choice),
      s.fault = none → s.handler = some ⟨p, .ih0⟩ → s.schedule = ⟨.handler, d⟩ :: chs →
      step s = exec (.irqHandler p) { s with schedule := chs, tick := s.tick + 1, draw := d })

/-! ## The invariant -/

/-- The invariant of R8, R39, R40, R41, R43, R44, R46, R65, R127, R151 and R182 is kept by every step of every
agent.
The canonical memory form and a port's slot are the model's (notes/assumptions/6.md, 8.md). -/
def Obligations.EveryStepKeepsTheInvariant : Prop :=
  ∀ s t : State, s.Inv → step s = .next t → t.Inv

/-- R210 to R213: the invariant holds at every start state whose parameters, windows and rings are as R8, R65 and
R213 require, and at `State.reset`.
`State.reset`'s own values are the model's (notes/assumptions/2.md, 3.md). -/
def Obligations.ResetHasTheInvariant : Prop :=
  (∀ (c : Config) (masked : Bool) (d : Word) (gs : List PortInit),
    c.wf = true → gs.length ≤ lineMax + 1 → (∀ g ∈ gs, g.ok c) → glueOk gs →
    (State.resetWith c masked d gs).Inv) ∧
  State.reset.Inv

/-- R210, R211, R212: what reset leaves, for every parameter and every draw: each port Inactive and Idle,
unregistered, counters and queues empty, FIFOs empty, Control and the pending bits at their draws, the
derived Status bits 0, 1, 0, 0, 1; no handler running, nothing transmitted.
That a port's line is its slot is the model's (notes/assumptions/8.md). -/
def Obligations.ResetLeavesTheSpecsValues : Prop :=
  ∀ (c : Config) (masked : Bool) (d : Word) (gs : List PortInit) (p : Nat) (g : PortInit),
    c.wf = true → gs[p]? = some g →
    (State.resetWith c masked d gs).handler = none ∧
      (State.resetWith c masked d gs).cpuMasked = masked ∧
      (State.resetWith c masked d gs).fault = none ∧
      ∃ P, (State.resetWith c masked d gs).ports[p]? = some P ∧
        P.life = .inactive ∧ P.ctl = none ∧ P.registered = false ∧ P.txCount = 0 ∧ P.rxCount = 0 ∧
        P.line = p ∧ P.base = g.base ∧ P.irq = g.irq ∧ P.inq = ⟨[], 0⟩ ∧ P.lineOut = [] ∧
        P.ring.head = P.ring.tail ∧
        P.hw = ⟨g.ctrlReset, [], none, [], g.txpendReset, g.rxpendReset⟩ ∧
        P.hw.txbusy = false ∧ P.hw.txfe = true ∧ P.hw.rxff c = false ∧ P.hw.txff c = false ∧
        P.hw.rxfe = true

/-- R8, R41, R46, R65, R66, R195, R212, R214: no step of any agent changes a parameter, creates or removes a port,
or changes a port's window base, interrupt line, line index or mapping; a step changes at most one port; and
only the caller's own setting changes `cpu_masked`, which makes it the value set.
That ports are fixed during a run, that a mapping stays, that the parameters are a field of the state, and the
setting as an agent are the model's (notes/assumptions/2.md, 19.md, 20.md, 15.md).
Ordinary steps are taken where no fault is set, no handler runs and no dispatch is enabled (R186,
notes/assumptions/23.md). -/
def Obligations.StepsKeepWhatTheGlueGave : Prop :=
  (∀ s t : State, step s = .next t →
    t.config = s.config ∧ t.ports.length = s.ports.length ∧
      (∀ (p : Nat) (P Q : Port), s.ports[p]? = some P → t.ports[p]? = some Q →
        Q.base = P.base ∧ Q.irq = P.irq ∧ Q.line = P.line ∧ Q.mapped = P.mapped) ∧
      (∃ p : Nat, ∀ q : Nat, q ≠ p → t.ports[q]? = s.ports[q]?) ∧
      ((∀ m, s.nextChoice.agent ≠ .setMasked m) → t.cpuMasked = s.cpuMasked)) ∧
  ∀ (s : State) (m : Bool) (d : Word) (chs : List Choice),
    s.ordinaryReady → s.schedule = ⟨.setMasked m, d⟩ :: chs →
    step s = .next { s with cpuMasked := m, schedule := chs, tick := s.tick + 1, draw := d }

/-! ## Bus accesses -/

/-- R51, R52, R186: the address decode of the window, range before width and alignment, and which register
an admitted access reaches.
The offset is taken modulo 2^64, which is the model's (notes/assumptions/4.md). -/
def Obligations.WindowDecode : Prop :=
  ∀ (base a : Addr) (width : Nat),
    (16 ≤ (a - base).toNat → decodeWindow base a width = .error (.range a)) ∧
      ((a - base).toNat < 16 → (width ≠ 32 ∨ (a - base).toNat % 4 ≠ 0) →
        decodeWindow base a width = .error (.access (.address a))) ∧
      (width = 32 → (a - base).toNat = 0 → decodeWindow base a width = .ok .ctrl) ∧
      (width = 32 → (a - base).toNat = 4 → decodeWindow base a width = .ok .rxdata) ∧
      (width = 32 → (a - base).toNat = 8 → decodeWindow base a width = .ok .txdata) ∧
      (width = 32 → (a - base).toNat = 12 → decodeWindow base a width = .ok .status)

/-- R90, R93, R94: `rd CTRL` returns the stored bits and `rd TXDATA` returns any value (the draw); nothing
changes but the value returned.
The field `ret` is the model's (notes/assumptions/11.md). -/
def Obligations.ReadsOfControlAndTxData : Prop :=
  ∀ (s : State) (p : Nat) (P : Port), s.ports[p]? = some P → P.mapped = true →
    exec (.rdCtrl p) s = .next (s.setPort p { P with ret := .word P.hw.ctrl }) ∧
      exec (.rdTxdata p) s = .next (s.setPort p { P with ret := .word s.draw })

/-- R30 to R38, R95: `rd STATUS` changes nothing but the value returned, whose named bits are the flags of
the state at the access and whose other bits are those of the draw.
The draw and the field `ret` are the model's (notes/assumptions/13.md, 11.md). -/
def Obligations.ReadOfStatus : Prop :=
  ∀ (s : State) (p : Nat) (P : Port), s.ports[p]? = some P → P.mapped = true →
    ∃ v : Word, exec (.rdStatus p) s = .next (s.setPort p { P with ret := .word v }) ∧
      (v.getLsbD 17 = true ↔ 0 < P.hw.txfifo.length ∨ P.hw.shifter ≠ none) ∧
      (v.getLsbD 10 = true ↔ P.hw.txfifo.length = 0) ∧
      (v.getLsbD 9 = true ↔ P.hw.rxfifo.length = s.config.rxFifoDepth) ∧
      (v.getLsbD 6 = true ↔ P.hw.txfifo.length = s.config.txFifoDepth) ∧
      (v.getLsbD 5 = true ↔ P.hw.rxfifo.length = 0) ∧
      v.getLsbD 1 = P.hw.txpend ∧ v.getLsbD 0 = P.hw.rxpend ∧
      ∀ i, i < 32 → i ∉ [17, 10, 9, 6, 5, 1, 0] → v.getLsbD i = s.draw.getLsbD i

/-- R28, R92: `rd RXDATA` returns the oldest byte in bits 7:0, the draw in bits 31:8, and removes that byte;
on an empty FIFO it returns the draw and changes nothing else. No pending bit changes. -/
def Obligations.ReadOfRxData : Prop :=
  ∀ (s : State) (p : Nat) (P : Port), s.ports[p]? = some P → P.mapped = true →
    (P.hw.rxfifo = [] →
      exec (.rdRxdata p) s = .next (s.setPort p { P with ret := .word s.draw })) ∧
    (∀ (b : Byte) (bs : List Byte), P.hw.rxfifo = b :: bs →
      ∃ v : Word, v.extractLsb' 0 8 = b ∧ v.extractLsb' 8 24 = s.draw.extractLsb' 8 24 ∧
        exec (.rdRxdata p) s =
          .next (s.setPort p { P with hw := { P.hw with rxfifo := bs }, ret := .word v }))

/-- R91, R92, R94: `wr CTRL` stores all 32 bits, `wr RXDATA` changes nothing. -/
def Obligations.WritesOfControlAndRxData : Prop :=
  ∀ (s : State) (p : Nat) (P : Port) (v : Word), s.ports[p]? = some P → P.mapped = true →
    exec (.wrCtrl p v) s = .next (s.setPort p { P with hw := { P.hw with ctrl := v } }) ∧
      exec (.wrRxdata p v) s = .next s

/-- R91, R95: `wr STATUS` acts on the pending bits alone: writing 0 clears, writing 1 sets under
`PEND_W1 = set` and does nothing otherwise; the other 30 bits are ignored. -/
def Obligations.WriteOfStatus : Prop :=
  ∀ (s : State) (p : Nat) (P : Port) (v : Word), s.ports[p]? = some P → P.mapped = true →
    ∃ tx rx : Bool,
      exec (.wrStatus p v) s =
        .next (s.setPort p { P with hw := { P.hw with txpend := tx, rxpend := rx } }) ∧
      (v.getLsbD 1 = false → tx = false) ∧ (v.getLsbD 0 = false → rx = false) ∧
      (v.getLsbD 1 = true → tx = if s.config.pendW1 = .set then true else P.hw.txpend) ∧
      (v.getLsbD 0 = true → rx = if s.config.pendW1 = .set then true else P.hw.rxpend)

/-- R29, R93, R190: `wr TXDATA` appends bits 7:0 at the tail of the TX FIFO, ignores bits 31:8 and sets no
pending bit; on a full FIFO it faults with `F3 TX_OVERFLOW`, which keeps the value. -/
def Obligations.WriteOfTxData : Prop :=
  ∀ (s : State) (p : Nat) (P : Port) (v : Word), s.ports[p]? = some P → P.mapped = true →
    (P.hw.txfifo.length ≠ s.config.txFifoDepth →
      exec (.wrTxdata p v) s =
        .next (s.setPort p
          { P with hw := { P.hw with txfifo := P.hw.txfifo ++ [v.extractLsb' 0 8] } })) ∧
    (P.hw.txfifo.length = s.config.txFifoDepth →
      exec (.wrTxdata p v) s = .next { s with fault := some (.txOverflow v) })

/-- R66, R138, R191: the uses that are refused: an access while the window is not mapped; an `irq_handler`
action that dispatch did not issue; a second lifecycle operation while one is in progress, before its
precondition is judged; and an operation that needs the port's control point while another one holds it, once
its precondition holds (this last is the model's choice, notes/assumptions/9.md). -/
def Obligations.UsesOutsideTheModelAreRefused : Prop :=
  ∀ (s : State) (p : Nat) (P : Port) (v mask : Word), s.ports[p]? = some P →
    (P.mapped = false →
      ∀ i ∈ [Instr.rdCtrl p, .rdRxdata p, .rdTxdata p, .rdStatus p, .wrCtrl p v, .wrRxdata p v,
          .wrTxdata p v, .wrStatus p v],
        exec i s = .refused .windowUnmapped) ∧
    (s.handler ≠ some ⟨p, .ih0⟩ → exec (.irqHandler p) s = .refused .handlerNotDispatched) ∧
    (inLifecycleOp P.ctl = true →
      ∀ i ∈ [Instr.startup p, .shutdown p, .startTx p, .stopTx p, .stopRx p, .txEmpty p],
        exec i s = .refused .portBusy) ∧
    (P.ctl ≠ none →
      (∀ i ∈ [Instr.setBit p 0x0 mask, .setBit p 0xC mask, .clearBit p 0x0 mask, .clearBit p 0xC mask],
        exec i s = .refused .portBusy) ∧
      (P.life = .inactive → exec (.startup p) s = .refused .portBusy) ∧
      (P.life = .active →
        ∀ i ∈ [Instr.shutdown p, .startTx p, .stopTx p, .stopRx p, .txEmpty p, .writeTxFifo p, .rxDrain p],
          exec i s = .refused .portBusy))

/-! ## Bit primitives -/

/-- R96, R97, R59: on Control, `set_bit` and `clear_bit` are a read then a write of the combined value; with
no other agent between the two, only the masked bits of Control change.
Ordinary steps are taken where no fault is set, no handler runs and no dispatch is enabled (R186,
notes/assumptions/23.md). -/
def Obligations.BitOpsOnControl : Prop :=
  ∀ (s : State) (p : Nat) (P : Port) (mask d : Word),
    s.ordinaryReady → s.ports[p]? = some P → P.mapped = true → P.ctl = none →
    (∃ t, exec (.setBit p 0x0 mask) s = .next t ∧
      t = s.setPort p { P with ctl := some (.setBit .ctrl mask (.write P.hw.ctrl)) } ∧
      t.runChoices (opChoices p [d]) = .next (State.after (opChoices p [d])
        (s.setPort p { P with hw := { P.hw with ctrl := P.hw.ctrl ||| mask } }))) ∧
    (∃ t, exec (.clearBit p 0x0 mask) s = .next t ∧
      t = s.setPort p { P with ctl := some (.clearBit .ctrl mask (.write P.hw.ctrl)) } ∧
      t.runChoices (opChoices p [d]) = .next (State.after (opChoices p [d])
        (s.setPort p { P with hw := { P.hw with ctrl := P.hw.ctrl &&& ~~~mask } })))

/-- R95, R96, R97: on Status, with no other agent between the two accesses: `clear_bit` clears each pending
bit in the mask and keeps the others; `set_bit` keeps a pending bit that is 0 and not in the mask, and
writes 1 to the others, which follows `PEND_W1`.
Ordinary steps are taken where no fault is set, no handler runs and no dispatch is enabled (R186,
notes/assumptions/23.md). -/
def Obligations.BitOpsOnStatus : Prop :=
  ∀ (s : State) (p : Nat) (P : Port) (mask d : Word),
    s.ordinaryReady → s.ports[p]? = some P → P.mapped = true → P.ctl = none →
    (∃ t, exec (.clearBit p 0xC mask) s = .next t ∧
      t.runChoices (opChoices p [d]) = .next (State.after (opChoices p [d])
        (s.setPort p { P with hw := { P.hw with
          txpend := P.hw.txpend && !mask.getLsbD 1
          rxpend := P.hw.rxpend && !mask.getLsbD 0 } }))) ∧
    (∃ t, exec (.setBit p 0xC mask) s = .next t ∧
      t.runChoices (opChoices p [d]) = .next (State.after (opChoices p [d])
        (s.setPort p { P with hw := { P.hw with
          txpend := P.hw.txpend || (mask.getLsbD 1 && s.config.pendW1 = .set)
          rxpend := P.hw.rxpend || (mask.getLsbD 0 && s.config.pendW1 = .set) } })))

/-- R98, D51: `test_bit` is one read and returns whether any masked bit of the register is 1; on Status with a
mask of named bits the reserved bits do not count. Nothing changes but the value returned. -/
def Obligations.TestBitReturnsAnyMaskedBit : Prop :=
  ∀ (s : State) (p : Nat) (P : Port) (mask : Word), s.ports[p]? = some P → P.mapped = true →
    exec (.testBit p 0x0 mask) s =
        .next (s.setPort p { P with ret := .bool (decide (P.hw.ctrl &&& mask ≠ 0)) }) ∧
      (mask &&& ~~~STAT_NAMED = 0 →
        exec (.testBit p 0xC mask) s =
          .next (s.setPort p
            { P with ret := .bool (decide (P.hw.statusNamed s.config &&& mask ≠ 0)) }))

/-- R76, R79 item 3, R190: a bit operation whose register is neither Control nor Status faults with
`F4 BITOP_DATA`, makes no access and changes nothing else. -/
def Obligations.BitOpOnDataRegisterFaults : Prop :=
  ∀ (s : State) (p : Nat) (P : Port) (reg : Byte) (mask : Word), s.ports[p]? = some P →
    reg ≠ 0x0 → reg ≠ 0xC →
    ∀ i ∈ [Instr.setBit p reg mask, .clearBit p reg mask, .testBit p reg mask],
      exec i s = .next { s with fault := some (.bitopData reg) }

/-- The ordinary-context operations' points at which a read-modify-write of Control stands at its write, having
read `v` (R221 and, for a direct refill, R110): the point, the value written, and how the write leaves the rest
of the port (R96, R97, R110, R125, R130 to R133). -/
def controlWrites (v mask : Word) : List (OpPoint × Word × (Port → Port)) :=
  [(.setBit .ctrl mask (.write v), v ||| mask, fun P => { P with ctl := none }),
    (.clearBit .ctrl mask (.write v), v &&& ~~~mask, fun P => { P with ctl := none }),
    (.su1 (.write v), v ||| RXIE, fun P => { P with ctl := some (.su2 .read) }),
    (.su2 (.write v), v ||| UARTEN, fun P => { P with ctl := none, life := .active, ret := .ok }),
    (.sd0 (.write v), v &&& ~~~UARTEN, fun P => { P with ctl := some (.sd1 .read) }),
    (.sd1 (.write v), v &&& ~~~RXIE, fun P => { P with ctl := some .sd2 }),
    (.st0 (.write v), v &&& ~~~TXIE, fun P => { P with ctl := some .st1 }),
    (.sr0 (.write v), v &&& ~~~RXIE, fun P => { P with ctl := some .sr1 })] ++
  [(.writeTxFifo (.wf2 (.write v)), v ||| TXIE, fun P => { P with ctl := none }),
    (.writeTxFifo (.wfEmpty (.write v)), v &&& ~~~TXIE, fun P => { P with ctl := none }),
    (.startTx (.wf2 (.write v)), v ||| TXIE, fun P => { P with ctl := none }),
    (.startTx (.wfEmpty (.write v)), v &&& ~~~TXIE, fun P => { P with ctl := none })]

/-- R59, R96, R97, R221: the write of a Control read-modify-write stores what was read, combined with the mask,
whatever another agent has made of Control in between. Said of the two accesses themselves, whoever makes them;
of the step of every ordinary-context operation that stands at such a write; and of the console's at `cw1` and
`cw7` (R150). Nothing else changes but the control point and what the end of the operation sets.
A step is taken where no fault is set, no handler runs and no dispatch is enabled (R186,
notes/assumptions/23.md).
The list of console writes is the model's (notes/assumptions/14.md). -/
def Obligations.LostUpdateOfControl : Prop :=
  (∀ (c : Config) (P : Port) (v mask d : Word), P.mapped = true →
    P.setBit c d .ctrl mask (.write v) =
        .ok ({ P with hw := { P.hw with ctrl := v ||| mask } }, none) ∧
      P.clearBit c d .ctrl mask (.write v) =
        .ok ({ P with hw := { P.hw with ctrl := v &&& ~~~mask } }, none)) ∧
  (∀ (s : State) (p : Nat) (P : Port) (v mask d : Word) (chs : List Choice),
    s.ordinaryReady → s.ports[p]? = some P → P.mapped = true → s.schedule = ⟨.op p, d⟩ :: chs →
    ∀ x ∈ controlWrites v mask, P.ctl = some x.1 →
      step s = .next { s with
        ports := s.ports.set p (x.2.2 { P with hw := { P.hw with ctrl := x.2.1 } })
        schedule := chs
        tick := s.tick + 1
        draw := d }) ∧
  ∀ (s : State) (k : Nat) (run : ConsoleRun) (P : Port) (v d : Word) (chs : List Choice),
    s.ordinaryReady → s.ports[5]? = some P → P.mapped = true → s.console[k]? = some run →
    s.schedule = ⟨.console k, d⟩ :: chs →
    (run.point = .cw1 (.write v) →
      step s = .next { s with
        ports := s.ports.set 5 { P with hw := { P.hw with ctrl := v &&& ~~~TXIE } }
        console := s.console.set k { run with point := .cw2 0 }
        schedule := chs
        tick := s.tick + 1
        draw := d }) ∧
      (run.point = .cw7 (.write v) →
        step s = .next { s with
          ports := s.ports.set 5
            { P with hw := { P.hw with ctrl := if run.snap then v ||| TXIE else v &&& ~~~TXIE } }
          console := s.console.eraseIdx k
          schedule := chs
          tick := s.tick + 1
          draw := d })

/-- R225: a byte received between the read and the write of a Status `clear_bit` that read RX-pending as 0
leaves the byte in the RX FIFO with RX-pending clear (reference RX event; UART enabled; no dispatch enabled
even once RX-pending is set, so that ordinary code goes on, R186).
Ordinary steps are taken where no fault is set, no handler runs and no dispatch is enabled (R186,
notes/assumptions/23.md). -/
def Obligations.LostReceiveEvent : Prop :=
  ∀ (s : State) (p : Nat) (P : Port) (b : Byte) (ovr : OverrunDraw) (d d' : Word),
    s.ordinaryReady → s.ports[p]? = some P → P.mapped = true → P.ctl = none →
    s.config.rxEvent = .enqueue → s.config.pendGated = false → P.hw.uarten = true →
    P.hw.rxpend = false → P.hw.rxfifo.length < s.config.rxFifoDepth →
    (s.setPort p { P with hw := { P.hw with rxpend := true } }).dispatchPending = false →
    ∃ t u, exec (.clearBit p 0xC TXPEND) s = .next t ∧
      t.runChoices [⟨.rx p b ovr, d⟩, ⟨.op p, d'⟩] = .next u ∧
      ∃ Q, u.ports[p]? = some Q ∧ Q.ctl = none ∧ Q.hw.rxfifo = P.hw.rxfifo ++ [b] ∧
        Q.hw.rxpend = false ∧ Q.hw.txpend = false

/-! ## The TX/RX engine -/

/-- R117: a refill that finds `head = tail` at `wf0` performs exactly two bus accesses, `rd CTRL -> v` and
`wr CTRL, v & ~TXIE`, and changes no other state: step by step, for every caller and whatever other agents do
in between; and `write_tx_fifo` run with no other agent in between clears `TXIE` alone.
Ordinary steps are taken where no fault is set, no handler runs and no dispatch is enabled (R186,
notes/assumptions/23.md). -/
def Obligations.RefillOnEmptyRing : Prop :=
  (∀ (c : Config) (d v : Word) (P : Port),
    (P.ring.head = P.ring.tail → refillStep c d .wf0 P = .ok (P, some (.wfEmpty .read))) ∧
    (P.mapped = true →
      refillStep c d (.wfEmpty .read) P = .ok (P, some (.wfEmpty (.write P.hw.ctrl))) ∧
      refillStep c d (.wfEmpty (.write v)) P =
        .ok ({ P with hw := { P.hw with ctrl := v &&& ~~~TXIE } }, none))) ∧
  ∀ (s : State) (p : Nat) (P : Port) (d1 d2 : Word),
    s.ordinaryReady → s.ports[p]? = some P → P.mapped = true → P.ctl = none → P.life = .active →
    P.ring.head = P.ring.tail →
    ∃ t, exec (.writeTxFifo p) s = .next t ∧
      t = s.setPort p { P with ctl := some (.writeTxFifo (.wfEmpty .read)) } ∧
      t.runChoices (opChoices p [d1, d2]) = .next (State.after (opChoices p [d1, d2])
        (s.setPort p { P with hw := { P.hw with ctrl := P.hw.ctrl &&& ~~~TXIE } }))

/-- What an undisturbed refill of `k` bytes leaves of a port. -/
def refilled (c : Config) (k : Nat) (P : Port) : Port :=
  { P with
    hw := { P.hw with
      txfifo := P.hw.txfifo ++ P.ring.bytes c k
      ctrl := if k = P.ring.count c then P.hw.ctrl &&& ~~~TXIE else P.hw.ctrl ||| TXIE }
    ring := { P.ring with tail := (P.ring.tail + k) % c.xmitCap }
    txCount := P.txCount + BitVec.ofNat 32 k }

/-- R110, R118, R119, R131: with no other agent in between, `write_tx_fifo` and `start_tx` move the ring's
bytes to TX-Data in ring order, as many as the ring holds or the FIFO has room for, advance `tail` and
`tx_count` by as many, and end with `TXIE` clear when the ring emptied and set when the FIFO filled first.
Nothing else changes.
Ordinary steps are taken where no fault is set, no handler runs and no dispatch is enabled (R186,
notes/assumptions/23.md). -/
def Obligations.RefillMovesRingBytesInOrder : Prop :=
  ∀ (s : State) (p : Nat) (P : Port) (k : Nat) (ds : List Word),
    s.ordinaryReady → s.ports[p]? = some P → P.mapped = true → P.ctl = none → P.life = .active →
    s.config.wf = true → P.ring.shapeOk s.config → P.hw.txfifo.length ≤ s.config.txFifoDepth →
    k = min (P.ring.count s.config) (s.config.txFifoDepth - P.hw.txfifo.length) →
    ds.length = (if k = P.ring.count s.config then 5 * k + 2 else 5 * k + 3) →
    ∀ i ∈ [Instr.writeTxFifo p, .startTx p],
      ∃ t, exec i s = .next t ∧
        t.runChoices (opChoices p ds) =
          .next (State.after (opChoices p ds) (s.setPort p (refilled s.config k P)))

/-- R116: the write of `tail` by a refill that has not been overtaken lowers the unconsumed count by one. -/
def Obligations.RefillStepLowersTheCount : Prop :=
  ∀ (c : Config) (d : Word) (P Q : Port) (pt : Option RefillPoint),
    c.wf = true → P.ring.shapeOk c → P.ring.head ≠ P.ring.tail →
    refillStep c d (.wf5 P.ring.tail) P = .ok (Q, pt) →
    pt = some .wf0 ∧ Q.ring.count c + 1 = P.ring.count c ∧ Q.ring.head = P.ring.head ∧
      Q.ring.buf = P.ring.buf ∧ Q.txCount = P.txCount + 1 ∧ Q.hw = P.hw

/-- What an undisturbed drain leaves of a port. -/
def drained (P : Port) : Port :=
  { P with
    hw := { P.hw with rxfifo := [] }
    inq := ⟨P.inq.items ++ P.hw.rxfifo.map fun b => (b, .normal),
      P.inq.items.length + P.hw.rxfifo.length⟩
    rxCount := P.rxCount + BitVec.ofNat 32 P.hw.rxfifo.length }

/-- R111, R120: with no other agent in between, `rx_drain` delivers every byte of the RX FIFO to the input
queue in order, each as `NORMAL`, counts them, and publishes every item. Nothing else changes.
Ordinary steps are taken where no fault is set, no handler runs and no dispatch is enabled (R186,
notes/assumptions/23.md). -/
def Obligations.DrainDeliversEveryByteInOrder : Prop :=
  ∀ (s : State) (p : Nat) (P : Port) (ds : List Word),
    s.ordinaryReady → s.ports[p]? = some P → P.mapped = true → P.ctl = none → P.life = .active →
    ds.length = 2 * P.hw.rxfifo.length + 1 →
    ∃ t, exec (.rxDrain p) s = .next t ∧
      t.runChoices (opChoices p ds) =
        .next (State.after (opChoices p ds) (s.setPort p (drained P)))

/-- R112, R182, R184: the handler that dispatch has entered reads Status once, whatever is pending, and keeps
the value. With RX-pending alone it then drains the RX FIFO, clears both pending bits in one write and
returns; with neither bit it goes on to the clear. Nothing else changes. -/
def Obligations.HandlerServicesReceive : Prop :=
  ∀ (s : State) (p : Nat) (P : Port),
    s.fault = none → s.handler = some ⟨p, .ih0⟩ → s.ports[p]? = some P → P.mapped = true →
    ∃ t, exec (.irqHandler p) s = .next t ∧
      t = { s with handler := some ⟨p, .ih1 (P.hw.statusRead s.config s.draw) .wf0⟩ } ∧
      (∀ ds : List Word, P.hw.txpend = false → P.hw.rxpend = true →
        ds.length = 2 * P.hw.rxfifo.length + 4 →
        t.runChoices (handlerChoices ds) = .next (State.after (handlerChoices ds)
          { s.setPort p { drained P with
              hw := { P.hw with rxfifo := [], txpend := false, rxpend := false } } with
            handler := none })) ∧
      (∀ d1 d2 : Word, P.hw.txpend = false → P.hw.rxpend = false →
        t.runChoices (handlerChoices [d1, d2]) = .next (State.after (handlerChoices [d1, d2])
          { s with handler := none }))

/-- R112, R113, R186: the handler with both bits pending services TX before RX: when the refill it runs
returns, what it does next is the drain, and only after the drain the clear of both pending bits. -/
def Obligations.HandlerServicesTransmitFirst : Prop :=
  ∀ (c : Config) (d v : Word) (P Q : Port),
    (∀ r q, v.getLsbD 1 = true →
      (refillStep c d r P = .ok (Q, some q) → handlerStep c d (.ih1 v r) P = .ok (Q, some (.ih1 v q))) ∧
      (refillStep c d r P = .ok (Q, none) → handlerStep c d (.ih1 v r) P = .ok (Q, some (.ih2 v .rd0)))) ∧
    (∀ r, v.getLsbD 1 = false → handlerStep c d (.ih1 v r) P = handlerStep c d (.ih2 v .rd0) P) ∧
    (∀ r q, v.getLsbD 0 = true →
      (drainStep c d r P = .ok (Q, some q) → handlerStep c d (.ih2 v r) P = .ok (Q, some (.ih2 v q))) ∧
      (drainStep c d r P = .ok (Q, none) → handlerStep c d (.ih2 v r) P = .ok (Q, some (.ih3 .read)))) ∧
    (∀ r, v.getLsbD 0 = false → handlerStep c d (.ih2 v r) P = handlerStep c d (.ih3 .read) P)

/-- R112, R225, R226: the handler's last write clears both pending bits, whatever they were and whatever
Status it read, and returns; an event after its last FIFO read is erased. -/
def Obligations.HandlerClearsBothPendingBits : Prop :=
  ∀ (s : State) (p : Nat) (P : Port) (v : Word),
    s.handler = some ⟨p, .ih3 (.write v)⟩ → s.ports[p]? = some P → P.mapped = true →
    s.handlerAgent = .next
      { s.setPort p { P with hw := { P.hw with txpend := false, rxpend := false } } with
        handler := none }

/-! ## The lifecycle -/

/-- R125, R126, R128: `startup` from Inactive. When the platform answers `ok` (a draw of 0), the port is
registered, and with no other agent in between `RXIE` is set and then `UARTEN`, and it ends Active returning
`ok`; when it answers `err(c)`, no register is touched, the port stays Inactive and unregistered, and `c` is
returned. A dispatch may come first once the handler is registered (R186, R229): the later steps are stated
where none is enabled, even with `RXIE` set.
How a draw codes the answer is the model's (notes/assumptions/12.md).
Ordinary steps are taken where no fault is set, no handler runs and no dispatch is enabled (R186,
notes/assumptions/23.md). -/
def Obligations.StartupSucceedsOrFails : Prop :=
  ∀ (s : State) (p : Nat) (P : Port) (d1 d2 d3 d4 : Word),
    s.ordinaryReady → s.ports[p]? = some P → P.mapped = true → P.ctl = none → P.life = .inactive →
    (s.draw = 0 →
      ∃ t, exec (.startup p) s = .next t ∧
        t = s.setPort p { P with
          life := .starting, registered := true, ctl := some (.su1 .read) } ∧
        ((s.setPort p { P with
            hw := { P.hw with ctrl := P.hw.ctrl ||| RXIE }, registered := true }).dispatchPending = false →
          t.runChoices (opChoices p [d1, d2]) = .next (State.after (opChoices p [d1, d2])
            (s.setPort p { P with
              hw := { P.hw with ctrl := P.hw.ctrl ||| RXIE }
              life := .starting
              registered := true
              ctl := some (.su2 .read) })) ∧
          t.runChoices (opChoices p [d1, d2, d3, d4]) =
            .next (State.after (opChoices p [d1, d2, d3, d4])
              (s.setPort p { P with
                hw := { P.hw with ctrl := P.hw.ctrl ||| RXIE ||| UARTEN }
                life := .active
                registered := true
                ret := .ok })))) ∧
    (s.draw ≠ 0 →
      exec (.startup p) s = .next (s.setPort p { P with ret := .err s.draw }))

/-- R130, R139, R230: `shutdown` from Active clears `UARTEN` and then `RXIE`, unregisters the handler and ends
Inactive. `TXIE`, the pending bits and both FIFOs are as they were.
Ordinary steps are taken where no fault is set, no handler runs and no dispatch is enabled (R186,
notes/assumptions/23.md). -/
def Obligations.ShutdownEndsInactive : Prop :=
  ∀ (s : State) (p : Nat) (P : Port) (d1 d2 d3 d4 : Word),
    s.ordinaryReady → s.ports[p]? = some P → P.mapped = true → P.ctl = none → P.life = .active →
    ∃ t, exec (.shutdown p) s = .next t ∧
      t = s.setPort p { P with life := .stopping, ctl := some (.sd0 (.write P.hw.ctrl)) } ∧
      t.runChoices (opChoices p [d1]) = .next (State.after (opChoices p [d1])
        (s.setPort p { P with
          hw := { P.hw with ctrl := P.hw.ctrl &&& ~~~UARTEN }
          life := .stopping
          ctl := some (.sd1 .read) })) ∧
      t.runChoices (opChoices p [d1, d2, d3, d4]) =
        .next (State.after (opChoices p [d1, d2, d3, d4])
          (s.setPort p { P with
            hw := { P.hw with ctrl := P.hw.ctrl &&& ~~~UARTEN &&& ~~~RXIE }
            life := .inactive
            registered := false }))

/-- R67, R138, R190: the `life` preconditions: each operation outside the state that admits it faults with
`F5 STATE`, names itself, and changes nothing else. A direct refill or drain faults whatever else is in
progress on the port, Starting and Stopping included; a lifecycle operation faults where no other one is in
progress (where one is, R138 puts it outside the model). -/
def Obligations.LifePreconditionFaults : Prop :=
  ∀ (s : State) (p : Nat) (P : Port), s.ports[p]? = some P →
    (P.life ≠ .inactive → inLifecycleOp P.ctl = false →
      exec (.startup p) s = .next { s with fault := some (.state .startup) }) ∧
    (P.life ≠ .active →
      exec (.writeTxFifo p) s = .next { s with fault := some (.state .writeTxFifo) } ∧
      exec (.rxDrain p) s = .next { s with fault := some (.state .rxDrain) } ∧
      (inLifecycleOp P.ctl = false →
        exec (.shutdown p) s = .next { s with fault := some (.state .shutdown) } ∧
        exec (.startTx p) s = .next { s with fault := some (.state .startTx) } ∧
        exec (.stopTx p) s = .next { s with fault := some (.state .stopTx) } ∧
        exec (.stopRx p) s = .next { s with fault := some (.state .stopRx) } ∧
        exec (.txEmpty p) s = .next { s with fault := some (.state .txEmpty) }))

/-- R132, R228: `stop_tx`, with no other agent in between, clears `TXIE` whatever the TX FIFO holds and stands at
the wait `st1`; on an empty TX FIFO it then clears `TXPEND` and ends. It keeps everything else, the byte in the
shifter among it.
Ordinary steps are taken where no fault is set, no handler runs and no dispatch is enabled (R186,
notes/assumptions/23.md). -/
def Obligations.StopTxOnEmptyFifo : Prop :=
  ∀ (s : State) (p : Nat) (P : Port) (d1 d2 d3 d4 : Word),
    s.ordinaryReady → s.ports[p]? = some P → P.mapped = true → P.ctl = none → P.life = .active →
    ∃ t, exec (.stopTx p) s = .next t ∧
      t = s.setPort p { P with ctl := some (.st0 (.write P.hw.ctrl)) } ∧
      t.runChoices (opChoices p [d1]) = .next (State.after (opChoices p [d1])
        (s.setPort p { P with
          hw := { P.hw with ctrl := P.hw.ctrl &&& ~~~TXIE }, ctl := some .st1 })) ∧
      (P.hw.txfifo = [] →
        t.runChoices (opChoices p [d1, d2, d3, d4]) =
          .next (State.after (opChoices p [d1, d2, d3, d4])
            (s.setPort p { P with
              hw := { P.hw with ctrl := P.hw.ctrl &&& ~~~TXIE, txpend := false } })))

/-- R132, R227: at `st1` `stop_tx` waits: while the TX FIFO holds a byte, its step changes nothing but the
model's own fields, and it goes on to `st2` once the FIFO is empty.
Ordinary steps are taken where no fault is set, no handler runs and no dispatch is enabled (R186,
notes/assumptions/23.md). -/
def Obligations.StopTxWaitsForAnEmptyFifo : Prop :=
  ∀ (s : State) (p : Nat) (P : Port) (d : Word) (chs : List Choice),
    s.ordinaryReady → s.ports[p]? = some P → P.mapped = true → P.ctl = some .st1 →
    s.schedule = ⟨.op p, d⟩ :: chs →
    (P.hw.txfifo ≠ [] →
      step s = .next { s with schedule := chs, tick := s.tick + 1, draw := d }) ∧
    (P.hw.txfifo = [] →
      step s = .next { s with
        ports := s.ports.set p { P with ctl := some (.st2 .read) }
        schedule := chs
        tick := s.tick + 1
        draw := d })

/-- R133: `stop_rx`, with no other agent in between, clears `RXIE`, discards every byte of the RX FIFO and
clears `RXPEND`; the input queue and `rx_count` are unchanged.
Ordinary steps are taken where no fault is set, no handler runs and no dispatch is enabled (R186,
notes/assumptions/23.md). -/
def Obligations.StopRxDiscardsTheFifo : Prop :=
  ∀ (s : State) (p : Nat) (P : Port) (ds : List Word),
    s.ordinaryReady → s.ports[p]? = some P → P.mapped = true → P.ctl = none → P.life = .active →
    ds.length = 2 * P.hw.rxfifo.length + 4 →
    ∃ t, exec (.stopRx p) s = .next t ∧
      t.runChoices (opChoices p ds) = .next (State.after (opChoices p ds)
        (s.setPort p { P with
          hw := { P.hw with ctrl := P.hw.ctrl &&& ~~~RXIE, rxfifo := [], rxpend := false } }))

/-- R32, R134: `tx_empty` returns 1 when the TX FIFO is empty, whatever the shifter holds, and 0 otherwise.
Nothing changes but the value returned.
The value 1 is R8's, from general knowledge (notes/assumptions/17.md). -/
def Obligations.TxEmptyIgnoresTheShifter : Prop :=
  ∀ (s : State) (p : Nat) (P : Port),
    s.ports[p]? = some P → P.mapped = true → P.ctl = none → P.life = .active →
    exec (.txEmpty p) s =
      .next (s.setPort p { P with ret := .word (if P.hw.txfifo.length = 0 then 1 else 0) })

/-- R136: `set_mctrl` makes no access and changes no state, in any `life` state and for any operand. -/
def Obligations.SetMctrlChangesNothing : Prop :=
  ∀ (s : State) (p : Nat) (P : Port) (mctrl : Word), s.ports[p]? = some P →
    exec (.setMctrl p mctrl) s = .next s

/-- R137: `set_termios` makes no access and changes no state, in any `life` state and for any operands. -/
def Obligations.SetTermiosChangesNothing : Prop :=
  ∀ (s : State) (p : Nat) (P : Port) (new old : Word), s.ports[p]? = some P →
    exec (.setTermios p new old) s = .next s

/-- R127: under the invariant, a step changes a port's `life` only along the transitions of R127. A failed
`startup` passes Starting within its one step, so it leaves `life` as it was.
That is the model's step granularity (notes/assumptions/12.md). -/
def Obligations.LifeFollowsItsTransitions : Prop :=
  ∀ (s t : State) (p : Nat) (P Q : Port), s.Inv → step s = .next t →
    s.ports[p]? = some P → t.ports[p]? = some Q →
    Q.life = P.life ∨ (P.life = .inactive ∧ Q.life = .starting) ∨
      (P.life = .starting ∧ Q.life = .active) ∨ (P.life = .active ∧ Q.life = .stopping) ∨
      (P.life = .stopping ∧ Q.life = .inactive)

/-! ## The console -/

/-- R150, R151, R152, R155: `console_write` starts in any `life` state and beside any operation in progress: it
reads Control once, snapshots `TXIE`, and changes nothing but the list of console writes in progress.
Without a port of line 5 it is refused.
That it runs beside other console writes and does not read its port operand is the model's
(notes/assumptions/14.md). -/
def Obligations.ConsoleWriteStarts : Prop :=
  ∀ (s : State) (p : Nat) (str count : Addr),
    (∀ P, s.ports[5]? = some P → P.mapped = true →
      exec (.consoleWrite p str count) s = .next { s with
        console := s.console ++ [⟨str, count, P.hw.ctrl.getLsbD 19, .cw1 .read⟩] }) ∧
    (s.ports[5]? = none → exec (.consoleWrite p str count) s = .refused .consoleAbsent)

/-- The bytes of a console write, stored in host memory. -/
def consoleBytes (m : Memory) (str : Addr) (bs : List Byte) : Prop :=
  ∀ (k : Nat) (b : Byte), bs[k]? = some b → m.read (str + BitVec.ofNat 64 k).toNat = some b

/-- R150, R152: with no other agent in between and room in the FIFO for all of them, a console write clears
`TXIE` and then writes its bytes to TX-Data in order, exactly as given, and stands at the `TXBUSY` wait.
`tx_count`, the ring and `life` are unchanged. For a message of any length, step by step: before each byte
it waits while the TX FIFO is full (R227), then reads the byte, writes it (on a FIFO that another writer has
filled meanwhile it faults `F3`, R222) and goes on to the next; after the last it looks at `TXBUSY`.
The list of console writes and the unread port are the model's (notes/assumptions/14.md), and so are addresses
and counts modulo 2^64 (4.md).
Ordinary steps are taken where no fault is set, no handler runs and no dispatch is enabled (R186,
notes/assumptions/23.md). -/
def Obligations.ConsoleSendsItsBytesInOrder : Prop :=
  (∀ (s : State) (p : Nat) (P : Port) (str count : Addr) (bs : List Byte) (ds : List Word),
    s.ordinaryReady → s.ports[5]? = some P → P.mapped = true →
    bs.length = count.toNat → consoleBytes s.hostMem str bs →
    P.hw.txfifo.length + bs.length ≤ s.config.txFifoDepth → ds.length = 3 * bs.length + 2 →
    ∃ t, exec (.consoleWrite p str count) s = .next t ∧
      t.runChoices (consoleChoices s.console.length ds) =
        .next (State.after (consoleChoices s.console.length ds)
          { s.setPort 5 { P with hw := { P.hw with
              ctrl := P.hw.ctrl &&& ~~~TXIE, txfifo := P.hw.txfifo ++ bs } } with
            console := s.console ++
              [⟨str, count, P.hw.ctrl.getLsbD 19, .cw2 count⟩] })) ∧
  ∀ (s : State) (P : Port) (k : Nat) (str count i : Addr) (snap : Bool) (pt : ConsolePoint) (b : Byte)
      (d : Word) (chs : List Choice),
    s.ordinaryReady → s.ports[5]? = some P → P.mapped = true →
    s.console[k]? = some ⟨str, count, snap, pt⟩ → s.schedule = ⟨.console k, d⟩ :: chs →
    ((pt = .cw3 i ∨ (pt = .cw2 i ∧ i ≠ count)) →
      step s = .next { s with
        console := s.console.set k ⟨str, count, snap,
          if P.hw.txfifo.length = s.config.txFifoDepth then .cw3 i else .cw4 i⟩
        schedule := chs
        tick := s.tick + 1
        draw := d }) ∧
    (pt = .cw4 i → s.hostMem.read (str + i).toNat = some b →
      step s = .next { s with
        console := s.console.set k ⟨str, count, snap, .cw5 i b⟩
        schedule := chs
        tick := s.tick + 1
        draw := d }) ∧
    (pt = .cw5 i b → P.hw.txfifo.length ≠ s.config.txFifoDepth →
      step s = .next { s with
        ports := s.ports.set 5 { P with hw := { P.hw with txfifo := P.hw.txfifo ++ [b] } }
        console := s.console.set k ⟨str, count, snap, .cw2 (i + 1)⟩
        schedule := chs
        tick := s.tick + 1
        draw := d }) ∧
    (pt = .cw5 i b → P.hw.txfifo.length = s.config.txFifoDepth →
      step s = .next { s with
        fault := some (.txOverflow (b.zeroExtend 32))
        schedule := chs
        tick := s.tick + 1
        draw := d }) ∧
    (pt = .cw2 count →
      step s = .next { s with
        console := s.console.set k ⟨str, count, snap,
          if P.hw.txfifo = [] ∧ P.hw.shifter = none then .cw7 .read else .cw6⟩
        schedule := chs
        tick := s.tick + 1
        draw := d })

/-- R150: a console write whose bytes are all written waits while the transmitter is busy; once it is not, it
restores `TXIE` to the snapshot and ends. Nothing else changes.
Ordinary steps are taken where no fault is set, no handler runs and no dispatch is enabled (R186,
notes/assumptions/23.md). -/
def Obligations.ConsoleRestoresTheSnapshot : Prop :=
  ∀ (s : State) (P : Port) (k : Nat) (str count : Addr) (snap : Bool) (d1 d2 d3 : Word),
    s.ordinaryReady → s.ports[5]? = some P → P.mapped = true →
    s.console[k]? = some ⟨str, count, snap, .cw6⟩ →
    ((P.hw.txfifo ≠ [] ∨ P.hw.shifter ≠ none) →
      s.runChoices (consoleChoices k [d1]) =
        .next (State.after (consoleChoices k [d1]) s)) ∧
    (P.hw.txfifo = [] → P.hw.shifter = none →
      s.runChoices (consoleChoices k [d1, d2, d3]) =
        .next (State.after (consoleChoices k [d1, d2, d3])
          { s.setPort 5 { P with hw := { P.hw with
              ctrl := if snap then P.hw.ctrl ||| TXIE else P.hw.ctrl &&& ~~~TXIE } } with
            console := s.console.eraseIdx k }))

/-! ## The UART's own steps -/

/-- R161, R166: `tx_load` moves the oldest byte of the TX FIFO into the empty shifter when the gate allows it,
sets `TXPEND` as `TX_EVENT` and `PEND_GATED` say, and changes nothing else; otherwise it is not enabled.
That a step not enabled changes nothing when chosen is the model's (notes/assumptions/1.md). -/
def Obligations.TxLoadStep : Prop :=
  ∀ (s : State) (p : Nat) (P : Port) (d : Word) (chs : List Choice),
    s.fault = none → s.ports[p]? = some P → s.schedule = ⟨.txLoad p, d⟩ :: chs →
    ((P.hw.shifter ≠ none ∨ P.hw.txfifo = [] ∨
        (s.config.enGatesTx = true ∧ P.hw.ctrl.getLsbD 15 = false)) →
      step s = .next { s with schedule := chs, tick := s.tick + 1, draw := d }) ∧
    (∀ (b : Byte) (bs : List Byte), P.hw.shifter = none → P.hw.txfifo = b :: bs →
      (s.config.enGatesTx = false ∨ P.hw.ctrl.getLsbD 15 = true) →
      ∃ tx : Bool,
        step s = .next { s with
          ports := s.ports.set p { P with
            hw := { P.hw with shifter := some b, txfifo := bs, txpend := tx } }
          schedule := chs
          tick := s.tick + 1
          draw := d } ∧
        (tx = true ↔ P.hw.txpend = true ∨
          ((s.config.txEvent = .dequeue ∨ (s.config.txEvent = .fifoEmpty ∧ bs = [])) ∧
            (s.config.pendGated = false ∨ P.hw.ctrl.getLsbD 19 = true))))

/-- R162: `tx_done` appends the shifter's byte to `line_out` and empties the shifter when the gate allows it,
and changes nothing else; `TXBUSY` becomes 0 exactly when the TX FIFO is empty.
That a step not enabled changes nothing when chosen is the model's (notes/assumptions/1.md). -/
def Obligations.TxDoneStep : Prop :=
  ∀ (s : State) (p : Nat) (P : Port) (d : Word) (chs : List Choice),
    s.fault = none → s.ports[p]? = some P → s.schedule = ⟨.txDone p, d⟩ :: chs →
    ((P.hw.shifter = none ∨ (s.config.enGatesTx = true ∧ P.hw.ctrl.getLsbD 15 = false)) →
      step s = .next { s with schedule := chs, tick := s.tick + 1, draw := d }) ∧
    (∀ b : Byte, P.hw.shifter = some b →
      (s.config.enGatesTx = false ∨ P.hw.ctrl.getLsbD 15 = true) →
      ∃ Q : Port, Q = { P with lineOut := P.lineOut ++ [b], hw := { P.hw with shifter := none } } ∧
        step s = .next { s with
          ports := s.ports.set p Q
          schedule := chs
          tick := s.tick + 1
          draw := d } ∧
        (Q.hw.txbusy = false ↔ P.hw.txfifo = []))

/-- R164, R165, R167, R170: `rx b`. While UART-enable gates reception and is clear, the byte is lost; with room
it is appended and RX-pending set as `RX_EVENT` and `PEND_GATED` say; at a full FIFO `drop_new` changes
nothing and `any` leaves any bytes of the FIFO's depth and any RX-pending.
How a draw of another length is fitted is the model's (notes/assumptions/13.md). -/
def Obligations.ReceiveStep : Prop :=
  ∀ (s : State) (p : Nat) (P : Port) (b : Byte) (ovr : OverrunDraw) (d : Word) (chs : List Choice),
    s.fault = none → s.ports[p]? = some P → s.schedule = ⟨.rx p b ovr, d⟩ :: chs →
    ∃ (fifo : List Byte) (rx : Bool),
      step s = .next { s with
        ports := s.ports.set p { P with hw := { P.hw with rxfifo := fifo, rxpend := rx } }
        schedule := chs
        tick := s.tick + 1
        draw := d } ∧
      ((s.config.enGatesRx = true ∧ P.hw.ctrl.getLsbD 15 = false) →
        fifo = P.hw.rxfifo ∧ rx = P.hw.rxpend) ∧
      (¬(s.config.enGatesRx = true ∧ P.hw.ctrl.getLsbD 15 = false) →
        (P.hw.rxfifo.length < s.config.rxFifoDepth →
          fifo = P.hw.rxfifo ++ [b] ∧
            (rx = true ↔ P.hw.rxpend = true ∨ (s.config.rxEvent = .enqueue ∧
              (s.config.pendGated = false ∨ P.hw.ctrl.getLsbD 18 = true)))) ∧
        (s.config.rxFifoDepth ≤ P.hw.rxfifo.length →
          (s.config.rxOverrun = .dropNew → fifo = P.hw.rxfifo ∧ rx = P.hw.rxpend) ∧
          (s.config.rxOverrun = .any → fifo.length = s.config.rxFifoDepth ∧
            (ovr.fifo.length = s.config.rxFifoDepth → fifo = ovr.fifo) ∧ rx = ovr.rxpend)))

/-- R166, R167: `pend_tx` and `pend_rx` set their pending bit, and exist only for the `spontaneous` events.
That choosing one that does not exist changes nothing is the model's (notes/assumptions/1.md). -/
def Obligations.SpontaneousEvents : Prop :=
  ∀ (s : State) (p : Nat) (P : Port) (d : Word) (chs : List Choice),
    s.fault = none → s.ports[p]? = some P →
    (s.schedule = ⟨.pendTx p, d⟩ :: chs →
      step s = .next { s with
        ports := s.ports.set p { P with hw := { P.hw with
          txpend := P.hw.txpend || (s.config.txEvent = .spontaneous) } }
        schedule := chs
        tick := s.tick + 1
        draw := d }) ∧
    (s.schedule = ⟨.pendRx p, d⟩ :: chs →
      step s = .next { s with
        ports := s.ports.set p { P with hw := { P.hw with
          rxpend := P.hw.rxpend || (s.config.rxEvent = .spontaneous) } }
        schedule := chs
        tick := s.tick + 1
        draw := d })

/-- R163: no step of any agent loses, duplicates or reorders a byte accepted for transmission: what has been
sent, is in the shifter and is in the TX FIFO, taken together, only ever grows by one byte at its end. -/
def Obligations.TransmitStreamOnlyGrows : Prop :=
  ∀ (s t : State) (p : Nat) (P Q : Port), step s = .next t →
    s.ports[p]? = some P → t.ports[p]? = some Q →
    ∃ extra : List Byte, extra.length ≤ 1 ∧ Q.txStream = P.txStream ++ extra

/-- R163, R171: under the transmitter's fairness and with `EN_GATES_TX` false, the byte in the shifter is
eventually sent, next after what had been sent before.
Fairness is a premise here (notes/assumptions/16.md). -/
def Obligations.FairTransmitterSendsTheShifter : Prop :=
  ∀ (run : Nat → State) (n p : Nat) (P : Port) (b : Byte),
    IsRun run → TransmitterFair run → (run n).ports[p]? = some P → P.hw.shifter = some b →
    (run n).config.enGatesTx = false →
    ∃ m Q, n ≤ m ∧ (run m).ports[p]? = some Q ∧ Q.hw.shifter = none ∧ Q.lineOut = P.lineOut ++ [b]

/-- The port whose UART a chosen agent is, for the UART agents of R160. -/
def hardwarePort : Agent → Option Nat
  | .txLoad p | .txDone p | .rx p _ _ | .pendTx p | .pendRx p => some p
  | _ => none

/-- R169, R170: a step of a UART agent never changes Control and never clears TX-pending; and it never clears
RX-pending, unless it is an `rx` at a full RX FIFO under `RX_OVERRUN = any`, whose RX-pending is any value
(R165). -/
def Obligations.HardwareNeverClearsPending : Prop :=
  ∀ (s t : State) (p : Nat) (P Q : Port), s.fault = none → hardwarePort s.nextChoice.agent ≠ none →
    step s = .next t → s.ports[p]? = some P → t.ports[p]? = some Q →
    Q.hw.ctrl = P.hw.ctrl ∧ (P.hw.txpend = true → Q.hw.txpend = true) ∧
      (¬(s.config.rxOverrun = .any ∧ s.config.rxFifoDepth ≤ P.hw.rxfifo.length ∧
          ∃ b ovr, s.nextChoice.agent = .rx p b ovr) →
        P.hw.rxpend = true → Q.hw.rxpend = true)

/-- R173: one step of a UART agent of port `p` changes port `p` alone, and in it the hardware state and
`line_out` alone: every other port is unchanged, and so is everything outside the ports but the model's own
fields. -/
def Obligations.HardwareStepsAreLocal : Prop :=
  ∀ (s t : State) (p : Nat), s.fault = none → hardwarePort s.nextChoice.agent = some p →
    step s = .next t →
    ∃ ps : List Port,
      t = { s with
        ports := ps, schedule := s.schedule.tail, tick := s.tick + 1, draw := s.nextChoice.draw } ∧
      ps.length = s.ports.length ∧
      (∀ q, q ≠ p → ps[q]? = s.ports[q]?) ∧
      ∀ P Q, s.ports[p]? = some P → ps[p]? = some Q →
        Q = { P with hw := Q.hw, lineOut := Q.lineOut }

/-! ## Interrupts -/

/-- R168: the interrupt line is high exactly when the UART-enable gate is open and a pending bit meets its
enable. -/
def Obligations.InterruptLineEquation : Prop :=
  ∀ (c : Config) (hw : UartHw),
    hw.irqOut c = true ↔
      (c.enGatesIrq = false ∨ hw.ctrl.getLsbD 15 = true) ∧
        ((hw.ctrl.getLsbD 19 = true ∧ hw.txpend = true) ∨
          (hw.ctrl.getLsbD 18 = true ∧ hw.rxpend = true))

/-- R182: dispatch for a port. When no handler runs, the CPU does not mask, the port is registered and its line
is high, the step enters the handler at `ih0` and changes nothing else: not the saved control points, not
the UART, not Control, not Status. Otherwise it is not enabled.
Which port's dispatch is chosen is free (notes/assumptions/1.md). -/
def Obligations.DispatchEntersTheHandler : Prop :=
  ∀ (s : State) (p : Nat) (P : Port) (d : Word) (chs : List Choice),
    s.fault = none → s.ports[p]? = some P → s.schedule = ⟨.dispatch p, d⟩ :: chs →
    ((s.handler = none ∧ s.cpuMasked = false ∧ P.registered = true ∧ P.hw.irqOut s.config = true) →
      step s = .next { s with
        handler := some ⟨p, .ih0⟩, schedule := chs, tick := s.tick + 1, draw := d }) ∧
    (¬(s.handler = none ∧ s.cpuMasked = false ∧ P.registered = true ∧ P.hw.irqOut s.config = true) →
      step s = .next { s with schedule := chs, tick := s.tick + 1, draw := d })

/-- The agents that belong to the ordinary context (R180, R181, R188). -/
def ordinaryAgent : Agent → Bool
  | .call | .op _ | .console _ | .hostPut _ _ | .hostPublish _ | .hostTake _ => true
  | .hostStore _ _ | .setMasked _ => true
  | _ => false

/-- The agents that have no step while a handler runs: the ordinary context, and dispatch. -/
def waitsForHandler : Agent → Bool
  | .dispatch _ => true
  | a => ordinaryAgent a

/-- R183, R186: while a handler runs, the ordinary context and dispatch have no step; and while a dispatch is
enabled, the ordinary context has none, since the handler wins. Choosing one that has no step changes nothing
but the model's own fields.
That last is the model's (notes/assumptions/1.md), and so are which agents are the ordinary context's (15.md)
and the reading of R186 beside R180 (23.md). -/
def Obligations.HandlerRunsToCompletion : Prop :=
  ∀ s : State, s.fault = none →
    ((s.handler ≠ none ∧ waitsForHandler s.nextChoice.agent = true) ∨
      (s.dispatchPending = true ∧ ordinaryAgent s.nextChoice.agent = true)) →
    step s = .next { s with
      schedule := s.schedule.tail, tick := s.tick + 1, draw := s.nextChoice.draw }

/-- R139, R182: the handler of a port that is not registered is never entered, whatever the line. -/
def Obligations.UnregisteredPortIsNeverDispatched : Prop :=
  ∀ (s t : State) (p : Nat) (P : Port), s.handler = none → step s = .next t →
    s.ports[p]? = some P → P.registered = false → t.handler ≠ some ⟨p, .ih0⟩

/-! ## The host -/

/-- R43, R61, R188: `host_put b` while the ring has room: `hp0` stores the byte at `buf[head]` and moves no
index; `hp1` then publishes it by advancing `head` modulo the capacity, and the count grows by one and
stays below the capacity. The tail and every other byte of the ring are not touched, and nothing else changes.
The two steps as choices of the producer are the model's (notes/assumptions/15.md).
Ordinary steps are taken where no fault is set, no handler runs and no dispatch is enabled (R186,
notes/assumptions/23.md). -/
def Obligations.HostPutStoresThenPublishes : Prop :=
  ∀ (s : State) (p : Nat) (P : Port) (b : Byte) (d1 d2 : Word),
    s.ordinaryReady → s.ports[p]? = some P → s.config.wf = true → P.ring.shapeOk s.config →
    P.producing = false → P.ring.count s.config < s.config.xmitCap - 1 →
    ∃ r : Ring,
      r = ⟨P.ring.buf.set P.ring.head b, (P.ring.head + 1) % s.config.xmitCap, P.ring.tail⟩ ∧
      s.runChoices [⟨.hostPut p b, d1⟩] = .next (State.after [⟨.hostPut p b, d1⟩]
        (s.setPort p { P with
          ring := { P.ring with buf := P.ring.buf.set P.ring.head b }, producing := true })) ∧
      s.runChoices [⟨.hostPut p b, d1⟩, ⟨.hostPublish p, d2⟩] =
        .next (State.after [⟨.hostPut p b, d1⟩, ⟨.hostPublish p, d2⟩]
          (s.setPort p { P with ring := r })) ∧
      r.buf[P.ring.head]? = some b ∧ r.count s.config = P.ring.count s.config + 1 ∧
      r.count s.config < s.config.xmitCap

/-- R53: host memory. Storing a byte makes it the byte read at its address, leaves every other address as it
was, keeps the canonical form, and touches no port.
The step and the form of host memory are the model's (notes/assumptions/6.md, 15.md).
Ordinary steps are taken where no fault is set, no handler runs and no dispatch is enabled (R186,
notes/assumptions/23.md). -/
def Obligations.HostStoreWritesOneByte : Prop :=
  ∀ (s : State) (a : Addr) (b : Byte) (d : Word),
    s.ordinaryReady → Memory.wf s.hostMem →
    ∃ m : Memory,
      s.runChoices [⟨.hostStore a b, d⟩] =
        .next (State.after [⟨.hostStore a b, d⟩] { s with hostMem := m }) ∧
      m.read a.toNat = some b ∧ (∀ a' : Nat, a' ≠ a.toNat → m.read a' = s.hostMem.read a') ∧
      Memory.wf m

/-! ## Frames -/

/-- The agents that take the core's own steps: the caller, and whatever continues an operation. -/
def coreAgent : Agent → Bool
  | .call | .op _ | .console _ | .handler => true
  | _ => false

/-- The port that a later step of an operation, of a console write or of the handler belongs to. -/
def continuedPort (s : State) : Agent → Option Nat
  | .op p => some p
  | .console _ => some CONSOLE_LINE
  | .handler => s.handler.map HandlerRun.port
  | _ => none

/-- The frame of the core (R43, R46, R53, R61).
The first step of every action, which is what `exec` is (notes/assumptions/12.md): whichever action gives a
next state, the parameters, the CPU's mask, host memory (every byte reads as before), the caller's bytes and
the model's schedule are unchanged; no port but the action's (the console's, for `console_write`) changes; and
in that port the line, the window, the bytes sent, the ring and the producer's state are unchanged.
Every later step as well, of an operation, the handler or a console write: none changes the parameters, the
mask or host memory, none changes another port than its own, and in its own none changes the line, the window,
the bytes sent, the ring's contents and head, the producer's state or the shifter; a console write's step
changes nothing of its port but the UART. -/
def Obligations.ActionFrame : Prop :=
  (∀ (i : Instr) (s t : State), exec i s = .next t →
    t.config = s.config ∧ t.cpuMasked = s.cpuMasked ∧
      (∀ a : Nat, t.hostMem.read a = s.hostMem.read a) ∧ t.calls = s.calls ∧
      t.schedule = s.schedule ∧ t.tick = s.tick ∧ t.draw = s.draw ∧
      (i.opcode ≠ .op .irqHandler → t.handler = s.handler) ∧
      (i.opcode ≠ .op .consoleWrite → t.console = s.console) ∧
      ∀ q : Nat,
        (q ≠ (if i.opcode = .op .consoleWrite then 5 else i.port) → t.ports[q]? = s.ports[q]?) ∧
        ∀ P Q : Port, s.ports[q]? = some P → t.ports[q]? = some Q →
          Q.line = P.line ∧ Q.base = P.base ∧ Q.irq = P.irq ∧ Q.mapped = P.mapped ∧
            Q.lineOut = P.lineOut ∧ Q.producing = P.producing ∧ Q.ring = P.ring ∧
            Q.hw.shifter = P.hw.shifter) ∧
  ∀ s t : State, coreAgent s.nextChoice.agent = true → step s = .next t →
    t.config = s.config ∧ t.cpuMasked = s.cpuMasked ∧
      (∀ a : Nat, t.hostMem.read a = s.hostMem.read a) ∧
      (s.nextChoice.agent ≠ .call → t.calls = s.calls) ∧
      (s.nextChoice.agent ≠ .handler → t.handler = s.handler) ∧
      ∀ (q : Nat) (P Q : Port), s.ports[q]? = some P → t.ports[q]? = some Q →
        Q.line = P.line ∧ Q.base = P.base ∧ Q.irq = P.irq ∧ Q.mapped = P.mapped ∧
          Q.lineOut = P.lineOut ∧ Q.producing = P.producing ∧ Q.ring.buf = P.ring.buf ∧
          Q.ring.head = P.ring.head ∧ Q.hw.shifter = P.hw.shifter ∧
          (∀ k, s.nextChoice.agent = .console k → Q = { P with hw := Q.hw }) ∧
          ∀ p, continuedPort s s.nextChoice.agent = some p → q ≠ p → Q = P

/-- The actions that leave the UART of their port alone but for the accesses R56 gives an effect: only
`rd RXDATA` takes a byte from the RX FIFO, only `wr TXDATA` adds one to the TX FIFO, only `wr CTRL`
writes Control and only `wr STATUS` writes a pending bit, in the one step of an action that `exec` is.
An operation's writes come in its later steps; that `exec` is its first step alone is the model's
(notes/assumptions/12.md). -/
def Obligations.OnlyItsAccessTouchesTheUart : Prop :=
  ∀ (i : Instr) (s t : State) (p : Nat) (P Q : Port), exec i s = .next t →
    s.ports[p]? = some P → t.ports[p]? = some Q →
    (i.opcode ≠ .rd .rxdata → Q.hw.rxfifo = P.hw.rxfifo) ∧
      (i.opcode ≠ .wr .txdata → Q.hw.txfifo = P.hw.txfifo) ∧
      (i.opcode ≠ .wr .ctrl → Q.hw.ctrl = P.hw.ctrl) ∧
      (i.opcode ≠ .wr .status → Q.hw.txpend = P.hw.txpend ∧ Q.hw.rxpend = P.hw.rxpend)
end

