-- ==== Sys2Proof/Laws/Access.lean ====
section
/-!
SUPPORT. The register accesses: what an access at a register's own offset does, and what each flag test reads
from Status and Control.
-/

namespace Sys2Proof.Machine

/-- The address of a register decodes to that register (R51, R65). -/
@[simp] theorem decodeWindow_regOffset (base : Addr) (r : Reg) :
    decodeWindow base (base + regOffset r) 32 = .ok r := by
  have h : base + regOffset r - base = regOffset r := by
    rw [BitVec.add_comm]; exact BitVec.add_sub_cancel _ _
  have hr : WINDOW_SIZE ≤ regOffset r ↔ False := by cases r <;> decide
  have ha : (regOffset r).extractLsb' 0 2 = 0b00#2 := by cases r <;> decide
  have hi : Reg.ofIndex ((regOffset r).extractLsb' 2 2) = r := by cases r <;> decide
  simp [decodeWindow, h, hr, ha, hi]

/-- A register read of a mapped port (R90). -/
theorem Port.regRead_mapped {P : Port} (c : Config) (d : Word) (r : Reg) (h : P.mapped = true) :
    P.regRead c d r =
      .ok ((P.hw.readReg c d r).1, { P with hw := (P.hw.readReg c d r).2 }) := by
  simp [Port.regRead, Port.busRead, h]

/-- A register write of a mapped port (R91). -/
theorem Port.regWrite_mapped {P : Port} (c : Config) (r : Reg) (v : Word) (h : P.mapped = true) :
    P.regWrite c r v =
      match P.hw.writeReg c r v with
      | .error f => .error (.fault f)
      | .ok hw => .ok { P with hw := hw } := by
  cases hw : P.hw.writeReg c r v <;> simp [Port.regWrite, Port.busWrite, h, decodeWindow_regOffset, hw]

/-- No access while the window is not mapped (R66). -/
theorem Port.regRead_unmapped {P : Port} (c : Config) (d : Word) (r : Reg) (h : P.mapped = false) :
    P.regRead c d r = .error (.refusal .windowUnmapped) := by
  simp [Port.regRead, Port.busRead, h]

theorem Port.regWrite_unmapped {P : Port} (c : Config) (r : Reg) (v : Word) (h : P.mapped = false) :
    P.regWrite c r v = .error (.refusal .windowUnmapped) := by
  simp [Port.regWrite, Port.busWrite, h]

/-! ## Reads and writes, register by register -/

@[simp] theorem Port.regRead_ctrl {P : Port} (c : Config) (d : Word) (h : P.mapped = true) :
    P.regRead c d .ctrl = .ok (P.hw.ctrl, P) := by
  simp [Port.regRead_mapped c d _ h, UartHw.readReg]

@[simp] theorem Port.regRead_status {P : Port} (c : Config) (d : Word) (h : P.mapped = true) :
    P.regRead c d .status = .ok (P.hw.statusRead c d, P) := by
  simp [Port.regRead_mapped c d _ h, UartHw.readReg]

@[simp] theorem Port.regRead_txdata {P : Port} (c : Config) (d : Word) (h : P.mapped = true) :
    P.regRead c d .txdata = .ok (d, P) := by
  simp [Port.regRead_mapped c d _ h, UartHw.readReg]

theorem Port.regRead_rxdata_empty {P : Port} (c : Config) (d : Word) (h : P.mapped = true)
    (hr : P.hw.rxfifo = []) : P.regRead c d .rxdata = .ok (d, P) := by
  simp [Port.regRead_mapped c d _ h, UartHw.readReg, UartHw.readRx, hr]

theorem Port.regRead_rxdata_cons {P : Port} (c : Config) (d : Word) (h : P.mapped = true)
    {b : Byte} {bs : List Byte} (hr : P.hw.rxfifo = b :: bs) :
    P.regRead c d .rxdata = .ok (rxValue d b, { P with hw := { P.hw with rxfifo := bs } }) := by
  simp [Port.regRead_mapped c d _ h, UartHw.readReg, UartHw.readRx, hr]

@[simp] theorem Port.regWrite_ctrl {P : Port} (c : Config) (v : Word) (h : P.mapped = true) :
    P.regWrite c .ctrl v = .ok { P with hw := { P.hw with ctrl := v } } := by
  simp [Port.regWrite_mapped c _ v h, UartHw.writeReg, UartHw.writeCtrl]

@[simp] theorem Port.regWrite_rxdata {P : Port} (c : Config) (v : Word) (h : P.mapped = true) :
    P.regWrite c .rxdata v = .ok P := by
  simp [Port.regWrite_mapped c _ v h, UartHw.writeReg]

@[simp] theorem Port.regWrite_status {P : Port} (c : Config) (v : Word) (h : P.mapped = true) :
    P.regWrite c .status v = .ok { P with hw := P.hw.writeStatus c v } := by
  simp [Port.regWrite_mapped c _ v h, UartHw.writeReg]

theorem Port.regWrite_txdata_room {P : Port} (c : Config) (v : Word) (h : P.mapped = true)
    (hf : P.hw.txfifo.length ≠ c.txFifoDepth) :
    P.regWrite c .txdata v =
      .ok { P with hw := { P.hw with txfifo := P.hw.txfifo ++ [lowByte v] } } := by
  simp [Port.regWrite_mapped c _ v h, UartHw.writeReg, UartHw.writeTx, UartHw.txff, hf]

theorem Port.regWrite_txdata_full {P : Port} (c : Config) (v : Word) (h : P.mapped = true)
    (hf : P.hw.txfifo.length = c.txFifoDepth) :
    P.regWrite c .txdata v = .error (.fault (.txOverflow v)) := by
  simp [Port.regWrite_mapped c _ v h, UartHw.writeReg, UartHw.writeTx, UartHw.txff, hf]

/-! ## Flag tests -/

/-- A test of Status with a mask of named bits does not see the draw (R38). -/
theorem anyBit_statusRead (c : Config) (d : Word) (hw : UartHw) (m : Word) (h : m &&& STAT_RSVD = 0) :
    anyBit (hw.statusRead c d) m = anyBit (hw.statusNamed c) m := by
  have h' : d &&& STAT_RSVD &&& m = 0 := by
    rw [BitVec.and_assoc, BitVec.and_comm STAT_RSVD m, h]; simp
  rw [anyBit, anyBit, UartHw.statusRead, BitVec.and_comm, BitVec.and_or_distrib_left,
    BitVec.and_comm m (d &&& STAT_RSVD), h', BitVec.and_comm m]
  simp

@[simp] theorem anyBit_txbusy (c : Config) (d : Word) (hw : UartHw) :
    anyBit (hw.statusRead c d) TXBUSY = hw.txbusy := by
  rw [anyBit_statusRead _ _ _ _ (by decide), UartHw.statusNamed]
  generalize hw.txbusy = b1, hw.txfe = b2, hw.rxff c = b3, hw.txff c = b4, hw.rxfe = b5,
    hw.txpend = b6, hw.rxpend = b7
  revert b1 b2 b3 b4 b5 b6 b7; decide

@[simp] theorem anyBit_txfe (c : Config) (d : Word) (hw : UartHw) :
    anyBit (hw.statusRead c d) TXFE = hw.txfe := by
  rw [anyBit_statusRead _ _ _ _ (by decide), UartHw.statusNamed]
  generalize hw.txbusy = b1, hw.txfe = b2, hw.rxff c = b3, hw.txff c = b4, hw.rxfe = b5,
    hw.txpend = b6, hw.rxpend = b7
  revert b1 b2 b3 b4 b5 b6 b7; decide

@[simp] theorem anyBit_txff (c : Config) (d : Word) (hw : UartHw) :
    anyBit (hw.statusRead c d) TXFF = hw.txff c := by
  rw [anyBit_statusRead _ _ _ _ (by decide), UartHw.statusNamed]
  generalize hw.txbusy = b1, hw.txfe = b2, hw.rxff c = b3, hw.txff c = b4, hw.rxfe = b5,
    hw.txpend = b6, hw.rxpend = b7
  revert b1 b2 b3 b4 b5 b6 b7; decide

@[simp] theorem anyBit_rxfe (c : Config) (d : Word) (hw : UartHw) :
    anyBit (hw.statusRead c d) RXFE = hw.rxfe := by
  rw [anyBit_statusRead _ _ _ _ (by decide), UartHw.statusNamed]
  generalize hw.txbusy = b1, hw.txfe = b2, hw.rxff c = b3, hw.txff c = b4, hw.rxfe = b5,
    hw.txpend = b6, hw.rxpend = b7
  revert b1 b2 b3 b4 b5 b6 b7; decide

/-- A bit of a Status read, in terms of the named bits and the draw. -/
theorem statusRead_getLsbD (c : Config) (d : Word) (hw : UartHw) (i : Nat) :
    (hw.statusRead c d).getLsbD i =
      ((hw.statusNamed c).getLsbD i || (d.getLsbD i && STAT_RSVD.getLsbD i)) := by
  simp [UartHw.statusRead]

/-- Status bit 1 is `TXPEND` (R74). -/
theorem statusRead_txpend (c : Config) (d : Word) (hw : UartHw) :
    (hw.statusRead c d).getLsbD 1 = hw.txpend := by
  rw [statusRead_getLsbD, show STAT_RSVD.getLsbD 1 = false by decide, UartHw.statusNamed]
  generalize hw.txbusy = b1, hw.txfe = b2, hw.rxff c = b3, hw.txff c = b4, hw.rxfe = b5,
    hw.txpend = b6, hw.rxpend = b7
  rw [Bool.and_false, Bool.or_false]
  revert b1 b2 b3 b4 b5 b6 b7; decide

/-- Status bit 0 is `RXPEND` (R74). -/
theorem statusRead_rxpend (c : Config) (d : Word) (hw : UartHw) :
    (hw.statusRead c d).getLsbD 0 = hw.rxpend := by
  rw [statusRead_getLsbD, show STAT_RSVD.getLsbD 0 = false by decide, UartHw.statusNamed]
  generalize hw.txbusy = b1, hw.txfe = b2, hw.rxff c = b3, hw.txff c = b4, hw.rxfe = b5,
    hw.txpend = b6, hw.rxpend = b7
  rw [Bool.and_false, Bool.or_false]
  revert b1 b2 b3 b4 b5 b6 b7; decide

/-- The two pending bits of a Status read, as `simp` writes a bit at a literal place. -/
@[simp] theorem statusRead_getElem_one (c : Config) (d : Word) (hw : UartHw) :
    (hw.statusRead c d)[1] = hw.txpend :=
  (BitVec.getLsbD_eq_getElem _).symm.trans (statusRead_txpend c d hw)

@[simp] theorem statusRead_getElem_zero (c : Config) (d : Word) (hw : UartHw) :
    (hw.statusRead c d)[0] = hw.rxpend :=
  (BitVec.getLsbD_eq_getElem _).symm.trans (statusRead_rxpend c d hw)

/-- A test of `TXIE` on Control (R73, R98). -/
@[simp] theorem anyBit_TXIE (v : Word) : anyBit v TXIE = v.getLsbD 19 := by
  have h : TXIE = BitVec.twoPow 32 19 := by decide
  unfold anyBit
  rw [h, BitVec.and_twoPow]
  cases v.getLsbD 19 <;> decide

/-- The byte a data register write takes from a zero-extended byte (R77). -/
@[simp] theorem lowByte_zext (b : Byte) : lowByte (zext b) = b := by
  apply BitVec.eq_of_getLsbD_eq
  intro i hi
  have : i < 32 := by omega
  simp [lowByte, zext, hi, this]

/-- The byte a drain takes from a read of RX-Data (R77, R92). -/
@[simp] theorem lowByte_rxValue (d : Word) (b : Byte) : lowByte (rxValue d b) = b := by
  apply BitVec.eq_of_getLsbD_eq
  intro i hi
  have h : (rxValue d b).getLsbD i = b.getLsbD i := by
    rw [rxValue, BitVec.getLsbD_append]
    simp [hi]
  simp [lowByte, hi, h]

/-! ## Read-modify-writes and tests of a mapped port -/

section Mapped
variable {P : Port} (c : Config) (d : Word)

@[simp] theorem Port.setBit_ctrl_read (m : Word) (h : P.mapped = true) :
    P.setBit c d .ctrl m .read = .ok (P, some (.write P.hw.ctrl)) := by
  simp [Port.setBit, Port.rmw, h]

@[simp] theorem Port.setBit_ctrl_write (m v : Word) (h : P.mapped = true) :
    P.setBit c d .ctrl m (.write v) = .ok ({ P with hw := { P.hw with ctrl := v ||| m } }, none) := by
  simp [Port.setBit, Port.rmw, h]

@[simp] theorem Port.clearBit_ctrl_read (m : Word) (h : P.mapped = true) :
    P.clearBit c d .ctrl m .read = .ok (P, some (.write P.hw.ctrl)) := by
  simp [Port.clearBit, Port.rmw, h]

@[simp] theorem Port.clearBit_ctrl_write (m v : Word) (h : P.mapped = true) :
    P.clearBit c d .ctrl m (.write v) =
      .ok ({ P with hw := { P.hw with ctrl := v &&& ~~~m } }, none) := by
  simp [Port.clearBit, Port.rmw, h]

@[simp] theorem Port.setBit_status_read (m : Word) (h : P.mapped = true) :
    P.setBit c d .status m .read = .ok (P, some (.write (P.hw.statusRead c d))) := by
  simp [Port.setBit, Port.rmw, h]

@[simp] theorem Port.setBit_status_write (m v : Word) (h : P.mapped = true) :
    P.setBit c d .status m (.write v) =
      .ok ({ P with hw := P.hw.writeStatus c (v ||| m) }, none) := by
  simp [Port.setBit, Port.rmw, h]

@[simp] theorem Port.clearBit_status_read (m : Word) (h : P.mapped = true) :
    P.clearBit c d .status m .read = .ok (P, some (.write (P.hw.statusRead c d))) := by
  simp [Port.clearBit, Port.rmw, h]

@[simp] theorem Port.clearBit_status_write (m v : Word) (h : P.mapped = true) :
    P.clearBit c d .status m (.write v) =
      .ok ({ P with hw := P.hw.writeStatus c (v &&& ~~~m) }, none) := by
  simp [Port.clearBit, Port.rmw, h]

@[simp] theorem Port.testBit_status (m : Word) (h : P.mapped = true) :
    P.testBit c d .status m = .ok (anyBit (P.hw.statusRead c d) m, P) := by
  simp [Port.testBit, h]

@[simp] theorem Port.testBit_ctrl (m : Word) (h : P.mapped = true) :
    P.testBit c d .ctrl m = .ok (anyBit P.hw.ctrl m, P) := by
  simp [Port.testBit, h]

end Mapped

/-- Writing back Status with both pending bits cleared clears both, whatever `PEND_W1` is (R95, R112). -/
@[simp] theorem UartHw.writeStatus_pendBoth (c : Config) (v : Word) (hw : UartHw) :
    hw.writeStatus c (v &&& ~~~PEND_BOTH) = { hw with txpend := false, rxpend := false } := by
  have h1 : PEND_BOTH.getLsbD 1 = true := by decide
  have h0 : PEND_BOTH.getLsbD 0 = true := by decide
  simp [UartHw.writeStatus, pendAfterWrite, h1, h0]

end Sys2Proof.Machine
end

