-- ==== Sys2Proof/Laws/Decode.lean ====
section
/-!
SUPPORT. The pieces of the encoding, each read back by its reader.
-/

namespace Sys2Proof

/-- A 32-bit value is read back from its bytes. -/
@[simp] theorem takeWord_wordBytes (v : Word) (bs : List Byte) :
    takeWord (wordBytes v ++ bs) = some (v, bs) := by
  have h : v.extractLsb' 24 8 ++ v.extractLsb' 16 8 ++ v.extractLsb' 8 8 ++ v.extractLsb' 0 8 = v := by
    apply BitVec.eq_of_getLsbD_eq
    intro i hi
    simp only [BitVec.getLsbD_append, BitVec.getLsbD_extractLsb']
    by_cases h1 : i < 8
    · simp [h1]
    · by_cases h2 : i - 8 < 8
      · simp [h1, h2, show 8 + (i - 8) = i by omega]
      · by_cases h3 : i - 8 - 8 < 8
        · simp [h1, h2, h3, show 16 + (i - 8 - 8) = i by omega]
        · simp [h1, h2, h3, show 24 + (i - 8 - 8 - 8) = i by omega,
            show i - 8 - 8 - 8 < 8 by omega]
  simp only [wordBytes, List.cons_append, List.nil_append, takeWord, Option.some.injEq,
    Prod.mk.injEq, and_true]
  exact h

/-- An address or count is read back from its bytes. -/
@[simp] theorem takeAddr_addrBytes (a : Addr) (bs : List Byte) :
    takeAddr (addrBytes a ++ bs) = some (a, bs) := by
  have h : a.extractLsb' 32 32 ++ a.extractLsb' 0 32 = a := by
    apply BitVec.eq_of_getLsbD_eq
    intro i hi
    simp only [BitVec.getLsbD_append, BitVec.getLsbD_extractLsb']
    by_cases h1 : i < 32
    · simp [h1]
    · simp [h1, show 32 + (i - 32) = i by omega, show i - 32 < 32 by omega]
  simp only [takeAddr, addrBytes, List.append_assoc, takeWord_wordBytes, Option.some.injEq,
    Prod.mk.injEq, and_true]
  exact h

/-- The data operand of a bus write is read back. -/
theorem takeWord1_wordBytes (mk : Word → Instr) (v : Word) (bs : List Byte) :
    takeWord1 mk (wordBytes v ++ bs) = some (mk v, bs) := by
  simp [takeWord1]

/-- The operands of a bit operation are read back. -/
theorem takeRegMask_bytes (mk : Byte → Word → Instr) (r : Byte) (m : Word) (bs : List Byte) :
    takeRegMask mk (r :: wordBytes m ++ bs) = some (mk r m, bs) := by
  simp [takeRegMask, takeByte, takeWord1]

/-- The operands of `set_termios` are read back. -/
theorem takeWord2_wordBytes (mk : Word → Word → Instr) (v w : Word) (bs : List Byte) :
    takeWord2 mk (wordBytes v ++ wordBytes w ++ bs) = some (mk v w, bs) := by
  simp [takeWord2, takeWord1]

/-- The operands of `console_write` are read back. -/
theorem takeAddr2_addrBytes (mk : Addr → Addr → Instr) (a n : Addr) (bs : List Byte) :
    takeAddr2 mk (addrBytes a ++ addrBytes n ++ bs) = some (mk a n, bs) := by
  simp [takeAddr2]

/-- Every code decodes to what it selects. -/
@[simp] theorem decodeCode_code (o : Opcode) : decodeCode o.code = .ok o := by
  cases o with
  | rd r => cases r <;> decide
  | wr r => cases r <;> decide
  | op o => cases o <;> decide

/-- The port byte of a well-formed action is its port. -/
theorem toNat_ofNat_port {p : Nat} (h : p ≤ lineMax) : (BitVec.ofNat 8 p).toNat = p := by
  unfold lineMax at h
  simp
  omega

end Sys2Proof
end

