-- ==== Sys2Proof/Laws/Operations.lean ====
section
/-!
SUPPORT. Everything one step of an operation, of the handler or of a console write can do to its port, said
once: a step makes at most one access and moves at most one byte.
-/

namespace Sys2Proof.Machine

/-- What any step of an operation keeps of its port, and the few ways it may change the rest. -/
structure Port.StepOf (c : Config) (P Q : Port) : Prop where
  line : Q.line = P.line
  base : Q.base = P.base
  irq : Q.irq = P.irq
  mapped : Q.mapped = P.mapped
  lineOut : Q.lineOut = P.lineOut
  producing : Q.producing = P.producing
  buf : Q.ring.buf = P.ring.buf
  head : Q.ring.head = P.ring.head
  shifter : Q.hw.shifter = P.hw.shifter
  txfifo : Q.hw.txfifo = P.hw.txfifo ∨
    (P.hw.txfifo.length ≠ c.txFifoDepth ∧ ∃ b, Q.hw.txfifo = P.hw.txfifo ++ [b])
  rxfifo : Q.hw.rxfifo = P.hw.rxfifo ∨ Q.hw.rxfifo = P.hw.rxfifo.tail
  tail : Q.ring.tail = P.ring.tail ∨ ∃ t, Q.ring.tail = ringNext c t
  inq : Q.inq = P.inq ∨ (∃ b, Q.inq = P.inq.push b) ∨ Q.inq = P.inq.flush

/-- A step that keeps `life`, the registration and the control point as well. -/
structure Port.InnerStep (c : Config) (P Q : Port) : Prop extends Port.StepOf c P Q where
  life : Q.life = P.life
  registered : Q.registered = P.registered
  ctl : Q.ctl = P.ctl
  ret : Q.ret = P.ret

theorem Port.InnerStep.refl (c : Config) (P : Port) : Port.InnerStep c P P :=
  ⟨⟨rfl, rfl, rfl, rfl, rfl, rfl, rfl, rfl, rfl, .inl rfl, .inl rfl, .inl rfl, .inl rfl⟩,
    rfl, rfl, rfl, rfl⟩

section Cases
variable {c : Config} {d : Word} {P Q : Port}

/-- A read returns only on a mapped port; it changes the port's UART alone. -/
theorem Port.regRead_cases {r : Reg} {v : Word} (h : P.regRead c d r = .ok (v, Q)) :
    P.mapped = true ∧ v = (P.hw.readReg c d r).1 ∧ Q = { P with hw := (P.hw.readReg c d r).2 } := by
  by_cases hm : P.mapped = true
  · rw [Port.regRead_mapped c d r hm] at h
    cases h
    exact ⟨hm, rfl, rfl⟩
  · simp [Port.regRead_unmapped c d r (by simpa using hm)] at h

/-- A write returns only on a mapped port; it changes the port's UART alone. -/
theorem Port.regWrite_cases {r : Reg} {v : Word} (h : P.regWrite c r v = .ok Q) :
    P.mapped = true ∧ ∃ hw, P.hw.writeReg c r v = .ok hw ∧ Q = { P with hw := hw } := by
  by_cases hm : P.mapped = true
  · rw [Port.regWrite_mapped c r v hm] at h
    split at h
    · cases h
    · rename_i hw hw'
      cases h
      exact ⟨hm, hw, hw', rfl⟩
  · simp [Port.regWrite_unmapped c r v (by simpa using hm)] at h

/-- A read is a step that keeps everything but the RX FIFO. -/
theorem Port.regRead_inner {r : Reg} {v : Word} (h : P.regRead c d r = .ok (v, Q)) :
    Port.InnerStep c P Q := by
  obtain ⟨-, -, rfl⟩ := Port.regRead_cases h
  cases r with
  | ctrl => exact .refl c P
  | txdata => exact .refl c P
  | status => exact .refl c P
  | rxdata =>
    cases hr : P.hw.rxfifo with
    | nil => simpa [UartHw.readReg, UartHw.readRx, hr] using Port.InnerStep.refl c P
    | cons b bs =>
      have hQ : (P.hw.readReg c d .rxdata).2 = { P.hw with rxfifo := bs } := by
        simp [UartHw.readReg, UartHw.readRx, hr]
      rw [hQ]
      exact ⟨⟨rfl, rfl, rfl, rfl, rfl, rfl, rfl, rfl, rfl, .inl rfl, .inr (by simp [hr]), .inl rfl,
        .inl rfl⟩, rfl, rfl, rfl, rfl⟩

/-- A write is a step that appends at most one byte to the TX FIFO. -/
theorem Port.regWrite_inner {r : Reg} {v : Word} (h : P.regWrite c r v = .ok Q) :
    Port.InnerStep c P Q := by
  obtain ⟨-, hw, hh, rfl⟩ := Port.regWrite_cases h
  cases r with
  | ctrl =>
    cases hh
    exact ⟨⟨rfl, rfl, rfl, rfl, rfl, rfl, rfl, rfl, rfl, .inl rfl, .inl rfl, .inl rfl, .inl rfl⟩,
      rfl, rfl, rfl, rfl⟩
  | rxdata =>
    cases hh
    exact .refl c P
  | txdata =>
    by_cases hf : P.hw.txfifo.length = c.txFifoDepth
    · simp [Port.regWrite_txdata_full c v (Port.regWrite_cases h).1 hf] at h
    · rw [Port.regWrite_txdata_room c v (Port.regWrite_cases h).1 hf] at h
      injection h with h
      rw [← h]
      exact ⟨⟨rfl, rfl, rfl, rfl, rfl, rfl, rfl, rfl, rfl, .inr ⟨hf, _, rfl⟩, .inl rfl, .inl rfl,
        .inl rfl⟩, rfl, rfl, rfl, rfl⟩
  | status =>
    cases hh
    exact ⟨⟨rfl, rfl, rfl, rfl, rfl, rfl, rfl, rfl, rfl, .inl rfl, .inl rfl, .inl rfl, .inl rfl⟩,
      rfl, rfl, rfl, rfl⟩

theorem Port.testBit_inner {r : Reg} {m : Word} {b : Bool} (h : P.testBit c d r m = .ok (b, Q)) :
    Port.InnerStep c P Q := by
  unfold Port.testBit at h
  split at h
  · cases h
  · rename_i v P' hr
    cases h
    exact Port.regRead_inner hr

theorem Port.rmw_inner {r : Reg} {f : Word → Word} {m : Rmw} {o : Option Rmw}
    (h : P.rmw c d r f m = .ok (Q, o)) : Port.InnerStep c P Q := by
  unfold Port.rmw at h
  split at h
  · split at h
    · cases h
    · rename_i hr
      cases h
      exact Port.regRead_inner hr
  · split at h
    · cases h
    · rename_i hr
      cases h
      exact Port.regWrite_inner hr

/-- What the callee's step did, whichever way the caller goes on. -/
theorem andThen_cases {α β : Type} {stay : α → β} {next : Port → Port × Option β}
    {r : Except Stop (Port × Option α)} {o : Option β} (h : andThen stay next r = .ok (Q, o)) :
    (∃ a, r = .ok (Q, some a) ∧ o = some (stay a)) ∨
      ∃ P', r = .ok (P', none) ∧ next P' = (Q, o) := by
  match r, h with
  | .ok (_, some a), h =>
    cases h
    exact .inl ⟨a, rfl, rfl⟩
  | .ok (P', none), h =>
    injection h with h
    exact .inr ⟨P', rfl, h⟩

theorem andThen_goto {α β : Type} {stay : α → β} {b : β}
    {r : Except Stop (Port × Option α)} {o : Option β} (h : andThen stay (goto b) r = .ok (Q, o)) :
    ∃ o', r = .ok (Q, o') := by
  rcases andThen_cases h with ⟨a, hr, -⟩ | ⟨P', hr, hn⟩
  · exact ⟨_, hr⟩
  · cases hn
    exact ⟨_, hr⟩

theorem andThen_done {α β : Type} {stay : α → β}
    {r : Except Stop (Port × Option α)} {o : Option β} (h : andThen stay done r = .ok (Q, o)) :
    ∃ o', r = .ok (Q, o') := by
  rcases andThen_cases h with ⟨a, hr, -⟩ | ⟨P', hr, hn⟩
  · exact ⟨_, hr⟩
  · cases hn
    exact ⟨_, hr⟩

theorem refillStep_inner {pt : RefillPoint} {o : Option RefillPoint}
    (h : refillStep c d pt P = .ok (Q, o)) : Port.InnerStep c P Q := by
  cases pt with
  | wf0 =>
    cases h
    exact .refl c P
  | wf1 t =>
    simp only [refillStep] at h
    split at h
    · cases h
    · rename_i hr
      cases h
      exact Port.testBit_inner hr
  | wf2 m => exact Port.rmw_inner (andThen_done h).choose_spec
  | wf3 t =>
    cases h
    exact .refl c P
  | wf4 t b =>
    simp only [refillStep] at h
    split at h
    · cases h
    · rename_i hr
      cases h
      exact Port.regWrite_inner hr
  | wf5 t =>
    cases h
    exact ⟨⟨rfl, rfl, rfl, rfl, rfl, rfl, rfl, rfl, rfl, .inl rfl, .inl rfl, .inr ⟨t, rfl⟩,
      .inl rfl⟩, rfl, rfl, rfl, rfl⟩
  | wfEmpty m => exact Port.rmw_inner (andThen_done h).choose_spec

theorem drainStep_inner {pt : DrainPoint} {o : Option DrainPoint}
    (h : drainStep c d pt P = .ok (Q, o)) : Port.InnerStep c P Q := by
  cases pt with
  | rd0 =>
    simp only [drainStep] at h
    split at h
    · cases h
    · rename_i hr
      cases h
      exact Port.testBit_inner hr
  | rd1 =>
    simp only [drainStep] at h
    split at h
    · cases h
    · rename_i v P' hr
      cases h
      have hP := Port.regRead_cases hr
      have hi := Port.regRead_inner hr
      exact ⟨⟨hi.line, hi.base, hi.irq, hi.mapped, hi.lineOut, hi.producing, hi.buf, hi.head,
        hi.shifter, hi.txfifo, hi.rxfifo, hi.tail, .inr (.inl ⟨lowByte v, by rw [hP.2.2]⟩)⟩,
        hi.life, hi.registered, hi.ctl, hi.ret⟩
  | rdFlush =>
    cases h
    exact ⟨⟨rfl, rfl, rfl, rfl, rfl, rfl, rfl, rfl, rfl, .inl rfl, .inl rfl, .inl rfl,
      .inr (.inr rfl)⟩, rfl, rfl, rfl, rfl⟩

theorem ih3Step_inner {m : Rmw} {o : Option HandlerPoint} (h : ih3Step c d m P = .ok (Q, o)) :
    Port.InnerStep c P Q :=
  Port.rmw_inner (andThen_done h).choose_spec

theorem ih2Step_inner {v : Word} {pt : DrainPoint} {o : Option HandlerPoint}
    (h : ih2Step c d v pt P = .ok (Q, o)) : Port.InnerStep c P Q := by
  unfold ih2Step at h
  split at h
  · exact drainStep_inner (andThen_goto h).choose_spec
  · exact ih3Step_inner h

theorem ih1Step_inner {v : Word} {pt : RefillPoint} {o : Option HandlerPoint}
    (h : ih1Step c d v pt P = .ok (Q, o)) : Port.InnerStep c P Q := by
  unfold ih1Step at h
  split at h
  · exact refillStep_inner (andThen_goto h).choose_spec
  · exact ih2Step_inner h

/-- A step of the handler. -/
theorem handlerStep_inner {pt : HandlerPoint} {o : Option HandlerPoint}
    (h : handlerStep c d pt P = .ok (Q, o)) : Port.InnerStep c P Q := by
  cases pt with
  | ih0 =>
    simp only [handlerStep, ih0Step] at h
    split at h
    · cases h
    · rename_i hr
      cases h
      exact Port.regRead_inner hr
  | ih1 v r => exact ih1Step_inner h
  | ih2 v r => exact ih2Step_inner h
  | ih3 m => exact ih3Step_inner h

theorem cw3Step_inner {run : ConsoleRun} {i : Addr} {o : Option ConsoleRun}
    (h : cw3Step c d run i P = .ok (Q, o)) : Port.InnerStep c P Q := by
  unfold cw3Step at h
  split at h
  · cases h
  · rename_i hr
    cases h
    exact Port.testBit_inner hr

theorem cw6Step_inner {run : ConsoleRun} {o : Option ConsoleRun}
    (h : cw6Step c d run P = .ok (Q, o)) : Port.InnerStep c P Q := by
  unfold cw6Step at h
  split at h
  · cases h
  · rename_i hr
    cases h
    exact Port.testBit_inner hr

/-- A step of a console write. -/
theorem consoleStep_inner {m : Memory} {run : ConsoleRun} {o : Option ConsoleRun}
    (h : consoleStep c d m run P = .ok (Q, o)) : Port.InnerStep c P Q := by
  unfold consoleStep at h
  split at h
  · split at h
    · cases h
    · rename_i hr
      cases h
      exact Port.testBit_inner hr
  · exact Port.rmw_inner (andThen_goto h).choose_spec
  · split at h
    · exact cw6Step_inner h
    · exact cw3Step_inner h
  · exact cw3Step_inner h
  · cases h
    exact .refl c P
  · split at h
    · cases h
    · rename_i hr
      cases h
      exact Port.regWrite_inner hr
  · exact cw6Step_inner h
  · obtain ⟨o', ho⟩ := andThen_done h
    split at ho
    · exact Port.rmw_inner ho
    · exact Port.rmw_inner ho

/-- A step changes nothing of its port but the UART. -/
def Port.HwOnly (P Q : Port) : Prop := ∃ hw, Q = { P with hw := hw }

theorem Port.testBit_hwOnly {r : Reg} {m : Word} {b : Bool} (h : P.testBit c d r m = .ok (b, Q)) :
    Port.HwOnly P Q := by
  unfold Port.testBit at h
  split at h
  · cases h
  · rename_i hr
    cases h
    exact ⟨_, (Port.regRead_cases hr).2.2⟩

theorem Port.rmw_hwOnly {r : Reg} {f : Word → Word} {m : Rmw} {o : Option Rmw}
    (h : P.rmw c d r f m = .ok (Q, o)) : Port.HwOnly P Q := by
  unfold Port.rmw at h
  split at h
  · split at h
    · cases h
    · rename_i hr
      cases h
      exact ⟨_, (Port.regRead_cases hr).2.2⟩
  · split at h
    · cases h
    · rename_i hr
      cases h
      obtain ⟨-, hw, -, hq⟩ := Port.regWrite_cases hr
      exact ⟨hw, hq⟩

theorem cw3Step_hwOnly {run : ConsoleRun} {i : Addr} {o : Option ConsoleRun}
    (h : cw3Step c d run i P = .ok (Q, o)) : Port.HwOnly P Q := by
  unfold cw3Step at h
  split at h
  · cases h
  · rename_i hr
    cases h
    exact Port.testBit_hwOnly hr

theorem cw6Step_hwOnly {run : ConsoleRun} {o : Option ConsoleRun}
    (h : cw6Step c d run P = .ok (Q, o)) : Port.HwOnly P Q := by
  unfold cw6Step at h
  split at h
  · cases h
  · rename_i hr
    cases h
    exact Port.testBit_hwOnly hr

/-- A console write's step changes nothing of its port but the UART (R150). -/
theorem consoleStep_hwOnly {m : Memory} {run : ConsoleRun} {o : Option ConsoleRun}
    (h : consoleStep c d m run P = .ok (Q, o)) : Port.HwOnly P Q := by
  unfold consoleStep at h
  split at h
  · split at h
    · cases h
    · rename_i hr
      cases h
      exact Port.testBit_hwOnly hr
  · exact Port.rmw_hwOnly (andThen_goto h).choose_spec
  · split at h
    · exact cw6Step_hwOnly h
    · exact cw3Step_hwOnly h
  · exact cw3Step_hwOnly h
  · cases h
    exact ⟨P.hw, rfl⟩
  · split at h
    · cases h
    · rename_i hr
      cases h
      obtain ⟨-, hw, -, hq⟩ := Port.regWrite_cases hr
      exact ⟨hw, hq⟩
  · exact cw6Step_hwOnly h
  · obtain ⟨o', ho⟩ := andThen_done h
    split at ho
    · exact Port.rmw_hwOnly ho
    · exact Port.rmw_hwOnly ho

/-- A step of an ordinary-context operation that is not at one of the three points which move `life`. -/
theorem opStep_inner {pt : OpPoint} {o : Option OpPoint} (h : opStep c d pt P = .ok (Q, o))
    (h0 : pt ≠ .su0) (h2 : ∀ m, pt ≠ .su2 m) (hs : pt ≠ .sd2) : Port.InnerStep c P Q := by
  cases pt with
  | setBit r mask m => exact Port.rmw_inner (andThen_done h).choose_spec
  | clearBit r mask m => exact Port.rmw_inner (andThen_done h).choose_spec
  | writeTxFifo r => exact refillStep_inner (andThen_done h).choose_spec
  | rxDrain q => exact drainStep_inner (andThen_done h).choose_spec
  | su0 => exact absurd rfl h0
  | su1 m => exact Port.rmw_inner (andThen_goto h).choose_spec
  | su2 m => exact absurd rfl (h2 m)
  | sd0 m => exact Port.rmw_inner (andThen_goto h).choose_spec
  | sd1 m => exact Port.rmw_inner (andThen_goto h).choose_spec
  | sd2 => exact absurd rfl hs
  | startTx r => exact refillStep_inner (andThen_done h).choose_spec
  | st0 m => exact Port.rmw_inner (andThen_goto h).choose_spec
  | st1 =>
    simp only [opStep, st1Step] at h
    split at h
    · cases h
    · rename_i hr
      cases h
      exact Port.testBit_inner hr
  | st2 m => exact Port.rmw_inner (andThen_done h).choose_spec
  | sr0 m => exact Port.rmw_inner (andThen_goto h).choose_spec
  | sr1 =>
    simp only [opStep, sr1Step] at h
    split at h
    · cases h
    · rename_i hr
      cases h
      exact Port.testBit_inner hr
  | sr2 =>
    simp only [opStep, sr2Step] at h
    split at h
    · cases h
    · rename_i hr
      cases h
      exact Port.regRead_inner hr
  | sr3 m => exact Port.rmw_inner (andThen_done h).choose_spec

/-- A step at `su2` is an inner step, or the write that makes the port Active (R125). -/
theorem opStep_su2_cases {m : Rmw} {o : Option OpPoint} (h : opStep c d (.su2 m) P = .ok (Q, o)) :
    (Port.InnerStep c P Q ∧ ∃ m', o = some (.su2 m')) ∨
      ∃ P', Port.InnerStep c P P' ∧ Q = { P' with life := .active, ret := .ok } ∧ o = none := by
  rcases andThen_cases h with ⟨a, hr, ho⟩ | ⟨P', hr, hn⟩
  · exact .inl ⟨Port.rmw_inner hr, a, ho⟩
  · cases hn
    exact .inr ⟨P', Port.rmw_inner hr, rfl, rfl⟩

/-- Every step of an ordinary-context operation. -/
theorem opStep_stepOf {pt : OpPoint} {o : Option OpPoint} (h : opStep c d pt P = .ok (Q, o)) :
    Port.StepOf c P Q := by
  by_cases h0 : pt = .su0
  · subst h0
    simp only [opStep, registerStep] at h
    split at h <;>
    · cases h
      exact ⟨rfl, rfl, rfl, rfl, rfl, rfl, rfl, rfl, rfl, .inl rfl, .inl rfl, .inl rfl, .inl rfl⟩
  by_cases hs : pt = .sd2
  · subst hs
    cases h
    exact ⟨rfl, rfl, rfl, rfl, rfl, rfl, rfl, rfl, rfl, .inl rfl, .inl rfl, .inl rfl, .inl rfl⟩
  by_cases h2 : ∀ m, pt ≠ .su2 m
  · exact (opStep_inner h h0 h2 hs).toStepOf
  · simp only [ne_eq, not_forall, not_not] at h2
    obtain ⟨m, rfl⟩ := h2
    rcases opStep_su2_cases h with ⟨hi, -⟩ | ⟨P', hi, rfl, -⟩
    · exact hi.toStepOf
    · exact ⟨hi.line, hi.base, hi.irq, hi.mapped, hi.lineOut, hi.producing, hi.buf, hi.head,
        hi.shifter, hi.txfifo, hi.rxfifo, hi.tail, hi.inq⟩

/-- Taking a step and storing the control point it reaches. -/
theorem Port.runOp_cases {pt : OpPoint} (h : P.runOp c d pt = .ok Q) :
    ∃ P' o, opStep c d pt P = .ok (P', o) ∧ Q = { P' with ctl := o } := by
  unfold Port.runOp at h
  split at h
  · cases h
  · rename_i P' o heq
    cases h
    exact ⟨P', o, heq, rfl⟩

/-- Starting an operation: its entry let it in, and the first step was taken. -/
theorem Port.begin_cases {entry : Port → Except Stop Port} {pt : OpPoint}
    (h : P.begin c d entry pt = .ok Q) : ∃ P', entry P = .ok P' ∧ P'.runOp c d pt = .ok Q := by
  unfold Port.begin at h
  split at h
  · cases h
  · rename_i P' he
    exact ⟨P', he, h⟩

theorem Port.requireIdle_cases (h : P.requireIdle = .ok Q) : P.ctl = none ∧ Q = P := by
  unfold Port.requireIdle at h
  split at h
  · rename_i hc
    cases h
    exact ⟨hc, rfl⟩
  · cases h

/-- An entry lets in only where its precondition holds and leaves the port Idle. -/
theorem Port.enter_cases {entry : Port → Except Stop Port} (h : P.enter entry = .ok Q) :
    entry P = .ok Q ∧ Q.ctl = none := by
  unfold Port.enter at h
  split at h
  · cases h
  · rename_i P' he
    obtain ⟨hc, rfl⟩ := Port.requireIdle_cases h
    exact ⟨he, hc⟩

/-- A lifecycle operation's entry lets in what its plain entry lets in. -/
theorem Port.enterLifecycle_cases {entry : Port → Except Stop Port}
    (h : P.enterLifecycle entry = .ok Q) : entry P = .ok Q ∧ Q.ctl = none := by
  unfold Port.enterLifecycle Port.requireSerial at h
  split at h
  · cases h
  · rename_i P' he
    split at he <;> cases he
    exact Port.enter_cases h

/-- On an Idle port an entry is the `life` precondition alone. -/
theorem Port.enter_idle {entry : Port → Except Stop Port} (he : entry P = .ok Q) (hc : Q.ctl = none) :
    P.enter entry = .ok Q := by
  simp [Port.enter, he, Port.requireIdle, hc]

theorem Port.enterLifecycle_idle {entry : Port → Except Stop Port} (he : entry P = .ok Q)
    (hP : P.ctl = none) (hc : Q.ctl = none) : P.enterLifecycle entry = .ok Q := by
  simp [Port.enterLifecycle, Port.requireSerial, hP, inLifecycleOp, Port.enter_idle he hc]

/-- The `life` precondition, where it holds. -/
theorem Port.requireLife_ok {l : Life} (o : Operation) (h : P.life = l) : P.requireLife l o = .ok P := by
  simp [Port.requireLife, h]

theorem Port.requireLife_cases {l : Life} {o : Operation} (h : P.requireLife l o = .ok Q) :
    P.life = l ∧ Q = P := by
  unfold Port.requireLife at h
  split at h
  · rename_i hl
    cases h
    exact ⟨hl, rfl⟩
  · cases h

end Cases

end Sys2Proof.Machine
end

