-- ==== Sys2Proof/Laws/PerInstr.lean ====
section
/-!
SUPPORT. What holds of every action as syntax, one lemma per constructor: its operands are read back from its
operand bytes (spec/30_encoding.md R75, R76).
-/

namespace Sys2Proof.Laws.OperandsDecode

/-- The operand bytes of an action, with any bytes after them, decode to the action. -/
def Statement (i : Instr) : Prop :=
  ∀ bs : List Byte, decodeOperands i.opcode i.port (i.operandBytes ++ bs) = some (i, bs)

theorem rdCtrl (p : Nat) : Statement (.rdCtrl p) := fun _ => rfl
theorem rdRxdata (p : Nat) : Statement (.rdRxdata p) := fun _ => rfl
theorem rdTxdata (p : Nat) : Statement (.rdTxdata p) := fun _ => rfl
theorem rdStatus (p : Nat) : Statement (.rdStatus p) := fun _ => rfl

theorem wrCtrl (p : Nat) (v : Word) : Statement (.wrCtrl p v) :=
  takeWord1_wordBytes _ _

theorem wrRxdata (p : Nat) (v : Word) : Statement (.wrRxdata p v) :=
  takeWord1_wordBytes _ _

theorem wrTxdata (p : Nat) (v : Word) : Statement (.wrTxdata p v) :=
  takeWord1_wordBytes _ _

theorem wrStatus (p : Nat) (v : Word) : Statement (.wrStatus p v) :=
  takeWord1_wordBytes _ _

theorem setBit (p : Nat) (reg : Byte) (mask : Word) : Statement (.setBit p reg mask) :=
  takeRegMask_bytes _ _ _

theorem clearBit (p : Nat) (reg : Byte) (mask : Word) : Statement (.clearBit p reg mask) :=
  takeRegMask_bytes _ _ _

theorem testBit (p : Nat) (reg : Byte) (mask : Word) : Statement (.testBit p reg mask) :=
  takeRegMask_bytes _ _ _

theorem writeTxFifo (p : Nat) : Statement (.writeTxFifo p) := fun _ => rfl
theorem rxDrain (p : Nat) : Statement (.rxDrain p) := fun _ => rfl
theorem irqHandler (p : Nat) : Statement (.irqHandler p) := fun _ => rfl
theorem startup (p : Nat) : Statement (.startup p) := fun _ => rfl
theorem shutdown (p : Nat) : Statement (.shutdown p) := fun _ => rfl
theorem startTx (p : Nat) : Statement (.startTx p) := fun _ => rfl
theorem stopTx (p : Nat) : Statement (.stopTx p) := fun _ => rfl
theorem stopRx (p : Nat) : Statement (.stopRx p) := fun _ => rfl
theorem txEmpty (p : Nat) : Statement (.txEmpty p) := fun _ => rfl

theorem setMctrl (p : Nat) (mctrl : Word) : Statement (.setMctrl p mctrl) :=
  takeWord1_wordBytes _ _

theorem setTermios (p : Nat) (new old : Word) : Statement (.setTermios p new old) :=
  takeWord2_wordBytes _ _ _

theorem consoleWrite (p : Nat) (str count : Addr) : Statement (.consoleWrite p str count) :=
  takeAddr2_addrBytes _ _ _

end Sys2Proof.Laws.OperandsDecode
end

