-- ==== Sys2Proof/Laws/State.lean ====
section
/-!
SUPPORT. What each update of the state leaves alone: one lemma per field per update, so that no later proof
unfolds a record update.
-/

namespace Sys2Proof.Machine

section SetPort
variable (s : State) (p : Nat) (P : Port)

@[simp] theorem State.setPort_config : (s.setPort p P).config = s.config := rfl
@[simp] theorem State.setPort_ports : (s.setPort p P).ports = s.ports.set p P := rfl
@[simp] theorem State.setPort_handler : (s.setPort p P).handler = s.handler := rfl
@[simp] theorem State.setPort_cpuMasked : (s.setPort p P).cpuMasked = s.cpuMasked := rfl
@[simp] theorem State.setPort_console : (s.setPort p P).console = s.console := rfl
@[simp] theorem State.setPort_hostMem : (s.setPort p P).hostMem = s.hostMem := rfl
@[simp] theorem State.setPort_fault : (s.setPort p P).fault = s.fault := rfl
@[simp] theorem State.setPort_calls : (s.setPort p P).calls = s.calls := rfl
@[simp] theorem State.setPort_schedule : (s.setPort p P).schedule = s.schedule := rfl
@[simp] theorem State.setPort_tick : (s.setPort p P).tick = s.tick := rfl
@[simp] theorem State.setPort_draw : (s.setPort p P).draw = s.draw := rfl

end SetPort

/-- Writing an occupied slot puts the port there. -/
theorem State.setPort_get_same {s : State} {p : Nat} {P Q : Port} (h : s.ports[p]? = some P) :
    (s.setPort p Q).ports[p]? = some Q := by
  have hp : p < s.ports.length := (List.getElem?_eq_some_iff.mp h).1
  simp [hp]

/-- Writing one slot leaves every other slot alone. -/
theorem State.setPort_get_other {s : State} {p q : Nat} {Q : Port} (h : p ≠ q) :
    (s.setPort p Q).ports[q]? = s.ports[q]? := by
  simp [List.getElem?_set_ne h]

/-- Two writes of one slot are the later one. -/
@[simp] theorem State.setPort_setPort (s : State) (p : Nat) (P Q : Port) :
    (s.setPort p P).setPort p Q = s.setPort p Q := by
  simp [State.setPort]

/-- Writing back the port that is there changes nothing. -/
theorem State.setPort_self {s : State} {p : Nat} {P : Port} (h : s.ports[p]? = some P) :
    s.setPort p P = s := by
  obtain ⟨hp, rfl⟩ := List.getElem?_eq_some_iff.mp h
  simp [State.setPort]

section TakeInterrupt
variable (s : State) (p : Nat)

@[simp] theorem State.takeInterrupt_config : (s.takeInterrupt p).config = s.config := rfl
@[simp] theorem State.takeInterrupt_ports : (s.takeInterrupt p).ports = s.ports := rfl
@[simp] theorem State.takeInterrupt_handler :
    (s.takeInterrupt p).handler = some ⟨p, .ih0⟩ := rfl
@[simp] theorem State.takeInterrupt_cpuMasked : (s.takeInterrupt p).cpuMasked = s.cpuMasked := rfl
@[simp] theorem State.takeInterrupt_console : (s.takeInterrupt p).console = s.console := rfl
@[simp] theorem State.takeInterrupt_hostMem : (s.takeInterrupt p).hostMem = s.hostMem := rfl
@[simp] theorem State.takeInterrupt_fault : (s.takeInterrupt p).fault = s.fault := rfl
@[simp] theorem State.takeInterrupt_calls : (s.takeInterrupt p).calls = s.calls := rfl
@[simp] theorem State.takeInterrupt_schedule : (s.takeInterrupt p).schedule = s.schedule := rfl
@[simp] theorem State.takeInterrupt_tick : (s.takeInterrupt p).tick = s.tick := rfl
@[simp] theorem State.takeInterrupt_draw : (s.takeInterrupt p).draw = s.draw := rfl

end TakeInterrupt

section ContinueHandler
variable (s : State) (p : Nat) (pt : Option HandlerPoint)

@[simp] theorem State.continueHandler_config : (s.continueHandler p pt).config = s.config := by
  cases pt <;> rfl
@[simp] theorem State.continueHandler_ports : (s.continueHandler p pt).ports = s.ports := by
  cases pt <;> rfl
@[simp] theorem State.continueHandler_handler :
    (s.continueHandler p pt).handler = pt.map (HandlerRun.mk p) := by
  cases pt <;> rfl
@[simp] theorem State.continueHandler_cpuMasked :
    (s.continueHandler p pt).cpuMasked = s.cpuMasked := by
  cases pt <;> rfl
@[simp] theorem State.continueHandler_console : (s.continueHandler p pt).console = s.console := by
  cases pt <;> rfl
@[simp] theorem State.continueHandler_hostMem : (s.continueHandler p pt).hostMem = s.hostMem := by
  cases pt <;> rfl
@[simp] theorem State.continueHandler_fault : (s.continueHandler p pt).fault = s.fault := by
  cases pt <;> rfl
@[simp] theorem State.continueHandler_calls : (s.continueHandler p pt).calls = s.calls := by
  cases pt <;> rfl
@[simp] theorem State.continueHandler_schedule :
    (s.continueHandler p pt).schedule = s.schedule := by
  cases pt <;> rfl
@[simp] theorem State.continueHandler_tick : (s.continueHandler p pt).tick = s.tick := by
  cases pt <;> rfl
@[simp] theorem State.continueHandler_draw : (s.continueHandler p pt).draw = s.draw := by
  cases pt <;> rfl

end ContinueHandler

section UpdateConsole
variable (s : State) (k : Nat) (run : Option ConsoleRun)

@[simp] theorem updateConsole_config : (updateConsole k run s).config = s.config := by
  cases run <;> rfl
@[simp] theorem updateConsole_ports : (updateConsole k run s).ports = s.ports := by
  cases run <;> rfl
@[simp] theorem updateConsole_handler : (updateConsole k run s).handler = s.handler := by
  cases run <;> rfl
@[simp] theorem updateConsole_cpuMasked : (updateConsole k run s).cpuMasked = s.cpuMasked := by
  cases run <;> rfl
@[simp] theorem updateConsole_hostMem : (updateConsole k run s).hostMem = s.hostMem := by
  cases run <;> rfl
@[simp] theorem updateConsole_fault : (updateConsole k run s).fault = s.fault := by
  cases run <;> rfl
@[simp] theorem updateConsole_calls : (updateConsole k run s).calls = s.calls := by
  cases run <;> rfl
@[simp] theorem updateConsole_schedule : (updateConsole k run s).schedule = s.schedule := by
  cases run <;> rfl
@[simp] theorem updateConsole_tick : (updateConsole k run s).tick = s.tick := by
  cases run <;> rfl
@[simp] theorem updateConsole_draw : (updateConsole k run s).draw = s.draw := by
  cases run <;> rfl

end UpdateConsole

section Chosen
variable (s : State)

@[simp] theorem State.chosen_config : s.chosen.config = s.config := rfl
@[simp] theorem State.chosen_ports : s.chosen.ports = s.ports := rfl
@[simp] theorem State.chosen_handler : s.chosen.handler = s.handler := rfl
@[simp] theorem State.chosen_cpuMasked : s.chosen.cpuMasked = s.cpuMasked := rfl
@[simp] theorem State.chosen_console : s.chosen.console = s.console := rfl
@[simp] theorem State.chosen_hostMem : s.chosen.hostMem = s.hostMem := rfl
@[simp] theorem State.chosen_fault : s.chosen.fault = s.fault := rfl
@[simp] theorem State.chosen_calls : s.chosen.calls = s.calls := rfl
@[simp] theorem State.chosen_schedule : s.chosen.schedule = s.schedule.tail := rfl
@[simp] theorem State.chosen_tick : s.chosen.tick = s.tick + 1 := rfl
@[simp] theorem State.chosen_draw : s.chosen.draw = s.nextChoice.draw := rfl

end Chosen

end Sys2Proof.Machine
end

