-- ==== Sys2Proof/Laws/Ports.lean ====
section
/-!
SUPPORT. A step of one port, lifted to the whole state: what it answers, and everything it can do.
-/

namespace Sys2Proof.Machine

/-! ## When a dispatch is enabled -/

/-- The interrupt line depends on Control's enables and the pending bits alone, and never rises when none of
them does (R168). -/
theorem UartHw.irqOut_mono {c : Config} {hw hw' : UartHw}
    (hu : hw'.ctrl.getLsbD 15 = true → hw.ctrl.getLsbD 15 = true)
    (ht : hw'.ctrl.getLsbD 19 = true → hw.ctrl.getLsbD 19 = true)
    (hr : hw'.ctrl.getLsbD 18 = true → hw.ctrl.getLsbD 18 = true)
    (htp : hw'.txpend = true → hw.txpend = true) (hrp : hw'.rxpend = true → hw.rxpend = true)
    (h : hw.irqOut c = false) : hw'.irqOut c = false := by
  revert h
  simp only [UartHw.irqOut, UartHw.uarten, UartHw.txie, UartHw.rxie]
  cases c.enGatesIrq <;> revert hu ht hr htp hrp <;>
    cases hw.ctrl.getLsbD 15 <;> cases hw.ctrl.getLsbD 19 <;> cases hw.ctrl.getLsbD 18 <;>
    cases hw.txpend <;> cases hw.rxpend <;> simp <;> simp_all

/-- A port asks for its handler no more than before when neither its registration nor its line rises. -/
theorem Port.interrupting_mono {c : Config} {P Q : Port}
    (hr : Q.registered = true → P.registered = true)
    (hw : P.hw.irqOut c = false → Q.hw.irqOut c = false) (h : P.interrupting c = false) :
    Q.interrupting c = false := by
  simp only [Port.interrupting, Bool.and_eq_false_iff] at *
  rcases h with h | h
  · exact .inl (Bool.eq_false_iff.mpr fun hq => by simp [hr hq] at h)
  · exact .inr (hw h)

/-- Dispatch for a port is enabled only when a dispatch is. -/
theorem State.dispatchPending_of_enabled {s : State} {p : Nat} (h : s.dispatchEnabled p = true) :
    s.dispatchPending = true := by
  simp only [State.dispatchEnabled, State.dispatchPending, Bool.and_eq_true] at *
  refine ⟨h.1, ?_⟩
  cases hP : s.ports[p]? with
  | none => simp [hP] at h
  | some P =>
    rw [hP] at h
    exact List.any_eq_true.mpr ⟨P, List.mem_of_getElem? hP, by simpa using h.2⟩

/-- A masked CPU takes no interrupt (R182). -/
theorem State.dispatchPending_masked {s : State} (h : s.cpuMasked = true) :
    s.dispatchPending = false := by
  simp [State.dispatchPending, State.takesInterrupts, h]

/-- A port that does not ask for its handler more than before enables no dispatch. -/
theorem State.dispatchPending_setPort {s : State} {p : Nat} {P Q : Port} (hP : s.ports[p]? = some P)
    (hi : P.interrupting s.config = false → Q.interrupting s.config = false)
    (h : s.dispatchPending = false) : (s.setPort p Q).dispatchPending = false := by
  simp only [State.dispatchPending, Bool.and_eq_false_iff] at *
  rcases h with h | h
  · exact .inl h
  · right
    simp only [List.any_eq_false] at *
    intro R hR
    rcases List.mem_or_eq_of_mem_set hR with hR | rfl
    · exact h R hR
    · have := h P (List.mem_of_getElem? hP)
      simpa using hi (by simpa using this)

section Lift
variable {s t : State} {p : Nat} {P P' : Port} {α : Type}

/-- The port steps. -/
theorem State.onPort_ok {f : Port → Except Stop Port} (hP : s.ports[p]? = some P)
    (hf : f P = .ok P') : s.onPort p f = .next (s.setPort p P') := by
  simp [State.onPort, hP, hf]

/-- The port's step stops. -/
theorem State.onPort_error {f : Port → Except Stop Port} {e : Stop} (hP : s.ports[p]? = some P)
    (hf : f P = .error e) : s.onPort p f = s.stop e := by
  simp [State.onPort, hP, hf]

theorem State.onPortWith_ok {f : Port → Except Stop (Port × α)} {k : α → State → State} {a : α}
    (hP : s.ports[p]? = some P) (hf : f P = .ok (P', a)) :
    s.onPortWith p f k = .next (k a (s.setPort p P')) := by
  simp [State.onPortWith, hP, hf]

theorem State.onPortWith_error {f : Port → Except Stop (Port × α)} {k : α → State → State} {e : Stop}
    (hP : s.ports[p]? = some P) (hf : f P = .error e) : s.onPortWith p f k = s.stop e := by
  simp [State.onPortWith, hP, hf]

/-- A stop answers a next state only by keeping a fault. -/
theorem State.stop_next {e : Stop} (h : s.stop e = .next t) :
    ∃ fl, e = .fault fl ∧ t = { s with fault := some fl } := by
  cases e with
  | fault fl =>
    simp only [State.stop, State.raise, Host.Outcome.next.injEq] at h
    exact ⟨fl, rfl, h.symm⟩
  | refusal r => simp [State.stop] at h

/-- Everything a step of one port can do: it writes that port, or it keeps a fault. -/
theorem State.onPort_cases {f : Port → Except Stop Port} (h : s.onPort p f = .next t) :
    (∃ P P', s.ports[p]? = some P ∧ f P = .ok P' ∧ t = s.setPort p P') ∨
      ∃ fl, t = { s with fault := some fl } := by
  unfold State.onPort at h
  split at h
  · cases h
  · rename_i P hP
    split at h
    · obtain ⟨fl, -, rfl⟩ := State.stop_next h
      exact .inr ⟨fl, rfl⟩
    · rename_i P' hf
      cases h
      exact .inl ⟨P, P', hP, hf, rfl⟩

theorem State.onPortWith_cases {f : Port → Except Stop (Port × α)} {k : α → State → State}
    (h : s.onPortWith p f k = .next t) :
    (∃ P P' a, s.ports[p]? = some P ∧ f P = .ok (P', a) ∧ t = k a (s.setPort p P')) ∨
      ∃ fl, t = { s with fault := some fl } := by
  unfold State.onPortWith at h
  split at h
  · cases h
  · rename_i P hP
    split at h
    · obtain ⟨fl, -, rfl⟩ := State.stop_next h
      exact .inr ⟨fl, rfl⟩
    · rename_i P' a hf
      cases h
      exact .inl ⟨P, P', a, hP, hf, rfl⟩

/-- Everything a step that may not be enabled can do. -/
theorem State.portEvent_cases {f : Port → Option Port} (h : s.portEvent p f = .next t) :
    (∃ P P', s.ports[p]? = some P ∧ f P = some P' ∧ t = s.setPort p P') ∨ t = s := by
  unfold State.portEvent at h
  split at h
  · cases h; exact .inr rfl
  · rename_i P hP
    split at h
    · cases h; exact .inr rfl
    · rename_i P' hf
      cases h
      exact .inl ⟨P, P', hP, hf, rfl⟩

/-- Everything a UART step can do. -/
theorem State.hwEvent_cases {f : UartHw → Option UartHw} (h : s.hwEvent p f = .next t) :
    (∃ P hw, s.ports[p]? = some P ∧ f P.hw = some hw ∧ t = s.setPort p { P with hw := hw }) ∨
      t = s := by
  rcases State.portEvent_cases h with ⟨P, P', hP, hf, rfl⟩ | rfl
  · simp only [Option.map_eq_some_iff] at hf
    obtain ⟨hw, hf, rfl⟩ := hf
    exact .inl ⟨P, hw, hP, hf, rfl⟩
  · exact .inr rfl

/-- The ordinary context steps when no handler runs and no dispatch is enabled. -/
theorem State.ordinary_ready {f : State → Out State} (hh : s.handler = none)
    (hd : s.dispatchPending = false) : s.ordinary f = f s := by
  simp [State.ordinary, State.ordinaryRuns, hh, hd]

/-- The ordinary context waits for a handler that runs. -/
theorem State.ordinary_handler {f : State → Out State} (hh : s.handler ≠ none) :
    s.ordinary f = .next s := by
  cases h : s.handler with
  | none => exact absurd h hh
  | some x => simp [State.ordinary, State.ordinaryRuns, h]

/-- The ordinary context waits for a dispatch that is enabled (R186). -/
theorem State.ordinary_pending {f : State → Out State} (hd : s.dispatchPending = true) :
    s.ordinary f = .next s := by
  simp [State.ordinary, State.ordinaryRuns, hd]

/-- An ordinary-context step answers a next state by stepping, or by waiting for the handler. -/
theorem State.ordinary_cases {f : State → Out State} (h : s.ordinary f = .next t) :
    (s.handler = none ∧ s.dispatchPending = false ∧ f s = .next t) ∨ t = s := by
  unfold State.ordinary at h
  split at h
  · rename_i hh
    simp only [State.ordinaryRuns, Bool.and_eq_true, Option.isNone_iff_eq_none, Bool.not_eq_true'] at hh
    exact .inl ⟨hh.1, hh.2, h⟩
  · cases h; exact .inr rfl

end Lift

end Sys2Proof.Machine
end

