-- ==== Sys2Proof/Laws/Step.lean ====
section
/-!
SUPPORT. What a step is when its choice is listed, and how a run of listed choices unrolls one choice at a
time for the operation in progress, the handler and a console write.
-/

namespace Sys2Proof.Machine

/-- One tick with the given draw: what the model's own fields are after a step. -/
def State.clock (d : Word) (s : State) : State := { s with tick := s.tick + 1, draw := d }

section Clock
variable (s : State) (d : Word)

@[simp] theorem State.clock_config : (s.clock d).config = s.config := rfl
@[simp] theorem State.clock_ports : (s.clock d).ports = s.ports := rfl
@[simp] theorem State.clock_handler : (s.clock d).handler = s.handler := rfl
@[simp] theorem State.clock_cpuMasked : (s.clock d).cpuMasked = s.cpuMasked := rfl
@[simp] theorem State.clock_console : (s.clock d).console = s.console := rfl
@[simp] theorem State.clock_hostMem : (s.clock d).hostMem = s.hostMem := rfl
@[simp] theorem State.clock_fault : (s.clock d).fault = s.fault := rfl
@[simp] theorem State.clock_calls : (s.clock d).calls = s.calls := rfl
@[simp] theorem State.clock_schedule : (s.clock d).schedule = s.schedule := rfl
@[simp] theorem State.clock_tick : (s.clock d).tick = s.tick + 1 := rfl
@[simp] theorem State.clock_draw : (s.clock d).draw = d := rfl
theorem State.clock_setPort (p : Nat) (P : Port) :
    (s.clock d).setPort p P = (s.setPort p P).clock d := rfl

end Clock

/-- A step whose choice is the first one listed. -/
theorem step_of_choice {s : State} {ch : Choice} {chs : List Choice} (hf : s.fault = none)
    (hs : s.schedule = ch :: chs) :
    step s = State.runAgent ch.agent
      { s with schedule := chs, tick := s.tick + 1, draw := ch.draw } := by
  simp [step, hf, State.chosen, State.nextChoice, hs]

/-- A step of a state with no fault, whatever its choice is. -/
theorem step_of_noFault {s : State} (hf : s.fault = none) :
    step s = s.chosen.runAgent s.nextChoice.agent := by
  simp [step, hf]

/-- A step answers a next state only where no fault has stopped the model. -/
theorem step_next_noFault {s t : State} (h : step s = .next t) : s.fault = none := by
  cases hf : s.fault with
  | none => rfl
  | some f => simp [step, hf] at h

/-- A run of no choices. -/
@[simp] theorem State.runChoices_nil (s : State) : s.runChoices [] = .next s := rfl

/-- A run takes its first choice, then the others. -/
theorem State.runChoices_cons {s t : State} {ch : Choice} {chs : List Choice} (hf : s.fault = none)
    (h : State.runAgent ch.agent
      { s with schedule := chs ++ s.schedule, tick := s.tick + 1, draw := ch.draw } =
      .next { t with schedule := chs ++ t.schedule }) :
    s.runChoices (ch :: chs) = t.runChoices chs := by
  have hstep : step (s.scheduled (ch :: chs)) = .next (t.scheduled chs) := by
    rw [step_of_choice (s := s.scheduled (ch :: chs)) (ch := ch) (chs := chs ++ s.schedule) hf rfl]
    exact h
  have hrun := Host.Core.run.eq_2 Sys2Proof.core (s.scheduled (ch :: chs)) chs.length
  have hcore : Sys2Proof.core.step (s.scheduled (ch :: chs)) = .next (t.scheduled chs) := hstep
  rw [hcore] at hrun
  exact hrun

@[simp] theorem State.after_nil (s : State) : State.after [] s = s := rfl

/-- The model's own fields after a choice and the choices that follow it. -/
theorem State.after_cons (ch : Choice) (chs : List Choice) (s : State) :
    State.after (ch :: chs) s = State.after chs (s.clock ch.draw) := by
  cases chs with
  | nil => simp [State.after, State.clock]
  | cons c chs =>
    simp only [State.after, State.clock, List.length_cons, List.getLast?_cons_cons]
    have : (List.getLast? (c :: chs)) = some ((c :: chs).getLast (by simp)) :=
      List.getLast?_eq_some_getLast _
    rw [this]
    simp only [Option.map_some, Option.getD_some]
    congr 1
    omega

/-- One step of the operation in progress on a port. -/
theorem State.runChoices_op {s : State} {p : Nat} {P P' : Port} {pt : OpPoint} {d : Word}
    {chs : List Choice} (hr : s.ordinaryReady) (hP : s.ports[p]? = some P) (hc : P.ctl = some pt)
    (h : P.runOp s.config d pt = .ok P') :
    s.runChoices (⟨.op p, d⟩ :: chs) = ((s.setPort p P').clock d).runChoices chs := by
  apply State.runChoices_cons hr.1
  refine (State.ordinary_ready (by exact hr.2.1) (by exact hr.2.2)).trans ?_
  simp [State.opAgent, State.onPort, hP, hc, h, State.setPort, State.clock]

/-- Writing a port that does not ask for its handler more than before leaves ordinary code able to step. -/
theorem State.ordinaryReady_setPort {s : State} {p : Nat} {P Q : Port} (hr : s.ordinaryReady)
    (hP : s.ports[p]? = some P)
    (hi : P.interrupting s.config = false → Q.interrupting s.config = false) :
    (s.setPort p Q).ordinaryReady :=
  ⟨hr.1, hr.2.1, State.dispatchPending_setPort hP hi hr.2.2⟩

/-- One step of the operation in progress on a port that has just been written: the form in which the steps of
one operation chain. -/
theorem State.runChoices_op_setPort {s : State} {p : Nat} {P₀ P P' : Port} {pt : OpPoint} {d : Word}
    {chs : List Choice} (hr : s.ordinaryReady) (hP : s.ports[p]? = some P₀) (hc : P.ctl = some pt)
    (hi : P₀.interrupting s.config = false → P.interrupting s.config = false)
    (h : P.runOp s.config d pt = .ok P') :
    (s.setPort p P).runChoices (⟨.op p, d⟩ :: chs) = ((s.clock d).setPort p P').runChoices chs := by
  rw [State.runChoices_op (s := s.setPort p P) (State.ordinaryReady_setPort hr hP hi)
    (State.setPort_get_same hP) hc h, State.setPort_setPort, State.clock_setPort]

/-- The model's own fields after a choice, on a port that has just been written. -/
theorem State.after_cons_setPort (ch : Choice) (chs : List Choice) (s : State) (p : Nat) (P : Port) :
    State.after (ch :: chs) (s.setPort p P) = State.after chs ((s.clock ch.draw).setPort p P) := by
  rw [State.after_cons, State.clock_setPort]

/-- A tick leaves the ordinary context able to step. -/
theorem State.ordinaryReady_clock {s : State} {d : Word} (h : s.ordinaryReady) :
    (s.clock d).ordinaryReady := h

/-- One step of the running handler. -/
theorem State.runChoices_handler {s : State} {h : HandlerRun} {P P' : Port}
    {pt : Option HandlerPoint} {d : Word} {chs : List Choice} (hf : s.fault = none)
    (hh : s.handler = some h) (hp : h.point ≠ .ih0) (hP : s.ports[h.port]? = some P)
    (hs : handlerStep s.config d h.point P = .ok (P', pt)) :
    s.runChoices (⟨.handler, d⟩ :: chs) =
      (((s.setPort h.port P').continueHandler h.port pt).clock d).runChoices chs := by
  obtain ⟨p, q⟩ := h
  apply State.runChoices_cons hf
  cases q with
  | ih0 => exact absurd rfl hp
  | ih1 w r =>
    cases pt <;> simp_all [State.runAgent, State.runHandler, State.handlerAgent, State.onPortWith,
      State.continueHandler, State.returnFromHandler, State.setPort, State.clock]
  | ih2 w r =>
    cases pt <;> simp_all [State.runAgent, State.runHandler, State.handlerAgent, State.onPortWith,
      State.continueHandler, State.returnFromHandler, State.setPort, State.clock]
  | ih3 m =>
    cases pt <;> simp_all [State.runAgent, State.runHandler, State.handlerAgent, State.onPortWith,
      State.continueHandler, State.returnFromHandler, State.setPort, State.clock]

/-- One step of a console write in progress. -/
theorem State.runChoices_console {s : State} {k : Nat} {run : ConsoleRun} {P P' : Port}
    {run' : Option ConsoleRun} {d : Word} {chs : List Choice} (hr : s.ordinaryReady)
    (hk : s.console[k]? = some run) (hP : s.ports[CONSOLE_LINE]? = some P)
    (hs : consoleStep s.config d s.hostMem run P = .ok (P', run')) :
    s.runChoices (⟨.console k, d⟩ :: chs) =
      ((updateConsole k run' (s.setPort CONSOLE_LINE P')).clock d).runChoices chs := by
  have hl : CONSOLE_LINE < s.ports.length := (List.getElem?_eq_some_iff.mp hP).1
  apply State.runChoices_cons hr.1
  refine (State.ordinary_ready (by exact hr.2.1) (by exact hr.2.2)).trans ?_
  simp only [State.consoleAgent, State.onConsole, hk, if_pos hl]
  refine (State.onPortWith_ok (P := P) (P' := P') (a := run') (by exact hP) hs).trans ?_
  cases run' <;> simp [updateConsole, State.setPort, State.clock]

end Sys2Proof.Machine
end

