-- ==== Sys2Proof/Laws/System.lean ====
section
/-!
SUPPORT. Everything one step of the whole system can do, said once: which port it changes and how, what
becomes of the running handler, and what it leaves alone. Invariants are derived from `SysStep.of_step`.
-/

namespace Sys2Proof.Machine

/-- `life` stays or follows a transition of R127 that one step can show. -/
def Port.LifeStep (P Q : Port) : Prop :=
  Q.life = P.life ∨ (P.life = .inactive ∧ Q.life = .starting) ∨
      (P.life = .starting ∧ Q.life = .active) ∨ (P.life = .active ∧ Q.life = .stopping) ∨
      (P.life = .stopping ∧ Q.life = .inactive)

/-- What one step of an operation, the handler or a console write does to its port. -/
abbrev Port.OpChange (c : Config) (P Q : Port) : Prop :=
  Port.StepOf c P Q ∧ (P.lifeOk → Q.lifeOk ∧ Port.LifeStep P Q)

/-- What an action for port `p` does to the state: a step of that port, or a fault. -/
abbrev Acted (p : Nat) (s t : State) : Prop :=
  (∃ P Q, s.ports[p]? = some P ∧ t = s.setPort p Q ∧ Port.OpChange s.config P Q) ∨
    ∃ fl, t = { s with fault := some fl }

/-- An inner step keeps the lifecycle consistent. -/
theorem lifeOk_inner {c : Config} {P Q : Port} (h : Port.InnerStep c P Q) (hl : P.lifeOk) :
    Q.lifeOk := by
  unfold Port.lifeOk at *
  rw [h.life, h.registered, h.ctl]
  exact hl

/-- A step of an operation appends at most one byte to what the port has accepted (R163). -/
theorem stream_stepOf {c : Config} {P Q : Port} (h : Port.StepOf c P Q) :
    ∃ extra : List Byte, extra.length ≤ 1 ∧ Q.txStream = P.txStream ++ extra := by
  unfold Port.txStream
  rw [h.lineOut, h.shifter]
  rcases h.txfifo with h | ⟨-, b, h⟩
  · exact ⟨[], by simp, by simp [h]⟩
  · exact ⟨[b], by simp, by simp [h]⟩

/-- A step from a control point that agrees with `life` keeps the lifecycle consistent (R127). -/
theorem runOp_life {c : Config} {d : Word} {P Q : Port} {pt : OpPoint} (h : P.runOp c d pt = .ok Q)
    (hreg : P.registered = true ↔ P.life ≠ .inactive)
    (hs : P.life = .starting ↔ inStartup (some pt) = true)
    (ht : P.life = .stopping ↔ inShutdown (some pt) = true) (h0 : pt ≠ .su0) :
    Q.lifeOk ∧ Port.LifeStep P Q := by
  obtain ⟨P', o, hop, rfl⟩ := Port.runOp_cases h
  by_cases hsd : pt = .sd2
  · subst hsd
    cases hop
    have : P.life = .stopping := ht.2 rfl
    refine ⟨⟨by simp, by simp [inStartup], by simp [inShutdown], by simp⟩, ?_⟩
    simp [Port.LifeStep, this]
  by_cases h2 : ∀ m, pt ≠ .su2 m
  · have hi := opStep_inner hop h0 h2 hsd
    refine ⟨?_, .inl hi.life⟩
    have key : inStartup o = inStartup (some pt) ∧ inShutdown o = inShutdown (some pt) ∧
        o ≠ some .su0 := by
      cases pt with
      | su0 => exact absurd rfl h0
      | su2 m => exact absurd rfl (h2 m)
      | sd2 => exact absurd rfl hsd
      | su1 m =>
        rcases andThen_cases hop with ⟨a, -, rfl⟩ | ⟨_, -, h⟩
        · simp [inStartup, inShutdown]
        · cases h
          simp [inStartup, inShutdown]
      | sd0 m =>
        rcases andThen_cases hop with ⟨a, -, rfl⟩ | ⟨_, -, h⟩
        · simp [inStartup, inShutdown]
        · cases h
          simp [inStartup, inShutdown]
      | sd1 m =>
        rcases andThen_cases hop with ⟨a, -, rfl⟩ | ⟨_, -, h⟩
        · simp [inStartup, inShutdown]
        · cases h
          simp [inStartup, inShutdown]
      | st1 =>
        simp only [opStep, st1Step] at hop
        split at hop
        · cases hop
        · cases hop
          split <;> simp [inStartup, inShutdown]
      | sr1 =>
        simp only [opStep, sr1Step] at hop
        split at hop
        · cases hop
        · cases hop
          split <;> simp [inStartup, inShutdown]
      | sr2 =>
        simp only [opStep, sr2Step] at hop
        split at hop
        · cases hop
        · cases hop
          simp [inStartup, inShutdown]
      | _ =>
        rcases andThen_cases hop with ⟨a, -, rfl⟩ | ⟨_, -, h⟩
        · simp [inStartup, inShutdown]
        · cases h
          simp [inStartup, inShutdown]
    refine ⟨?_, ?_, ?_, key.2.2⟩
    · simpa [hi.life, hi.registered] using hreg
    · simpa [hi.life, key.1] using hs
    · simpa [hi.life, key.2.1] using ht
  · simp only [ne_eq, not_forall, not_not] at h2
    obtain ⟨m, rfl⟩ := h2
    have hst : P.life = .starting := hs.2 rfl
    rcases opStep_su2_cases hop with ⟨hi, m', rfl⟩ | ⟨P'', hi, rfl, rfl⟩
    · exact ⟨⟨by simpa [hi.life, hi.registered] using hreg, by simpa [hi.life, inStartup] using hs,
        by simpa [hi.life, inShutdown] using ht, by simp⟩, .inl hi.life⟩
    · refine ⟨⟨by simpa [hi.registered, hst] using hreg, by simp [inStartup], by simp [inShutdown],
        by simp⟩, ?_⟩
      simp [Port.LifeStep, hst]

/-- An inner step keeps the lifecycle. -/
theorem life_inner {c : Config} {P Q : Port} (h : Port.InnerStep c P Q) (hl : P.lifeOk) :
    Q.lifeOk ∧ Port.LifeStep P Q :=
  ⟨lifeOk_inner h hl, .inl h.life⟩

/-- Taking a step and storing the point it reaches. -/
theorem stepOf_runOp {c : Config} {d : Word} {P Q : Port} {pt : OpPoint}
    (h : P.runOp c d pt = .ok Q) : Port.StepOf c P Q := by
  obtain ⟨P', o, hop, rfl⟩ := Port.runOp_cases h
  have h := opStep_stepOf hop
  exact ⟨h.line, h.base, h.irq, h.mapped, h.lineOut, h.producing, h.buf, h.head, h.shifter, h.txfifo,
    h.rxfifo, h.tail, h.inq⟩

/-- An inner step that also returns a value to the caller. -/
theorem opChange_ret {c : Config} {P Q : Port} (r : Ret) (h : Port.InnerStep c P Q) :
    Port.OpChange c P { Q with ret := r } :=
  ⟨⟨h.line, h.base, h.irq, h.mapped, h.lineOut, h.producing, h.buf, h.head, h.shifter, h.txfifo,
    h.rxfifo, h.tail, h.inq⟩, fun hl => ⟨lifeOk_inner (Q := Q) h hl, .inl h.life⟩⟩

/-- The first step of an operation whose entry moves `life` does what its step does. -/
theorem stepOf_runOp_life {c : Config} {d : Word} {P Q : Port} {pt : OpPoint} {l : Life}
    (h : { P with life := l }.runOp c d pt = .ok Q) : Port.StepOf c P Q := by
  have hs := stepOf_runOp h
  exact ⟨hs.line, hs.base, hs.irq, hs.mapped, hs.lineOut, hs.producing, hs.buf, hs.head, hs.shifter,
    hs.txfifo, hs.rxfifo, hs.tail, hs.inq⟩

/-- The operation in progress on a port keeps its lifecycle consistent (R127). -/
theorem life_runOp_of_ctl {c : Config} {d : Word} {P Q : Port} {pt : OpPoint} (hc : P.ctl = some pt)
    (h : P.runOp c d pt = .ok Q) (hl : P.lifeOk) : Q.lifeOk ∧ Port.LifeStep P Q := by
  refine runOp_life h hl.1 (by rw [← hc]; exact hl.2.1) (by rw [← hc]; exact hl.2.2.1) ?_
  rintro rfl
  exact hl.2.2.2 hc

/-- Starting an operation that needs an Active port. -/
theorem begin_active {c : Config} {d : Word} {P Q : Port} {pt : OpPoint} {o : Operation}
    {entry : Port → Except Stop Port}
    (hp : inStartup (some pt) = false) (hq : inShutdown (some pt) = false) (h0 : pt ≠ .su0)
    (hent : ∀ P', entry P = .ok P' → P.requireLife .active o = .ok P')
    (h : P.begin c d entry pt = .ok Q) : Port.OpChange c P Q := by
  obtain ⟨P', he, hr⟩ := Port.begin_cases h
  obtain ⟨hl, rfl⟩ := Port.requireLife_cases (hent _ he)
  refine ⟨stepOf_runOp hr, fun hok => runOp_life hr hok.1 ?_ ?_ h0⟩
  · simp [hl, hp]
  · simp [hl, hq]

/-- Starting an operation with no precondition. -/
theorem begin_ok {c : Config} {d : Word} {P Q : Port} {pt : OpPoint}
    (hp : inStartup (some pt) = false) (hq : inShutdown (some pt) = false) (h0 : pt ≠ .su0)
    (h : P.begin c d Port.requireIdle pt = .ok Q) : Port.OpChange c P Q := by
  obtain ⟨P', he, hr⟩ := Port.begin_cases h
  obtain ⟨hc, rfl⟩ := Port.requireIdle_cases he
  refine ⟨stepOf_runOp hr, fun hok => runOp_life hr hok.1 ?_ ?_ h0⟩
  · rw [hp]
    simpa [hc, inStartup] using hok.2.1
  · rw [hq]
    simpa [hc, inShutdown] using hok.2.2.1

/-- Everything an action that belongs to one port can do: a step of that port, or a fault. -/
theorem exec_port {i : Instr} {s t : State} (h : exec i s = .next t)
    (hi : i.opcode ≠ .op .irqHandler) (hc : i.opcode ≠ .op .consoleWrite) : Acted i.port s t := by
  have inner : ∀ {P Q}, Port.InnerStep s.config P Q → Port.OpChange s.config P Q :=
    fun h => ⟨h.toStepOf, life_inner h⟩
  have key : ∀ {p f}, s.onPort p f = .next t → (∀ P Q, f P = .ok Q → Port.OpChange s.config P Q) →
      Acted p s t := by
    intro p f h hf
    rcases State.onPort_cases h with ⟨P, Q, hP, hf', rfl⟩ | h
    · exact .inl ⟨P, Q, hP, rfl, hf _ _ hf'⟩
    · exact .inr h
  have rd : ∀ {p r}, s.onPort p (Port.readAction s.config s.draw r) = .next t → Acted p s t := by
    intro p r h
    refine key h fun P Q hq => ?_
    unfold Port.readAction at hq
    split at hq
    · cases hq
    · rename_i hr
      cases hq
      exact opChange_ret _ (Port.regRead_inner hr)
  have wr : ∀ {p r v}, s.onPort p (Port.regWrite s.config r v) = .next t → Acted p s t :=
    fun h => key h fun P Q hq => inner (Port.regWrite_inner hq)
  have bo : ∀ {p reg pt}, s.onPort p (Port.beginBitOp s.config s.draw reg pt) = .next t →
      (∀ r, inStartup (some (pt r)) = false ∧ inShutdown (some (pt r)) = false ∧ pt r ≠ .su0) →
      Acted p s t := by
    intro p reg pt h hp
    refine key h fun P Q hq => ?_
    unfold Port.beginBitOp at hq
    split at hq
    · cases hq
    · exact begin_ok (hp _).1 (hp _).2.1 (hp _).2.2 hq
  cases i with
  | irqHandler p => exact absurd rfl hi
  | consoleWrite p a b => exact absurd rfl hc
  | rdCtrl p => exact rd h
  | rdRxdata p => exact rd h
  | rdTxdata p => exact rd h
  | rdStatus p => exact rd h
  | wrCtrl p v => exact wr h
  | wrRxdata p v => exact wr h
  | wrTxdata p v => exact wr h
  | wrStatus p v => exact wr h
  | setBit p r m => exact bo h fun r => by simp [inStartup, inShutdown]
  | clearBit p r m => exact bo h fun r => by simp [inStartup, inShutdown]
  | testBit p r m =>
    refine key h fun P Q hq => ?_
    unfold Port.testAction at hq
    split at hq
    · cases hq
    · split at hq
      · cases hq
      · rename_i hr
        cases hq
        exact opChange_ret _ (Port.testBit_inner hr)
  | writeTxFifo p =>
    exact key h fun P Q hq => begin_active rfl rfl (by simp) (fun _ he => (Port.enter_cases he).1) hq
  | rxDrain p =>
    exact key h fun P Q hq => begin_active rfl rfl (by simp) (fun _ he => (Port.enter_cases he).1) hq
  | startup p =>
    refine key h fun P Q hq => ?_
    obtain ⟨P', hb, hr⟩ := Port.begin_cases hq
    have he := (Port.enterLifecycle_cases hb).1
    clear hb
    unfold Port.enterStartup at he
    split at he
    · cases he
    · rename_i hl
      obtain ⟨hl, rfl⟩ := Port.requireLife_cases hl
      cases he
      refine ⟨stepOf_runOp_life hr, fun hok => ?_⟩
      obtain ⟨P', o, hop, rfl⟩ := Port.runOp_cases hr
      simp only [opStep, registerStep] at hop
      split at hop <;> cases hop
      · exact ⟨⟨by simp, by simp [inStartup], by simp [inShutdown], by simp⟩, .inr (.inl ⟨hl, rfl⟩)⟩
      · refine ⟨⟨?_, by simp [inStartup], by simp [inShutdown], by simp⟩, .inl hl.symm⟩
        simpa [hl] using hok.1
  | shutdown p =>
    refine key h fun P Q hq => ?_
    obtain ⟨P', hb, hr⟩ := Port.begin_cases hq
    have he := (Port.enterLifecycle_cases hb).1
    clear hb
    unfold Port.enterShutdown at he
    split at he
    · cases he
    · rename_i hl
      obtain ⟨hl, rfl⟩ := Port.requireLife_cases hl
      cases he
      refine ⟨stepOf_runOp_life hr, fun hok => ?_⟩
      have hrl := runOp_life hr (by simpa [hl] using hok.1) (by simp [inStartup])
        (by simp [inShutdown]) (by simp)
      obtain ⟨P', o, hop, rfl⟩ := Port.runOp_cases hr
      have := opStep_inner hop (by simp) (by simp) (by simp)
      exact ⟨hrl.1, .inr (.inr (.inr (.inl ⟨hl, this.life⟩)))⟩
  | startTx p =>
    exact key h fun P Q hq =>
      begin_active rfl rfl (by simp) (fun _ he => (Port.enterLifecycle_cases he).1) hq
  | stopTx p =>
    exact key h fun P Q hq =>
      begin_active rfl rfl (by simp) (fun _ he => (Port.enterLifecycle_cases he).1) hq
  | stopRx p =>
    exact key h fun P Q hq =>
      begin_active rfl rfl (by simp) (fun _ he => (Port.enterLifecycle_cases he).1) hq
  | txEmpty p =>
    refine key h fun P Q hq => ?_
    unfold Port.txEmptyAction at hq
    split at hq
    · cases hq
    · rename_i he
      obtain ⟨hl, rfl⟩ := Port.requireLife_cases (Port.enterLifecycle_cases he).1
      split at hq
      · cases hq
      · rename_i hr
        cases hq
        exact opChange_ret _ (Port.testBit_inner hr)
  | setMctrl p m =>
    refine key (p := p) (f := .ok) h fun P Q hq => ?_
    cases hq
    exact inner (.refl _ _)
  | setTermios p m n =>
    refine key (p := p) (f := .ok) h fun P Q hq => ?_
    cases hq
    exact inner (.refl _ _)

/-- Everything one step of any agent can do to one port. -/
def Port.Change (c : Config) (P Q : Port) : Prop :=
  Port.OpChange c P Q ∨
  (∃ hw, Q = { P with hw := hw } ∧ (UartHw.txLoad c P.hw = some hw ∨
    (∃ b ovr, hw = P.hw.rx c b ovr) ∨ UartHw.pendTx c P.hw = some hw ∨
    UartHw.pendRx c P.hw = some hw)) ∨
  Port.txDone c P = some Q ∨ (∃ b, Port.hostPut c b P = some Q) ∨
  Port.hostPublish c P = some Q ∨ Port.hostTake P = some Q

/-- Any such step keeps a port sound. -/
theorem portOk_change {c : Config} {p : Nat} {P Q : Port} (hw : c.wf = true) (hok : P.Ok c p)
    (h : Port.Change c P Q) : Q.Ok c p := by
  have hcap : 2 ≤ c.xmitCap ∧ 1 ≤ c.rxFifoDepth := by
    simp [Config.wf] at hw
    omega
  have hn : ∀ t, ringNext c t < c.xmitCap := fun t => Nat.mod_lt _ (by omega)
  rcases h with ⟨h, hl⟩ | ⟨hw, rfl, h⟩ | h | ⟨b, h⟩ | h | h
  · refine ⟨h.line ▸ hok.line, h.base ▸ hok.aligned, ?_, ?_, ⟨?_, ?_, ?_⟩, ?_, (hl hok.life).1⟩
    · have := hok.txfifo
      rcases h.txfifo with h | ⟨h', b, h⟩ <;> rw [h]
      · exact this
      · simp; omega
    · have := hok.rxfifo
      rcases h.rxfifo with h | h <;> rw [h]
      · exact this
      · simp; omega
    · rw [h.buf]; exact hok.ring.1
    · rw [h.head]; exact hok.ring.2.1
    · rcases h.tail with h | ⟨t, h⟩ <;> rw [h]
      · exact hok.ring.2.2
      · exact hn t
    · have := hok.published
      rcases h.inq with h | ⟨b, h⟩ | h <;> rw [h]
      · exact this
      · simp [InputQueue.push]; omega
      · simp [InputQueue.flush]
  · refine ⟨hok.line, hok.aligned, ?_, ?_, hok.ring, hok.published, hok.life⟩
    · have := hok.txfifo
      rcases h with h | ⟨b, ovr, rfl⟩ | h | h
      · unfold UartHw.txLoad at h
        split at h
        · split at h
          · cases h
            unfold UartHw.txEvent
            simp only
            split <;> simp_all <;> omega
          · cases h
        · cases h
      · unfold UartHw.rx UartHw.rxEvent UartHw.overrun
        split
        · exact this
        · split
          · split <;> exact this
          · split <;> exact this
      · unfold UartHw.pendTx at h; split at h <;> cases h; exact this
      · unfold UartHw.pendRx at h; split at h <;> cases h; exact this
    · have := hok.rxfifo
      rcases h with h | ⟨b, ovr, rfl⟩ | h | h
      · unfold UartHw.txLoad at h
        split at h
        · split at h
          · cases h
            unfold UartHw.txEvent
            simp only
            split <;> simp_all
          · cases h
        · cases h
      · unfold UartHw.rx UartHw.rxEvent UartHw.overrun
        split
        · exact this
        · split
          · split <;> simp <;> omega
          · split
            · exact this
            · simp [fitTo]
      · unfold UartHw.pendTx at h; split at h <;> cases h; exact this
      · unfold UartHw.pendRx at h; split at h <;> cases h; exact this
  · unfold Port.txDone at h
    split at h
    · split at h <;> cases h
      exact ⟨hok.line, hok.aligned, hok.txfifo, hok.rxfifo, hok.ring, hok.published, hok.life⟩
    · cases h
  · unfold Port.hostPut at h
    split at h <;> cases h
    refine ⟨hok.line, hok.aligned, hok.txfifo, hok.rxfifo, ⟨?_, hok.ring.2.1, hok.ring.2.2⟩, hok.published, hok.life⟩
    simpa using hok.ring.1
  · unfold Port.hostPublish at h
    split at h <;> cases h
    exact ⟨hok.line, hok.aligned, hok.txfifo, hok.rxfifo, ⟨hok.ring.1, hn _, hok.ring.2.2⟩, hok.published, hok.life⟩
  · unfold Port.hostTake at h
    split at h <;> cases h
    refine ⟨hok.line, hok.aligned, hok.txfifo, hok.rxfifo, hok.ring, ?_, hok.life⟩
    have := hok.published
    simp; omega

/-- Everything one step of the whole system does, beside the model's own fields. -/
structure SysStep (s t : State) : Prop where
  config : t.config = s.config
  mem : Memory.wf s.hostMem → Memory.wf t.hostMem
  ports : t.ports = s.ports ∨ ∃ (p : Nat) (P Q : Port), s.ports[p]? = some P ∧
    t.ports = s.ports.set p Q ∧ Port.Change s.config P Q ∧
    (s.handler ≠ none → Q.registered = P.registered)
  handler : t.handler = s.handler ∨ t.handler = none ∨
    (∃ h h', s.handler = some h ∧ t.handler = some h' ∧ h.port = h'.port) ∨
    ∃ p, t.handler = some ⟨p, .ih0⟩ ∧ s.dispatchEnabled p = true ∧ t.ports = s.ports
  console : t.console ≠ [] → s.console ≠ [] ∨ 5 < s.ports.length

theorem SysStep.same {s : State} : SysStep s s := ⟨rfl, id, .inl rfl, .inl rfl, .inl⟩
theorem SysStep.fault {s : State} {f} : SysStep s { s with fault := f } :=
  ⟨rfl, id, .inl rfl, .inl rfl, .inl⟩

theorem SysStep.port {s : State} {p : Nat} {P Q : Port} (hP : s.ports[p]? = some P)
    (h : Port.Change s.config P Q) (hr : s.handler ≠ none → Q.registered = P.registered) :
    SysStep s (s.setPort p Q) :=
  ⟨rfl, id, .inr ⟨p, P, Q, hP, rfl, h, hr⟩, .inl rfl, .inl⟩

theorem SysStep.of_handlerAgent {s t : State} (h : s.handlerAgent = .next t) : SysStep s t := by
  unfold State.handlerAgent at h
  split at h
  · cases h; exact .same
  · rename_i hd hh
    rcases State.onPortWith_cases h with ⟨P, Q, o, hP, hq, rfl⟩ | ⟨fl, rfl⟩
    · have hi := handlerStep_inner hq
      refine ⟨by simp, by simp, .inr ⟨_, P, Q, hP, by simp, .inl ⟨hi.toStepOf, life_inner hi⟩,
        fun _ => hi.registered⟩, ?_, by simpa using fun h => .inl h⟩
      cases o with
      | none => exact .inr (.inl (by simp))
      | some q => exact .inr (.inr (.inl ⟨hd, ⟨hd.port, q⟩, hh, by simp, rfl⟩))
    · exact .fault

theorem SysStep.of_onConsole {f : Port → Except Stop (Port × Option ConsoleRun)}
    {k : Option ConsoleRun → State → State} {u v : State} (h : u.onConsole f k = .next v)
    (hf : ∀ P Q o, f P = .ok (Q, o) → Port.InnerStep u.config P Q)
    (hk : ∀ o s, (k o s).config = s.config ∧ (k o s).ports = s.ports ∧
      (k o s).handler = s.handler ∧ (k o s).hostMem = s.hostMem) : SysStep u v := by
  unfold State.onConsole at h
  split at h
  · rename_i hl
    rcases State.onPortWith_cases h with ⟨P, Q, o, hP, hq, rfl⟩ | ⟨fl, rfl⟩
    · have hi := hf _ _ _ hq
      have := hk o (u.setPort 5 Q)
      refine ⟨this.1, ?_, .inr ⟨5, P, Q, hP, this.2.1, .inl ⟨hi.toStepOf, life_inner hi⟩,
        fun _ => hi.registered⟩, .inl this.2.2.1, fun _ => .inr hl⟩
      rw [show CONSOLE_LINE = 5 from rfl, this.2.2.2]
      exact id
    · exact .fault
  · cases h

theorem SysStep.of_exec {i : Instr} {s t : State} (h : exec i s = .next t)
    (hh : s.handler = none ∨ i.opcode = .op .irqHandler) : SysStep s t := by
  by_cases hi : i.opcode = .op .irqHandler
  · cases i <;> simp [Instr.opcode] at hi
    simp only [exec, execIrqHandler] at h
    split at h
    · exact SysStep.of_handlerAgent h
    · cases h
  by_cases hc : i.opcode = .op .consoleWrite
  · cases i <;> simp [Instr.opcode] at hc
    exact SysStep.of_onConsole h (fun P Q o hq => consoleStep_inner hq)
      (fun o s => ⟨rfl, rfl, rfl, rfl⟩)
  · rcases exec_port h hi hc with ⟨P, Q, hP, rfl, hs, hl⟩ | ⟨fl, rfl⟩
    · exact .port hP (.inl ⟨hs, hl⟩) (fun h => absurd (hh.resolve_right hi) h)
    · exact .fault

/-- Everything one of the core's own steps does to the state beside the port it belongs to (R43, R46, R53): in
slot `p` a step of that port, or nothing. -/
structure CoreStep (p : Nat) (s t : State) : Prop where
  config : t.config = s.config
  cpuMasked : t.cpuMasked = s.cpuMasked
  hostMem : t.hostMem = s.hostMem
  calls : t.calls = s.calls
  ports : t.ports = s.ports ∨ ∃ P Q, s.ports[p]? = some P ∧ t.ports = s.ports.set p Q ∧
    Port.StepOf s.config P Q

theorem CoreStep.same (p : Nat) (s : State) : CoreStep p s s := ⟨rfl, rfl, rfl, rfl, .inl rfl⟩

theorem CoreStep.fault (p : Nat) (s : State) (f : Option Fault) : CoreStep p s { s with fault := f } :=
  ⟨rfl, rfl, rfl, rfl, .inl rfl⟩

theorem CoreStep.port {s : State} {p : Nat} {P Q : Port} (hP : s.ports[p]? = some P)
    (h : Port.StepOf s.config P Q) : CoreStep p s (s.setPort p Q) :=
  ⟨rfl, rfl, rfl, rfl, .inr ⟨P, Q, hP, rfl, h⟩⟩

theorem CoreStep.of_opAgent {p : Nat} {s t : State} (h : s.opAgent p = .next t) :
    CoreStep p s t ∧ t.handler = s.handler := by
  unfold State.opAgent at h
  split at h
  · cases h; exact ⟨.same p s, rfl⟩
  · split at h
    · cases h; exact ⟨.same p s, rfl⟩
    · rcases State.onPort_cases h with ⟨P, Q, hP, hq, rfl⟩ | ⟨fl, rfl⟩
      · exact ⟨.port hP (stepOf_runOp hq), rfl⟩
      · exact ⟨.fault p s _, rfl⟩

theorem CoreStep.of_handlerAgent {hd : HandlerRun} {s t : State} (hh : s.handler = some hd)
    (h : s.handlerAgent = .next t) : CoreStep hd.port s t := by
  unfold State.handlerAgent at h
  rw [hh] at h
  rcases State.onPortWith_cases h with ⟨P, Q, o, hP, hq, rfl⟩ | ⟨fl, rfl⟩
  · exact ⟨by simp, by simp, by simp, by simp,
      .inr ⟨P, Q, hP, by simp, (handlerStep_inner hq).toStepOf⟩⟩
  · exact .fault _ s _

/-- A step of the console port, and that it changes the UART alone (R150). -/
theorem CoreStep.of_onConsole {f : Port → Except Stop (Port × Option ConsoleRun)}
    {k : Option ConsoleRun → State → State} {s t : State} (h : s.onConsole f k = .next t)
    (hf : ∀ P Q o, f P = .ok (Q, o) → Port.StepOf s.config P Q ∧ Port.HwOnly P Q)
    (hk : ∀ o u, (k o u).config = u.config ∧ (k o u).cpuMasked = u.cpuMasked ∧
      (k o u).hostMem = u.hostMem ∧ (k o u).calls = u.calls ∧ (k o u).ports = u.ports ∧
      (k o u).handler = u.handler) :
    CoreStep CONSOLE_LINE s t ∧ t.handler = s.handler ∧
      ∀ (q : Nat) (P Q : Port), s.ports[q]? = some P → t.ports[q]? = some Q → Port.HwOnly P Q := by
  have same : ∀ (q : Nat) (P Q : Port), s.ports[q]? = some P → s.ports[q]? = some Q → Port.HwOnly P Q := by
    intro q P Q hP hQ
    rw [hP] at hQ
    cases hQ
    exact ⟨P.hw, rfl⟩
  unfold State.onConsole at h
  split at h
  · rcases State.onPortWith_cases h with ⟨P, Q, o, hP, hq, rfl⟩ | ⟨fl, rfl⟩
    · obtain ⟨h1, h2, h3, h4, h5, h6⟩ := hk o (s.setPort CONSOLE_LINE Q)
      refine ⟨⟨h1, h2, h3, h4, .inr ⟨P, Q, hP, h5, (hf _ _ _ hq).1⟩⟩, h6, ?_⟩
      intro q R T hR hT
      rw [h5] at hT
      by_cases hpq : CONSOLE_LINE = q
      · subst hpq
        rw [State.setPort_get_same hP] at hT
        rw [hP] at hR
        cases hT
        cases hR
        exact (hf _ _ _ hq).2
      · rw [State.setPort_get_other hpq] at hT
        exact same q R T hR hT
    · exact ⟨.fault _ s _, rfl, same⟩
  · cases h

theorem CoreStep.of_exec {i : Instr} {s t : State} (h : exec i s = .next t) :
    (∃ p, CoreStep p s t) ∧ (s.handler = none → t.handler = s.handler) := by
  by_cases hi : i.opcode = .op .irqHandler
  · cases i <;> simp [Instr.opcode] at hi
    simp only [exec, execIrqHandler] at h
    split at h
    · rename_i hh
      exact ⟨⟨_, CoreStep.of_handlerAgent hh h⟩, fun hn => by simp [hh] at hn⟩
    · cases h
  by_cases hc : i.opcode = .op .consoleWrite
  · cases i <;> simp [Instr.opcode] at hc
    obtain ⟨hs, hh, -⟩ := CoreStep.of_onConsole h
      (fun P Q o hq => ⟨(consoleStep_inner hq).toStepOf, consoleStep_hwOnly hq⟩)
      (fun o u => ⟨rfl, rfl, rfl, rfl, rfl, rfl⟩)
    exact ⟨⟨_, hs⟩, fun _ => hh⟩
  · rcases exec_port h hi hc with ⟨P, Q, hP, rfl, hs, -⟩ | ⟨fl, rfl⟩
    · exact ⟨⟨_, .port hP hs⟩, fun _ => rfl⟩
    · exact ⟨⟨0, .fault 0 s _⟩, fun _ => rfl⟩

theorem SysStep.of_ordinary {f : State → Out State} {s t : State} (h : s.ordinary f = .next t)
    (hf : s.handler = none → f s = .next t → SysStep s t) : SysStep s t := by
  rcases State.ordinary_cases h with ⟨hh, -, h⟩ | rfl
  · exact hf hh h
  · exact .same

theorem SysStep.of_portEvent {s t : State} {p : Nat} {f : Port → Option Port}
    (h : s.portEvent p f = .next t)
    (hf : ∀ P Q, f P = some Q → Port.Change s.config P Q ∧ Q.registered = P.registered) :
    SysStep s t := by
  rcases State.portEvent_cases h with ⟨P, Q, hP, hq, rfl⟩ | rfl
  · exact .port hP (hf _ _ hq).1 fun _ => (hf _ _ hq).2
  · exact .same

theorem SysStep.of_hwEvent {s t : State} {p : Nat} {f : UartHw → Option UartHw}
    (h : s.hwEvent p f = .next t)
    (hf : ∀ P hw, f P.hw = some hw → Port.Change s.config P { P with hw := hw }) : SysStep s t := by
  rcases State.hwEvent_cases h with ⟨P, Q, hP, hq, rfl⟩ | rfl
  · exact .port hP (hf _ _ hq) fun _ => rfl
  · exact .same

/-- Everything the step of a chosen agent does. -/
theorem SysStep.of_run {a : Agent} {s t : State} (h : s.runAgent a = .next t) : SysStep s t := by
  cases a with
  | call =>
    refine SysStep.of_ordinary h fun hh h => ?_
    unfold State.callAgent at h
    split at h
    · rename_i i rest hd
      obtain ⟨a, b, c, d, e⟩ := SysStep.of_exec h (.inl hh)
      exact ⟨a, b, c, d, e⟩
    · unfold State.undecoded at h
      split at h
      · cases h; exact .same
      · cases h; exact .fault
      · cases h; exact .fault
      · cases h
      · cases h
  | op p =>
    refine SysStep.of_ordinary h fun hh h => ?_
    unfold State.opAgent at h
    split at h
    · cases h; exact .same
    · rename_i P hP
      split at h
      · cases h; exact .same
      · rename_i pt hc
        rcases State.onPort_cases h with ⟨P', Q, hP', hq, rfl⟩ | ⟨fl, rfl⟩
        · rw [hP] at hP'; cases hP'
          exact .port hP (.inl ⟨stepOf_runOp hq, life_runOp_of_ctl hc hq⟩) (fun h => absurd hh h)
        · exact .fault
  | console k =>
    refine SysStep.of_ordinary h fun hh h => ?_
    unfold State.consoleAgent at h
    split at h
    · cases h; exact .same
    · exact SysStep.of_onConsole h (fun P Q o hq => consoleStep_inner hq)
        (fun o s => ⟨by simp, by simp, by simp, by simp⟩)
  | handler =>
    simp only [State.runAgent, State.runHandler] at h
    split at h
    · exact SysStep.of_exec h (.inr rfl)
    · exact SysStep.of_handlerAgent h
  | dispatch p =>
    simp only [State.runAgent, State.dispatchAgent] at h
    split at h
    · rename_i hd
      cases h
      exact ⟨rfl, id, .inl rfl, .inr (.inr (.inr ⟨p, rfl, hd, rfl⟩)), .inl⟩
    · cases h; exact .same
  | txLoad p => exact SysStep.of_hwEvent h fun P hw hq => .inr (.inl ⟨hw, rfl, .inl hq⟩)
  | txDone p =>
    refine SysStep.of_portEvent h fun P Q hq => ⟨.inr (.inr (.inl hq)), ?_⟩
    unfold Port.txDone at hq
    split at hq
    · split at hq <;> cases hq
      rfl
    · cases hq
  | rx p b ovr =>
    simp only [State.runAgent] at h
    refine SysStep.of_hwEvent h fun P hw hq => .inr (.inl ⟨hw, rfl, .inr (.inl ⟨b, ovr, ?_⟩)⟩)
    cases hq
    rfl
  | pendTx p => exact SysStep.of_hwEvent h fun P hw hq => .inr (.inl ⟨hw, rfl, .inr (.inr (.inl hq))⟩)
  | pendRx p => exact SysStep.of_hwEvent h fun P hw hq => .inr (.inl ⟨hw, rfl, .inr (.inr (.inr hq))⟩)
  | hostPut p b =>
    refine SysStep.of_ordinary h fun _ h => SysStep.of_portEvent h fun P Q hq =>
      ⟨.inr (.inr (.inr (.inl ⟨b, hq⟩))), ?_⟩
    unfold Port.hostPut at hq
    split at hq <;> cases hq
    rfl
  | hostPublish p =>
    refine SysStep.of_ordinary h fun _ h => SysStep.of_portEvent h fun P Q hq =>
      ⟨.inr (.inr (.inr (.inr (.inl hq)))), ?_⟩
    unfold Port.hostPublish at hq
    split at hq <;> cases hq
    rfl
  | hostTake p =>
    refine SysStep.of_ordinary h fun _ h => SysStep.of_portEvent h fun P Q hq =>
      ⟨.inr (.inr (.inr (.inr (.inr hq)))), ?_⟩
    unfold Port.hostTake at hq
    split at hq <;> cases hq
    rfl
  | hostStore a b =>
    simp only [State.runAgent] at h
    refine SysStep.of_ordinary h fun _ h => ?_
    cases h
    exact ⟨rfl, Memory.write_wf _ _, .inl rfl, .inl rfl, .inl⟩
  | setMasked m =>
    simp only [State.runAgent] at h
    refine SysStep.of_ordinary h fun _ h => ?_
    cases h
    exact ⟨rfl, id, .inl rfl, .inl rfl, .inl⟩

/-- Everything one step of the whole system does. -/
theorem SysStep.of_step {s t : State} (h : step s = .next t) : SysStep s t := by
  rw [step_of_noFault (step_next_noFault h)] at h
  obtain ⟨a, b, c, d, e⟩ := SysStep.of_run h
  exact ⟨a, b, c, d, e⟩

/-- What a step does to the port in a given slot. -/
theorem Port.change_of_step {s t : State} {p : Nat} {P Q : Port} (h : step s = .next t)
    (hP : s.ports[p]? = some P) (hQ : t.ports[p]? = some Q) : Q = P ∨ Port.Change s.config P Q := by
  rcases (SysStep.of_step h).ports with hp | ⟨p', P', Q', hP', hp, hc, -⟩
  · rw [hp, hP] at hQ; cases hQ; exact .inl rfl
  · rw [hp] at hQ
    by_cases hpp : p' = p
    · subst hpp
      have : p' < s.ports.length := (List.getElem?_eq_some_iff.mp hP).1
      simp [this] at hQ
      subst hQ
      rw [hP] at hP'; cases hP'
      exact .inr hc
    · rw [List.getElem?_set_ne hpp, hP] at hQ; cases hQ; exact .inl rfl

end Sys2Proof.Machine
end

