-- ==== Sys2Proof/Tests/Slice0.lean ====
section
/-!
SUPPORT. Tests of the model. Words are written out from the encodings of spec/30_encoding.md; the expected
results of the step tests are those of spec/95_test_vectors.md, whose vector each test names. The witnesses at
the end show, for every obligation that has hypotheses, concrete values that meet them.
-/

namespace Sys2Proof.Tests

open Sys2Proof.Machine

/-! ## Small states -/

/-- Port 0 as the glue creates it. -/
def port0 : Port := Port.created 0 (PortInit.default 0)

/-- The reference configuration with one port. -/
def one (P : Port) : State := { State.resetWith Config.reference false 0 [] with ports := [P] }

/-- The same with one listed choice. -/
def chosen (P : Port) (a : Agent) : State := { one P with schedule := [⟨a, 0⟩] }

/-- Port 0 with the given UART state. -/
def hwPort (hw : UartHw) : Port := { port0 with hw := hw }

/-- A UART with Control `c`. -/
def hwCtrl (c : Word) : UartHw := ⟨c, [], none, [], false, false⟩

/-- Port 0, Active, with the given UART state. -/
def live (hw : UartHw) : Port := { hwPort hw with life := .active, registered := true }

/-- The answer is a next state of which `f` holds. -/
def answers (o : Out State) (f : State → Bool) : Bool :=
  match o with
  | .next t => f t
  | _ => false

/-- The answer is a next state whose port 0 satisfies `f`. -/
def leaves (o : Out State) (f : Port → Bool) : Bool := answers o fun t => (t.ports[0]?).any f

/-- The answer is a next state that keeps the fault `fl`. -/
def faults (o : Out State) (fl : Fault) : Bool := answers o fun t => t.fault == some fl

/-- The answer is the refusal `r`. -/
def refuses (o : Out State) (r : Refusal) : Bool :=
  match o with
  | .refused r' => r == r'
  | _ => false

/-! ## Well-formedness -/

/-- R70: a port is a line index 0..5. -/
theorem test_wellFormed_refuses_port_6 : (Instr.rdStatus 6).wellFormed = false := by decide
theorem test_wellFormed_refuses_port_256 : (Instr.consoleWrite 256 0 0).wellFormed = false := by decide
theorem test_wellFormed_admits_port_5 : (Instr.setTermios 5 1 2).wellFormed = true := by decide

/-! ## Decoding: every code, written out bit by bit from R71, R75 and R78 -/

theorem test_decode_bus_reads :
    decodeTableWord 8 0b01000000 = some (.rdCtrl 0) ∧
      decodeTableWord 8 0b01000100 = some (.rdRxdata 0) ∧
      decodeTableWord 8 0b01001000 = some (.rdTxdata 0) ∧
      decodeTableWord 8 0b01001100 = some (.rdStatus 0) := by decide

theorem test_decode_bus_writes :
    decodeTableWord 8 0b01010000 = some (.wrCtrl 0 0) ∧
      decodeTableWord 8 0b01010100 = some (.wrRxdata 0 0) ∧
      decodeTableWord 8 0b01011000 = some (.wrTxdata 0 0) ∧
      decodeTableWord 8 0b01011100 = some (.wrStatus 0 0) := by decide

theorem test_decode_bit_primitives :
    decodeTableWord 8 0b10000000 = some (.setBit 0 0 0) ∧
      decodeTableWord 8 0b10000001 = some (.clearBit 0 0 0) ∧
      decodeTableWord 8 0b10000010 = some (.testBit 0 0 0) := by decide

theorem test_decode_engine :
    decodeTableWord 8 0b10000011 = some (.writeTxFifo 0) ∧
      decodeTableWord 8 0b10000100 = some (.rxDrain 0) ∧
      decodeTableWord 8 0b10000101 = some (.irqHandler 0) := by decide

theorem test_decode_lifecycle :
    decodeTableWord 8 0b10000110 = some (.startup 0) ∧
      decodeTableWord 8 0b10000111 = some (.shutdown 0) ∧
      decodeTableWord 8 0b10001000 = some (.startTx 0) ∧
      decodeTableWord 8 0b10001001 = some (.stopTx 0) ∧
      decodeTableWord 8 0b10001010 = some (.stopRx 0) ∧
      decodeTableWord 8 0b10001011 = some (.txEmpty 0) := by decide

theorem test_decode_stubs_and_console :
    decodeTableWord 8 0b10001100 = some (.setMctrl 0 0) ∧
      decodeTableWord 8 0b10001101 = some (.setTermios 0 0 0) ∧
      decodeTableWord 8 0b10001110 = some (.consoleWrite 0 0 0) := by decide

/-- TA16, TA17, TA18, and the codes beside the listed ones (R79). -/
theorem test_decode_refuses_unlisted :
    decodeCode 0b01001101 = .error (.notAdmitted 0x4D) ∧
      decodeCode 0b00101100 = .error (.notAdmitted 0x2C) ∧
      decodeCode 0b01101100 = .error (.notAdmitted 0x6C) ∧
      decodeCode 0b10001111 = .error (.reserved 0x8F) ∧
      decodeCode 0b11111111 = .error (.reserved 0xFF) := by decide

/-- Operands follow the code and the port, least significant byte first (notes/assumptions/5.md). -/
theorem test_decode_operands :
    decode [0x58, 5, 0x41, 0x56, 0x34, 0x12, 0x99] = .ok (.wrTxdata 5 0x12345641, [0x99]) ∧
      decode [0x81, 1, 0x0C, 3, 0, 0, 0] = .ok (.clearBit 1 0x0C 3, []) ∧
      decode [0x4C, 6] = .error (.badPort 6) ∧ decode [0x50, 0, 1, 2, 3] = .error (.truncated 0x50) ∧
      decode [] = .error .empty := by decide

theorem test_encode_console :
    encode (.consoleWrite 5 0x0102030405060708 2) =
      [0x8E, 5, 8, 7, 6, 5, 4, 3, 2, 1, 2, 0, 0, 0, 0, 0, 0, 0] := by decide

/-! ## The maps (R72 to R74) -/

theorem test_named_and_reserved_bits :
    CTRL_NAMED = TXIE ||| RXIE ||| UARTEN ∧ CTRL_RSVD = ~~~CTRL_NAMED ∧
      STAT_NAMED = TXBUSY ||| TXFE ||| RXFF ||| TXFF ||| RXFE ||| TXPEND ||| RXPEND ∧
      STAT_RSVD = ~~~STAT_NAMED ∧ PEND_BOTH = TXPEND ||| RXPEND := by decide

/-! ## Bus accesses -/

/-- TA1. -/
theorem test_rdCtrl :
    leaves (exec (.rdCtrl 0) (one (hwPort (hwCtrl 0x00048000))))
      (fun P => P.ret == .word 0x00048000) = true := by decide

/-- TA4: named bits under a draw of zeros; reserved bits come from the draw (R38). -/
theorem test_rdStatus_full :
    leaves (exec (.rdStatus 0) (one (hwPort ⟨0, [1, 2, 3, 4], some 0x10, [5, 6, 7, 8], true, true⟩)))
      (fun P => P.ret == .word 0x00020243) = true := by decide

/-- TA5, with every reserved bit drawn as 1. -/
theorem test_rdStatus_draw :
    leaves (exec (.rdStatus 0)
        { one (hwPort ⟨0, [], some 0x10, [], false, false⟩) with draw := 0xFFFFFFFF })
      (fun P => P.ret == .word (0x00020420 ||| 0xFFFDF99C)) = true := by decide

/-- TA10: the oldest byte leaves the FIFO; bits 31:8 are the draw's (R92). -/
theorem test_rdRxdata :
    leaves (exec (.rdRxdata 0)
        { one (hwPort ⟨0, [], none, [0x0D, 0x0A], false, true⟩) with draw := 0xABCDEF00 })
      (fun P => P.ret == .word 0xABCDEF0D && P.hw.rxfifo == [0x0A] && P.hw.rxpend) = true := by decide

/-- TA15. -/
theorem test_rdTxdata :
    leaves (exec (.rdTxdata 0) { one (hwPort (hwCtrl 1)) with draw := 0x12345678 })
      (fun P => P.ret == .word 0x12345678 && P.hw == hwCtrl 1) = true := by decide

/-- TA2, and TI1: the line rises at once (TA19). -/
theorem test_wrCtrl :
    leaves (exec (.wrCtrl 0 0x00088000) (one (hwPort ⟨0x8000, [], none, [], true, false⟩)))
      (fun P => P.hw.ctrl == 0x00088000 && P.hw.irqOut Config.reference) = true := by decide

/-- TA14. -/
theorem test_wrRxdata :
    leaves (exec (.wrRxdata 0 0x55) (one port0)) (fun P => P == port0) = true := by decide

/-- TA12. -/
theorem test_wrTxdata :
    leaves (exec (.wrTxdata 0 0x12345641) (one port0)) (fun P => P.hw.txfifo == [0x41]) = true := by
  decide

/-- TA13. -/
theorem test_wrTxdata_full :
    faults (exec (.wrTxdata 0 0x55) (one (hwPort ⟨0, [1, 2, 3, 4], none, [], false, false⟩)))
      (.txOverflow 0x55) = true := by decide

/-- TA6. -/
theorem test_wrStatus :
    leaves (exec (.wrStatus 0 1) (one (hwPort ⟨0, [], none, [], true, true⟩)))
      (fun P => !P.hw.txpend && P.hw.rxpend) = true := by decide

/-- TA8: `PEND_W1 = set`. -/
theorem test_wrStatus_set :
    leaves (exec (.wrStatus 0 3)
        { one port0 with config := { Config.reference with pendW1 := .set } })
      (fun P => P.hw.txpend && P.hw.rxpend) = true := by decide

/-! ## Bit primitives: the write step of each, from its control point -/

/-- TB5. -/
theorem test_setBit :
    leaves (step (chosen { hwPort (hwCtrl 0xA5A00001) with
        ctl := some (.setBit .ctrl UARTEN (.write 0xA5A00001)) } (.op 0)))
      (fun P => P.hw.ctrl == 0xA5A08001 && P.ctl.isNone) = true := by decide

/-- TB11. -/
theorem test_setBit_data :
    faults (exec (.setBit 0 0x8 1) (one port0)) (.bitopData 0x8) = true := by decide

/-- TB3, its read. -/
theorem test_clearBit :
    leaves (exec (.clearBit 0 0x0 RXIE) (one (hwPort (hwCtrl 0x000C8000))))
      (fun P => P.ctl == some (.clearBit .ctrl RXIE (.write 0x000C8000)) &&
        P.hw.ctrl == 0x000C8000) = true := by decide

/-- TB7: `wr STATUS` of what was read with the mask cleared. -/
theorem test_clearBit_status :
    leaves (step (chosen { hwPort ⟨0, [], none, [], true, true⟩ with
        ctl := some (.clearBit .status TXPEND (.write 0x00000423)) } (.op 0)))
      (fun P => !P.hw.txpend && P.hw.rxpend && P.ctl.isNone) = true := by decide

/-- TB9. -/
theorem test_testBit :
    leaves (exec (.testBit 0 0xC TXFF) (one (hwPort ⟨0, [1, 2, 3, 4], none, [], false, false⟩)))
      (fun P => P.ret == .bool true) = true := by decide

/-- TB12: any masked bit. -/
theorem test_testBit_any :
    leaves (exec (.testBit 0 0x0 (TXIE ||| UARTEN)) (one (hwPort (hwCtrl 0x000C0000))))
      (fun P => P.ret == .bool true) = true := by decide

/-! ## The engine -/

/-- TC2, its first step: an empty ring goes to the clear of `TXIE`. -/
theorem test_writeTxFifo :
    leaves (exec (.writeTxFifo 0) (one { live (hwCtrl 0x000C8000) with ring := ⟨[], 5, 5⟩ }))
      (fun P => P.ctl == some (.writeTxFifo (.wfEmpty .read)) && P.hw.ctrl == 0x000C8000) = true := by
  decide

/-- TC7 and TC6: the counter and the tail wrap. -/
theorem test_refill_wraps :
    (match refillStep Config.reference 0 (.wf5 15) { port0 with txCount := 0xFFFFFFFF } with
      | .ok (P, pt) => P.txCount == 0 && P.ring.tail == 0 && pt == some .wf0
      | .error _ => false) = true := by decide

/-- TD2, a read of RX-Data by the drain. -/
theorem test_rxDrain_delivers :
    (match drainStep Config.reference 0xFFFFFF00 .rd1 (live ⟨0, [], none, [0x31], false, true⟩) with
      | .ok (P, pt) => P.inq == ⟨[(0x31, .normal)], 0⟩ && P.rxCount == 1 && pt == some .rd0
      | .error _ => false) = true := by decide

/-- TD1: an empty FIFO goes to the flush. -/
theorem test_rxDrain :
    leaves (exec (.rxDrain 0) (one (live (hwCtrl 0))))
      (fun P => P.ctl == some (.rxDrain .rdFlush)) = true := by decide

/-- V2, the handler's first access. -/
theorem test_irqHandler :
    answers (exec (.irqHandler 0)
        { one (live ⟨0x00048000, [], none, [0x0D, 0x0A], false, true⟩) with
          handler := some ⟨0, .ih0⟩ })
      (fun t => t.handler == some ⟨0, .ih1 0x00000401 .wf0⟩) = true := by decide

/-- R138: only dispatch issues it. -/
theorem test_irqHandler_refused :
    refuses (exec (.irqHandler 0) (one (live (hwCtrl 0)))) .handlerNotDispatched = true := by decide

/-! ## The lifecycle -/

/-- TF2: the platform answers `err(16)`. -/
theorem test_startup_fails :
    leaves (exec (.startup 0) { one port0 with draw := 16 })
      (fun P => P.life == .inactive && !P.registered && P.ret == .err 16 && P.hw == port0.hw) = true := by
  decide

/-- TF3. -/
theorem test_startup_active :
    faults (exec (.startup 0) (one (live (hwCtrl 0)))) (.state .startup) = true := by decide

/-- TF4, its first access. -/
theorem test_shutdown :
    leaves (exec (.shutdown 0) (one (live (hwCtrl 0x00048000))))
      (fun P => P.life == .stopping && P.ctl == some (.sd0 (.write 0x00048000))) = true := by decide

/-- TF5. -/
theorem test_shutdown_inactive :
    faults (exec (.shutdown 0) (one port0)) (.state .shutdown) = true := by decide

/-- V1: `start_tx` begins a refill. -/
theorem test_startTx :
    leaves (exec (.startTx 0) (one { live (hwCtrl 0x00048000) with ring := ⟨[0x41, 0x42], 2, 0⟩ }))
      (fun P => P.ctl == some (.startTx (.wf1 0))) = true := by decide

/-- TF7: the wait ends when the TX FIFO is empty, though the shifter holds a byte. -/
theorem test_stopTx_wait :
    leaves (step (chosen { live ⟨0x00048000, [], some 0x41, [], true, false⟩ with ctl := some .st1 }
        (.op 0)))
      (fun P => P.ctl == some (.st2 .read) && P.hw.shifter == some 0x41) = true := by decide

/-- TF6. -/
theorem test_stopTx_inactive :
    faults (exec (.stopTx 0) (one port0)) (.state .stopTx) = true := by decide

/-- TF8: a discarded byte is neither delivered nor counted. -/
theorem test_stopRx_discards :
    leaves (step (chosen { live ⟨0x00008000, [], none, [0x55], false, true⟩ with ctl := some .sr2 }
        (.op 0)))
      (fun P => P.ctl == some .sr1 && P.hw.rxfifo == [] && P.inq == ⟨[], 0⟩ && P.rxCount == 0) =
      true := by decide

/-- TF8, its first access. -/
theorem test_stopRx :
    leaves (exec (.stopRx 0) (one (live ⟨0x00048000, [], none, [0x55], false, true⟩)))
      (fun P => P.ctl == some (.sr0 (.write 0x00048000))) = true := by decide

/-- TF9: with the shifter busy the answer is 1, with a byte in the FIFO it is 0. -/
theorem test_txEmpty :
    leaves (exec (.txEmpty 0) (one (live ⟨0, [], some 0x41, [], false, false⟩)))
      (fun P => P.ret == .word 1) = true := by decide

theorem test_txEmpty_not :
    leaves (exec (.txEmpty 0) (one (live ⟨0, [0x41], none, [], false, false⟩)))
      (fun P => P.ret == .word 0) = true := by decide

/-- TF10. -/
theorem test_setMctrl :
    answers (exec (.setMctrl 0 0xFFFFFFFF) (one port0)) (fun t => t == one port0) = true := by decide

theorem test_setTermios :
    answers (exec (.setTermios 0 1 2) (one port0)) (fun t => t == one port0) = true := by decide

/-! ## The console -/

/-- P2, its first access: the snapshot of `TXIE`. -/
theorem test_consoleWrite :
    answers (exec (.consoleWrite 0 100 2)
        { State.resetWith Config.reference false 0 [] with
          ports := List.replicate 6 (live (hwCtrl 0x000C8000)) })
      (fun t => t.console == [⟨100, 2, true, .cw1 .read⟩]) = true := by decide

/-- TG5. -/
theorem test_consoleWrite_absent :
    refuses (exec (.consoleWrite 0 0 0) (one port0)) .consoleAbsent = true := by decide

/-! ## The UART's own steps -/

/-- TH1. -/
theorem test_txLoad :
    leaves (step (chosen (hwPort ⟨0, [0x41, 0x42], none, [], false, false⟩) (.txLoad 0)))
      (fun P => P.hw == ⟨0, [0x42], some 0x41, [], true, false⟩) = true := by decide

/-- TH2. -/
theorem test_txDone :
    leaves (step (chosen (hwPort ⟨0, [], some 0x41, [], false, false⟩) (.txDone 0)))
      (fun P => P.lineOut == [0x41] && !P.hw.txbusy) = true := by decide

/-- TH6 and TH8: a byte is lost while UART-enable gates reception, and at a full FIFO. -/
theorem test_rx_lost :
    leaves (step (chosen port0 (.rx 0 0x41 ⟨[], true⟩))) (fun P => P == port0) = true := by decide

theorem test_rx_overrun :
    leaves (step (chosen (hwPort ⟨0x8000, [], none, [1, 2, 3, 4], false, false⟩) (.rx 0 5 ⟨[], true⟩)))
      (fun P => P.hw == ⟨0x8000, [], none, [1, 2, 3, 4], false, false⟩) = true := by decide

/-- TI2 and TI4. -/
theorem test_irqOut :
    (⟨0x00048000, [], none, [], true, false⟩ : UartHw).irqOut Config.reference = false ∧
      (⟨0x000C0000, [], none, [], true, true⟩ : UartHw).irqOut Config.reference = false ∧
      (⟨0x000C0000, [], none, [], true, true⟩ : UartHw).irqOut
        { Config.reference with enGatesIrq := false } = true := by decide

/-! ## Host memory and reset -/

theorem test_memory_wf_at_reset : Memory.wf State.reset.hostMem := by decide

/-- Stores in any order make one canonical list. -/
theorem test_memory_canonical :
    Memory.write (Memory.write [] 7 1) 3 2 = Memory.write (Memory.write [] 3 2) 7 1 := by decide

/-- Every row of the opcode table runs as the first step after reset. -/
def firstStepRuns (w : Nat) : Bool := answers (step (State.reset.withFetchWord 8 w)) fun _ => true

theorem test_first_step_bus :
    [0x40, 0x44, 0x48, 0x4C, 0x50, 0x54, 0x58, 0x5C].all firstStepRuns = true := by decide

theorem test_first_step_operations :
    [0x80, 0x81, 0x82, 0x83, 0x84, 0x85, 0x86, 0x87, 0x88, 0x89, 0x8A, 0x8B, 0x8C, 0x8D, 0x8E].all
      firstStepRuns = true := by decide

/-! ## Witnesses: concrete values that meet the hypotheses of each obligation, all together -/

/-- A code that decodes to nothing is no opcode's code. -/
theorem unlisted {c : Byte} {e : DecodeError} (h : decodeCode c = .error e) (o : Opcode) : o.code ≠ c := by
  rintro rfl
  rw [decodeCode_code] at h
  cases h

/-- A port with every FIFO part filled, an operation's control point and a UART state. -/
def busy (hw : UartHw) (pt : OpPoint) : Port := { live hw with ctl := some pt }

/-- Six ports, the console's among them. -/
def six (P : Port) : State :=
  { State.resetWith Config.reference false 0 [] with ports := List.replicate 6 P }

theorem one_ready {P : Port} (h : (one P).dispatchPending = false) : (one P).ordinaryReady :=
  ⟨rfl, rfl, h⟩

theorem witness_DecodeOfEncodeIsTheAction :
    (Instr.consoleWrite 5 0xFFFFFFFFFFFFFFFF 0xFFFFFFFFFFFFFFFF).wellFormed = true ∧
      (Instr.setBit 0 0xFF 0xFFFFFFFF).wellFormed = true := by decide

/-- The codes beside the ends of the map are in no row of it. -/
theorem witness_CodeMapIsComplete :
    (0x5C, Opcode.wr .status) ∈ codeMap ∧ (∀ o : Opcode, (0x5D, o) ∉ codeMap) ∧
      (∀ o : Opcode, (0x8F, o) ∉ codeMap) := by
  refine ⟨by decide, fun o h => ?_, fun o h => ?_⟩ <;> simp [codeMap] at h

theorem witness_UnlistedCodesFault :
    let s := fun c : Byte => { chosen port0 .call with calls := [c] }
    (s 0x7F).ordinaryReady ∧ (s 0x7F).calls = 0x7F :: [] ∧ (s 0x7F).schedule = ⟨.call, 0⟩ :: [] ∧
      (∀ o : Opcode, o.code ≠ 0x7F) ∧ (∀ o : Opcode, o.code ≠ 0x8F) :=
  ⟨⟨rfl, rfl, by decide⟩, rfl, rfl, unlisted (e := .notAdmitted 0x7F) (by decide),
    unlisted (e := .reserved 0x8F) (by decide)⟩

theorem witness_StepRunsTheDecodedAction :
    let s := { chosen port0 .call with calls := [0x50, 0, 0, 0x80, 0, 0] }
    s.ordinaryReady ∧ s.schedule = ⟨.call, 0⟩ :: [] ∧ decode s.calls = .ok (.wrCtrl 0 0x8000, []) :=
  ⟨⟨rfl, rfl, by decide⟩, rfl, by decide⟩

theorem witness_FaultStopsAndHandlerSteps :
    let s := { chosen port0 .handler with handler := some ⟨0, .ih0⟩ }
    { s with fault := some (.range 16) }.fault = some (.range 16) ∧ s.fault = none ∧
      s.handler = some ⟨0, .ih0⟩ ∧ s.schedule = ⟨.handler, 0⟩ :: [] := ⟨rfl, rfl, rfl, rfl⟩

/-- The only port of a state of one port. -/
theorem one_get {P Q : Port} {p : Nat} (h : (one P).ports[p]? = some Q) : p = 0 ∧ Q = P := by
  cases p with
  | zero => exact ⟨rfl, (Option.some.inj h).symm⟩
  | succ p => cases h

theorem witness_inv : (chosen (live (hwCtrl 0x00048000)) (.rx 0 0x61 ⟨[], true⟩)).Inv := by
  refine ⟨by decide, by decide, ?_, ?_, by decide, (fun h hh => by cases hh), fun h => absurd rfl h⟩
  · intro p P h
    obtain ⟨rfl, rfl⟩ := one_get h
    exact ⟨rfl, by decide, by decide, by decide, ⟨by decide, by decide, by decide⟩, by decide,
      ⟨by decide, by decide, by decide, by decide⟩⟩
  · intro p q P Q hP hQ hpq
    exact absurd ((one_get hP).1.trans (one_get hQ).1.symm) hpq

theorem witness_EveryStepKeepsTheInvariant :
    let s := chosen (live (hwCtrl 0x00048000)) (.rx 0 0x61 ⟨[], true⟩)
    s.Inv ∧ ∃ t, step s = .next t :=
  ⟨witness_inv, _, rfl⟩

theorem witness_ResetHasTheInvariant :
    let gs := (List.range 6).map PortInit.default
    Config.reference.wf = true ∧ gs.length ≤ lineMax + 1 ∧ (∀ g ∈ gs, g.ok Config.reference) ∧ glueOk gs :=
  ⟨by decide, by decide, by unfold PortInit.ok; decide, by unfold glueOk windowsApart; decide⟩

theorem witness_ResetLeavesTheSpecsValues :
    Config.reference.wf = true ∧
      ((List.range 6).map PortInit.default)[5]? = some (PortInit.default 5) := by decide

theorem witness_StepsKeepWhatTheGlueGave :
    let s := chosen port0 (.hostPut 0 1)
    let u := chosen port0 (.setMasked true)
    (∃ t, step s = .next t ∧ t.ports[0]? ≠ s.ports[0]?) ∧ s.ports[0]? = some port0 ∧
      (∀ m, s.nextChoice.agent ≠ .setMasked m) ∧ u.ordinaryReady ∧
      u.schedule = ⟨.setMasked true, 0⟩ :: [] :=
  ⟨⟨_, rfl, by decide⟩, rfl, (fun m h => by cases h), ⟨rfl, rfl, by decide⟩, rfl⟩

theorem witness_WindowDecode :
    (16 ≤ ((0x20 : Addr) - 0x10).toNat) ∧ (16 ≤ ((0x0F : Addr) - 0x10).toNat) ∧
      (((0x1F : Addr) - 0x10).toNat < 16 ∧ ((0x1F : Addr) - 0x10).toNat % 4 ≠ 0) ∧
      (((0x1C : Addr) - 0x10).toNat < 16 ∧ (8 : Nat) ≠ 32) ∧ ((0x10 : Addr) - 0x10).toNat = 0 ∧
      ((0x14 : Addr) - 0x10).toNat = 4 ∧ ((0x18 : Addr) - 0x10).toNat = 8 ∧
      ((0x1C : Addr) - 0x10).toNat = 12 := by decide

theorem witness_mapped (P : Port) : (one P).ports[0]? = some P := rfl

/-- For `ReadsOfControlAndTxData`, `ReadOfStatus`, `WritesOfControlAndRxData`, `WriteOfStatus` and
`TestBitReturnsAnyMaskedBit`: each asks for a mapped port alone, the last also for a mask of named bits. -/
theorem witness_mapped_port :
    (one port0).ports[0]? = some port0 ∧ port0.mapped = true ∧ TXFF &&& ~~~STAT_NAMED = 0 := by decide

theorem witness_ReadOfRxData :
    let P := hwPort ⟨0, [], none, [0x0D, 0x0A], false, true⟩
    (one P).ports[0]? = some P ∧ P.mapped = true ∧ P.hw.rxfifo = 0x0D :: [0x0A] ∧
      (one port0).ports[0]? = some port0 ∧ port0.mapped = true ∧ port0.hw.rxfifo = [] := by decide

theorem witness_WriteOfTxData :
    let P := hwPort ⟨0, [1, 2, 3], none, [], false, false⟩
    let Q := hwPort ⟨0, [1, 2, 3, 4], none, [], false, false⟩
    (one P).ports[0]? = some P ∧ P.mapped = true ∧
      P.hw.txfifo.length ≠ (one P).config.txFifoDepth ∧ (one Q).ports[0]? = some Q ∧ Q.mapped = true ∧
      Q.hw.txfifo.length = (one Q).config.txFifoDepth := by decide

/-- A second lifecycle operation; an operation while a bit operation holds the control point, in either `life`. -/
theorem witness_UsesOutsideTheModelAreRefused :
    let P := { port0 with mapped := false, ctl := some (.su1 .read) }
    let Q := { port0 with ctl := some (.setBit .ctrl 1 .read) }
    (one P).ports[0]? = some P ∧ P.mapped = false ∧ (one P).handler ≠ some ⟨0, .ih0⟩ ∧
      inLifecycleOp P.ctl = true ∧ (one Q).ports[0]? = some Q ∧ Q.ctl ≠ none ∧ Q.life = .inactive ∧
      { Q with life := .active }.ctl ≠ none ∧ { Q with life := .active }.life = .active := by
  decide

/-- For `BitOpsOnControl` and `BitOpsOnStatus`. -/
theorem witness_BitOps :
    (one port0).ordinaryReady ∧ (one port0).ports[0]? = some port0 ∧ port0.mapped = true ∧
      port0.ctl = none := ⟨one_ready (by decide), by decide⟩

theorem witness_BitOpOnDataRegisterFaults :
    (one port0).ports[0]? = some port0 ∧ (0x8 : Byte) ≠ 0x0 ∧ (0x8 : Byte) ≠ 0xC := by decide

/-- Every row of the table has a state at it; the port of the console with a write in progress at `cw1` and at
`cw7`, a console write before it. -/
theorem witness_LostUpdateOfControl :
    (∀ x ∈ controlWrites 0x00040000 UARTEN,
      let P := { busy (hwCtrl 0x000C0000) x.1 with life := .active }
      (chosen P (.op 0)).ordinaryReady ∧ (chosen P (.op 0)).ports[0]? = some P ∧ P.mapped = true ∧
        (chosen P (.op 0)).schedule = ⟨.op 0, 0⟩ :: [] ∧ P.ctl = some x.1) ∧
    ∀ pt ∈ [ConsolePoint.cw1 (.write 0x00080000), .cw7 (.write 0x00080000)],
      let P := hwPort (hwCtrl 0x000C0000)
      let run : ConsoleRun := ⟨0, 1, true, pt⟩
      let s := { six P with console := [⟨0, 1, true, .cw6⟩, run], schedule := [⟨.console 1, 0⟩] }
      s.ordinaryReady ∧ s.ports[5]? = some P ∧ P.mapped = true ∧ s.console[1]? = some run ∧
        s.schedule = ⟨.console 1, 0⟩ :: [] ∧ run.point = pt := by
  unfold State.ordinaryReady
  decide

/-- The CPU is masked while ordinary code runs. -/
theorem witness_LostReceiveEvent :
    let P := live ⟨0x00048000, [], none, [1, 2, 3], true, false⟩
    let s := { one P with cpuMasked := true }
    s.ordinaryReady ∧ s.ports[0]? = some P ∧ P.mapped = true ∧ P.ctl = none ∧
      s.config.rxEvent = .enqueue ∧ s.config.pendGated = false ∧ P.hw.uarten = true ∧
      P.hw.rxpend = false ∧ P.hw.rxfifo.length < s.config.rxFifoDepth ∧
      (s.setPort 0 { P with hw := { P.hw with rxpend := true } }).dispatchPending = false :=
  ⟨⟨rfl, rfl, by decide⟩, by decide⟩

theorem witness_RefillOnEmptyRing :
    let P := { live (hwCtrl 0x000C8000) with ring := ⟨port0.ring.buf, 5, 5⟩ }
    (one P).ordinaryReady ∧ (one P).ports[0]? = some P ∧ P.mapped = true ∧ P.ctl = none ∧
      P.life = .active ∧ P.ring.head = P.ring.tail := ⟨one_ready (by decide), by decide⟩

/-- The ring holds more than the FIFO has room for, and its bytes wrap. -/
theorem witness_RefillMovesRingBytesInOrder :
    let P := { live ⟨0, [9, 9], none, [], false, false⟩ with ring := ⟨port0.ring.buf, 3, 15⟩ }
    let s := one P
    s.ordinaryReady ∧ s.ports[0]? = some P ∧ P.mapped = true ∧ P.ctl = none ∧ P.life = .active ∧
      s.config.wf = true ∧ P.ring.shapeOk s.config ∧ P.hw.txfifo.length ≤ s.config.txFifoDepth ∧
      2 = min (P.ring.count s.config) (s.config.txFifoDepth - P.hw.txfifo.length) ∧
      (List.replicate 13 (0 : Word)).length =
        (if 2 = P.ring.count s.config then 5 * 2 + 2 else 5 * 2 + 3) :=
  ⟨one_ready (by decide), by decide, by decide, by decide, by decide, by decide,
    ⟨by decide, by decide, by decide⟩, by decide, by decide, by decide⟩

/-- The ring empties on the write that fills the FIFO (TC5). -/
theorem witness_RefillMovesRingBytesInOrder_empties :
    let P := { live (hwCtrl 0) with ring := ⟨port0.ring.buf, 4, 0⟩ }
    let s := one P
    s.ordinaryReady ∧ s.ports[0]? = some P ∧ P.mapped = true ∧ P.ctl = none ∧ P.life = .active ∧
      s.config.wf = true ∧ P.ring.shapeOk s.config ∧ P.hw.txfifo.length ≤ s.config.txFifoDepth ∧
      4 = min (P.ring.count s.config) (s.config.txFifoDepth - P.hw.txfifo.length) ∧
      (List.replicate 22 (0 : Word)).length =
        (if 4 = P.ring.count s.config then 5 * 4 + 2 else 5 * 4 + 3) :=
  ⟨one_ready (by decide), by decide, by decide, by decide, by decide, by decide,
    ⟨by decide, by decide, by decide⟩, by decide, by decide, by decide⟩

theorem witness_RefillStepLowersTheCount :
    let P := { live (hwCtrl 0) with ring := ⟨port0.ring.buf, 0, 15⟩ }
    Config.reference.wf = true ∧ P.ring.shapeOk Config.reference ∧ P.ring.head ≠ P.ring.tail ∧
      ∃ Q pt, refillStep Config.reference 0 (.wf5 P.ring.tail) P = .ok (Q, pt) :=
  ⟨by decide, ⟨by decide, by decide, by decide⟩, by decide, _, _, rfl⟩

theorem witness_DrainDeliversEveryByteInOrder :
    let P := live ⟨0, [], none, [1, 2, 3, 4], false, true⟩
    (one P).ordinaryReady ∧ (one P).ports[0]? = some P ∧ P.mapped = true ∧ P.ctl = none ∧
      P.life = .active ∧ (List.replicate 9 (0 : Word)).length = 2 * P.hw.rxfifo.length + 1 :=
  ⟨one_ready (by decide), by decide⟩

theorem witness_HandlerServicesReceive :
    let P := live ⟨0x00048000, [], none, [0x0D, 0x0A], false, true⟩
    let Q := live (hwCtrl 0x00048000)
    let s := { one P with handler := some ⟨0, .ih0⟩ }
    s.fault = none ∧ s.handler = some ⟨0, .ih0⟩ ∧ s.ports[0]? = some P ∧ P.mapped = true ∧
      P.hw.txpend = false ∧ P.hw.rxpend = true ∧
      (List.replicate 8 (0 : Word)).length = 2 * P.hw.rxfifo.length + 4 ∧
      (one Q).ports[0]? = some Q ∧ Q.mapped = true ∧ Q.hw.txpend = false ∧ Q.hw.rxpend = false := by decide

/-- Each clause of `HandlerServicesTransmitFirst`: the refill and the drain go on and return; no bit. -/
theorem witness_HandlerServicesTransmitFirst :
    let P := live (hwCtrl 0)
    (3 : Word).getLsbD 1 = true ∧ (3 : Word).getLsbD 0 = true ∧ (0 : Word).getLsbD 1 = false ∧
      (0 : Word).getLsbD 0 = false ∧
      refillStep Config.reference 0 .wf0 P = .ok (P, some (.wfEmpty .read)) ∧
      refillStep Config.reference 0 (.wfEmpty (.write 0)) P = .ok (P, none) ∧
      drainStep Config.reference 0 .rd0 P = .ok (P, some .rdFlush) ∧
      drainStep Config.reference 0 .rdFlush P = .ok (P, none) := by decide

theorem witness_HandlerClearsBothPendingBits :
    let P := live ⟨0, [], none, [0x33], true, true⟩
    let s := { one P with handler := some ⟨0, .ih3 (.write 0x00000401)⟩ }
    s.handler = some ⟨0, .ih3 (.write 0x00000401)⟩ ∧ s.ports[0]? = some P ∧ P.mapped = true := by decide

theorem witness_StartupSucceedsOrFails :
    (one port0).ordinaryReady ∧ (one port0).ports[0]? = some port0 ∧ port0.mapped = true ∧
      port0.ctl = none ∧ port0.life = .inactive ∧ (one port0).draw = 0 ∧
      ((one port0).setPort 0 { port0 with
        hw := { port0.hw with ctrl := port0.hw.ctrl ||| RXIE }, registered := true }).dispatchPending =
          false ∧
      { one port0 with draw := 16 }.draw ≠ 0 := ⟨one_ready (by decide), by decide⟩

/-- For `ShutdownEndsInactive`, `StopTxOnEmptyFifo` and `TxEmptyIgnoresTheShifter`: `TXIE` and TX-pending are
set, and the CPU is masked. -/
theorem witness_live :
    let P := live ⟨0x000C8000, [], some 0x41, [], true, false⟩
    let s := { one P with cpuMasked := true }
    s.ordinaryReady ∧ s.ports[0]? = some P ∧ P.mapped = true ∧ P.ctl = none ∧
      P.life = .active ∧ P.hw.txfifo = [] := ⟨⟨rfl, rfl, by decide⟩, by decide⟩

/-- A lifecycle operation on an Idle port; a direct refill or drain inside a `startup`. -/
theorem witness_LifePreconditionFaults :
    let P := live (hwCtrl 0)
    let Q := { port0 with life := .starting, ctl := some (.su1 .read) }
    (one P).ports[0]? = some P ∧ P.life ≠ .inactive ∧ inLifecycleOp P.ctl = false ∧
      (one port0).ports[0]? = some port0 ∧ port0.life ≠ .active ∧ inLifecycleOp port0.ctl = false ∧
      (one Q).ports[0]? = some Q ∧ Q.life ≠ .active ∧ Q.ctl ≠ none := by decide

/-- R67: a direct refill while the port is Starting faults. -/
theorem test_writeTxFifo_starting :
    faults (exec (.writeTxFifo 0) (one { port0 with life := .starting, ctl := some (.su1 .read) }))
      (.state .writeTxFifo) = true := by decide

/-- R138: a second lifecycle operation is refused. -/
theorem test_startup_twice :
    refuses (exec (.startup 0) (one { port0 with life := .starting, ctl := some (.su1 .read) }))
      .portBusy = true := by decide

theorem witness_StopTxWaitsForAnEmptyFifo :
    let P := busy ⟨0, [0x41], none, [], false, false⟩ .st1
    let Q := busy (hwCtrl 0) .st1
    (chosen P (.op 0)).ordinaryReady ∧ (chosen P (.op 0)).ports[0]? = some P ∧ P.mapped = true ∧
      P.ctl = some .st1 ∧ (chosen P (.op 0)).schedule = ⟨.op 0, 0⟩ :: [] ∧ P.hw.txfifo ≠ [] ∧
      (chosen Q (.op 0)).ports[0]? = some Q ∧ Q.mapped = true ∧ Q.ctl = some .st1 ∧ Q.hw.txfifo = [] :=
  ⟨⟨rfl, rfl, by decide⟩, by decide⟩

theorem witness_StopRxDiscardsTheFifo :
    let P := live ⟨0x00048000, [], none, [0x55], false, true⟩
    let s := { one P with cpuMasked := true }
    s.ordinaryReady ∧ s.ports[0]? = some P ∧ P.mapped = true ∧ P.ctl = none ∧
      P.life = .active ∧ (List.replicate 6 (0 : Word)).length = 2 * P.hw.rxfifo.length + 4 :=
  ⟨⟨rfl, rfl, by decide⟩, by decide⟩

/-- For `SetMctrlChangesNothing` and `SetTermiosChangesNothing`. -/
theorem witness_stubs : (one port0).ports[0]? = some port0 := rfl

theorem witness_LifeFollowsItsTransitions :
    let P := live (hwCtrl 0x00048000)
    let s := chosen P (.rx 0 0x61 ⟨[], true⟩)
    s.Inv ∧ s.ports[0]? = some P ∧ ∃ t Q, step s = .next t ∧ t.ports[0]? = some Q :=
  ⟨witness_inv, rfl, _, _, rfl, rfl⟩

theorem witness_ConsoleWriteStarts :
    (six port0).ports[5]? = some port0 ∧ port0.mapped = true ∧ (one port0).ports[5]? = none := by decide

/-- Two bytes stored in host memory, the FIFO left with room for exactly them. -/
theorem witness_ConsoleSendsItsBytesInOrder :
    let P := hwPort ⟨0x000C8000, [1, 2], none, [], false, false⟩
    let s := { six P with hostMem := [(0, 0x4B), (2 ^ 64 - 1, 0x4F)] }
    s.ordinaryReady ∧ s.ports[5]? = some P ∧ P.mapped = true ∧
      ([0x4F, 0x4B] : List Byte).length = (2 : Addr).toNat ∧
      consoleBytes s.hostMem 0xFFFFFFFFFFFFFFFF [0x4F, 0x4B] ∧
      P.hw.txfifo.length + ([0x4F, 0x4B] : List Byte).length ≤ s.config.txFifoDepth ∧
      (List.replicate 8 (0 : Word)).length = 3 * ([0x4F, 0x4B] : List Byte).length + 2 := by
  refine ⟨⟨rfl, rfl, by decide⟩, by decide, by decide, by decide, ?_, by decide, by decide⟩
  intro k b h
  match k, h with
  | 0, h =>
    cases h
    decide
  | 1, h =>
    cases h
    decide

/-- Each control point of the loop: a full FIFO, room for one more byte, the byte stored, and the end. -/
theorem witness_ConsoleSendsItsBytesInOrder_steps :
    let P := hwPort ⟨0, [1, 2, 3, 4], none, [], false, false⟩
    let Q := hwPort ⟨0, [1, 2, 3], none, [], false, false⟩
    let s := fun (R : Port) (pt : ConsolePoint) => { six R with
      console := [⟨7, 2, true, pt⟩], schedule := [⟨.console 0, 0⟩], hostMem := [(8, 0x4F)] }
    (∀ R pt, (six R).dispatchPending = false → (s R pt).ordinaryReady) ∧
      (six P).dispatchPending = false ∧ (six Q).dispatchPending = false ∧
      (s P (.cw3 1)).ports[5]? = some P ∧ P.mapped = true ∧ (s Q (.cw4 1)).ports[5]? = some Q ∧
      (s P (.cw3 1)).console[0]? = some ⟨7, 2, true, .cw3 1⟩ ∧
      (s P (.cw3 1)).schedule = ⟨.console 0, 0⟩ :: [] ∧ (1 : Addr) ≠ 2 ∧
      (s Q (.cw4 1)).hostMem.read ((7 : Addr) + 1).toNat = some 0x4F ∧
      Q.hw.txfifo.length ≠ (s Q (.cw5 1 0x4F)).config.txFifoDepth ∧
      P.hw.txfifo.length = (s P (.cw5 1 0x4F)).config.txFifoDepth :=
  ⟨fun _ _ h => ⟨rfl, rfl, h⟩, by decide⟩

theorem witness_ConsoleRestoresTheSnapshot :
    let P := hwPort ⟨0, [], some 1, [], false, false⟩
    let s := { six P with console := [⟨0, 0, true, .cw6⟩] }
    s.ordinaryReady ∧ s.ports[5]? = some P ∧ P.mapped = true ∧
      s.console[0]? = some ⟨0, 0, true, .cw6⟩ ∧ (P.hw.txfifo ≠ [] ∨ P.hw.shifter ≠ none) ∧
      (six port0).ports[5]? = some port0 ∧ port0.hw.txfifo = [] ∧ port0.hw.shifter = none :=
  ⟨⟨rfl, rfl, by decide⟩, by decide⟩

theorem witness_TxLoadStep :
    let P := hwPort ⟨0, [0x41, 0x42], none, [], false, false⟩
    let s := chosen P (.txLoad 0)
    s.fault = none ∧ s.ports[0]? = some P ∧ s.schedule = ⟨.txLoad 0, 0⟩ :: [] ∧
      P.hw.shifter = none ∧ P.hw.txfifo = 0x41 :: [0x42] ∧ s.config.enGatesTx = false ∧
      (chosen port0 (.txLoad 0)).ports[0]? = some port0 ∧ port0.hw.txfifo = [] := by decide

theorem witness_TxDoneStep :
    let P := hwPort ⟨0, [], some 0x41, [], false, false⟩
    let s := chosen P (.txDone 0)
    s.fault = none ∧ s.ports[0]? = some P ∧ s.schedule = ⟨.txDone 0, 0⟩ :: [] ∧
      P.hw.shifter = some 0x41 ∧ s.config.enGatesTx = false ∧
      (chosen port0 (.txDone 0)).ports[0]? = some port0 ∧ port0.hw.shifter = none := by decide

/-- UART-enable clear; room for one more byte; a full FIFO, with either `RX_OVERRUN`. -/
theorem witness_ReceiveStep :
    let ovr : OverrunDraw := ⟨[9, 9, 9, 9], true⟩
    let s := fun P => chosen P (.rx 0 5 ovr)
    let P := hwPort ⟨0x8000, [], none, [1, 2, 3], false, false⟩
    let Q := hwPort ⟨0x8000, [], none, [1, 2, 3, 4], false, false⟩
    (s port0).fault = none ∧ (s port0).ports[0]? = some port0 ∧
      (s port0).schedule = ⟨.rx 0 5 ovr, 0⟩ :: [] ∧
      ((s port0).config.enGatesRx = true ∧ port0.hw.ctrl.getLsbD 15 = false) ∧
      ¬((s P).config.enGatesRx = true ∧ P.hw.ctrl.getLsbD 15 = false) ∧
      P.hw.rxfifo.length < (s P).config.rxFifoDepth ∧
      (s Q).config.rxFifoDepth ≤ Q.hw.rxfifo.length ∧ (s Q).config.rxOverrun = .dropNew ∧
      ovr.fifo.length = (s Q).config.rxFifoDepth := by decide

theorem witness_SpontaneousEvents :
    (chosen port0 (.pendTx 0)).fault = none ∧ (chosen port0 (.pendTx 0)).ports[0]? = some port0 ∧
      (chosen port0 (.pendTx 0)).schedule = ⟨.pendTx 0, 0⟩ :: [] ∧
      (chosen port0 (.pendRx 0)).schedule = ⟨.pendRx 0, 0⟩ :: [] := by decide

theorem witness_TransmitStreamOnlyGrows :
    let P := hwPort ⟨0, [0x42], some 0x41, [], false, false⟩
    ∃ t Q, step (chosen P (.txDone 0)) = .next t ∧ (chosen P (.txDone 0)).ports[0]? = some P ∧
      t.ports[0]? = some Q := ⟨_, _, rfl, rfl, rfl⟩

/-- For `HardwareNeverClearsPending` and `HardwareStepsAreLocal`: a received byte with room for it, under
`drop_new` and under `any`. -/
theorem witness_hardware :
    let P := hwPort ⟨0x8000, [0x42], some 0x41, [], true, true⟩
    let s := chosen P (.rx 0 7 ⟨[], false⟩)
    let u := { s with config := { s.config with rxOverrun := .any } }
    s.fault = none ∧ hardwarePort s.nextChoice.agent = some 0 ∧ s.ports[0]? = some P ∧
      P.hw.txpend = true ∧ s.config.rxOverrun = .dropNew ∧ P.hw.rxpend = true ∧
      u.fault = none ∧ hardwarePort u.nextChoice.agent = some 0 ∧ u.ports[0]? = some P ∧
      u.config.rxOverrun = .any ∧ ¬u.config.rxFifoDepth ≤ P.hw.rxfifo.length ∧
      (∃ t Q, step s = .next t ∧ t.ports[0]? = some Q) ∧
      ∃ t Q, step u = .next t ∧ t.ports[0]? = some Q :=
  ⟨rfl, rfl, rfl, rfl, rfl, rfl, rfl, rfl, rfl, rfl, by decide, ⟨_, _, rfl, rfl⟩, ⟨_, _, rfl, rfl⟩⟩

theorem witness_DispatchEntersTheHandler :
    let P := live ⟨0x00048000, [], none, [0x0D], false, true⟩
    let s := chosen P (.dispatch 0)
    s.fault = none ∧ s.ports[0]? = some P ∧ s.schedule = ⟨.dispatch 0, 0⟩ :: [] ∧
      (s.handler = none ∧ s.cpuMasked = false ∧ P.registered = true ∧
        P.hw.irqOut s.config = true) ∧
      ¬port0.registered = true := by decide

/-- A running handler; and a dispatch that is enabled while the caller is chosen. -/
theorem witness_HandlerRunsToCompletion :
    let s := { chosen port0 .call with handler := some ⟨0, .ih0⟩ }
    let u := chosen (live ⟨0x00048000, [], none, [0x0D], false, true⟩) .call
    s.fault = none ∧ s.handler ≠ none ∧ waitsForHandler s.nextChoice.agent = true ∧ u.fault = none ∧
      u.dispatchPending = true ∧ ordinaryAgent u.nextChoice.agent = true := by decide

/-- R186: the handler wins at the step boundary; the caller's action waits. -/
theorem test_handler_wins :
    answers (step { chosen (live ⟨0x00048000, [], none, [0x0D], false, true⟩) .call with
        calls := [0x40, 0] })
      (fun t => t.calls == [0x40, 0]) = true := by decide

theorem witness_UnregisteredPortIsNeverDispatched :
    let P := hwPort ⟨0x000C8000, [], none, [], true, true⟩
    let s := chosen P (.dispatch 0)
    s.handler = none ∧ (∃ t, step s = .next t) ∧ s.ports[0]? = some P ∧ P.registered = false :=
  ⟨rfl, ⟨_, rfl⟩, rfl, rfl⟩

/-- A ring with room for one more byte, its head about to wrap. -/
theorem witness_HostPutStoresThenPublishes :
    let P := { port0 with ring := ⟨port0.ring.buf, 15, 1⟩ }
    let s := one P
    s.ordinaryReady ∧ s.ports[0]? = some P ∧ s.config.wf = true ∧ P.ring.shapeOk s.config ∧
      P.producing = false ∧ P.ring.count s.config < s.config.xmitCap - 1 :=
  ⟨one_ready (by decide), by decide, by decide, ⟨by decide, by decide, by decide⟩, by decide, by decide⟩

theorem witness_HostStoreWritesOneByte :
    let s := { one port0 with hostMem := [(3, 1), (7, 2)] }
    s.ordinaryReady ∧ Memory.wf s.hostMem := ⟨⟨rfl, rfl, by decide⟩, by decide⟩

/-- For `ActionFrame` and `OnlyItsAccessTouchesTheUart`. -/
theorem witness_ActionFrame :
    let P := live ⟨0, [1], some 2, [3], true, true⟩
    let R := busy ⟨0, [1], some 2, [3], true, true⟩ .sr2
    let s := chosen R (.op 0)
    (∃ t Q, exec (.rdRxdata 0) (one P) = .next t ∧ (one P).ports[0]? = some P ∧ t.ports[0]? = some Q) ∧
      coreAgent s.nextChoice.agent = true ∧ continuedPort s s.nextChoice.agent = some 0 ∧
      s.ports[0]? = some R ∧ ∃ t Q, step s = .next t ∧ t.ports[0]? = some Q :=
  ⟨⟨_, _, rfl, rfl, rfl⟩, rfl, rfl, rfl, _, _, rfl, rfl⟩

/-! ### A fair run -/

/-- Nothing is left to do: no operation, no call, no console write, no handler, nothing to send. -/
structure Still (s : State) : Prop where
  fault : s.fault = none
  calls : s.calls = []
  handler : s.handler = none
  console : s.console = []
  port : ∀ (p : Nat) (P : Port), s.ports[p]? = some P →
    P.ctl = none ∧ P.registered = false ∧ P.hw.txfifo = [] ∧ P.hw.shifter = none

/-- A port at rest. -/
def Port.still (P : Port) : Prop :=
  P.ctl = none ∧ P.registered = false ∧ P.hw.txfifo = [] ∧ P.hw.shifter = none

/-- Writing a port at rest keeps the state still. -/
theorem Still.setPort {s : State} (h : Still s) (p : Nat) {P : Port} (hP : Port.still P) :
    Still (s.setPort p P) := by
  refine ⟨h.fault, h.calls, h.handler, h.console, ?_⟩
  intro q Q hQ
  by_cases hpq : p = q
  · subst hpq
    have hQ' : (s.ports.set p P)[p]? = some Q := hQ
    by_cases hl : p < s.ports.length
    · rw [List.getElem?_set_self hl] at hQ'
      cases hQ'
      exact hP
    · rw [List.getElem?_eq_none (by simpa using hl)] at hQ'
      cases hQ'
  · rw [State.setPort_get_other hpq] at hQ
    exact h.port q Q hQ

/-- No port at rest asks for its handler. -/
theorem Still.quiet {s : State} (h : Still s) : s.dispatchPending = false := by
  simp only [State.dispatchPending, Bool.and_eq_false_iff, List.any_eq_false]
  refine .inr fun P hP => ?_
  obtain ⟨p, hp⟩ := List.getElem?_of_mem hP
  simp [Port.interrupting, (h.port p P hp).2.1]

theorem Still.portEvent {s : State} (h : Still s) (p : Nat) {f : Port → Option Port}
    (hf : ∀ P Q, Port.still P → f P = some Q → Port.still Q) : ∃ t, s.portEvent p f = .next t ∧ Still t := by
  unfold State.portEvent
  split
  · exact ⟨s, rfl, h⟩
  · rename_i P hP
    split
    · exact ⟨s, rfl, h⟩
    · rename_i Q hQ
      exact ⟨_, rfl, h.setPort p (hf P Q (h.port p P hP) hQ)⟩

theorem Still.hwEvent {s : State} (h : Still s) (p : Nat) {f : UartHw → Option UartHw}
    (hf : ∀ hw hw', f hw = some hw' → hw.txfifo = [] → hw.shifter = none →
      hw'.txfifo = [] ∧ hw'.shifter = none) : ∃ t, s.hwEvent p f = .next t ∧ Still t := by
  refine h.portEvent p fun P Q hP hQ => ?_
  simp only [Option.map_eq_some_iff] at hQ
  obtain ⟨hw, hw', rfl⟩ := hQ
  exact ⟨hP.1, hP.2.1, hf _ _ hw' hP.2.2.1 hP.2.2.2⟩

theorem Still.ordinary {s : State} (h : Still s) {f : State → Out State}
    (hf : ∃ t, f s = .next t ∧ Still t) : ∃ t, s.ordinary f = .next t ∧ Still t := by
  rwa [State.ordinary_ready h.handler h.quiet]

/-- Every step of a still state answers a still state. -/
theorem Still.run {s : State} (h : Still s) (a : Agent) : ∃ t, s.runAgent a = .next t ∧ Still t := by
  cases a with
  | call => exact h.ordinary ⟨s, by simp [State.callAgent, h.calls, decode, State.undecoded], h⟩
  | op p =>
    refine h.ordinary ⟨s, ?_, h⟩
    unfold State.opAgent
    split
    · rfl
    · rename_i P hP
      rw [(h.port p P hP).1]
  | console k => exact h.ordinary ⟨s, by simp [State.consoleAgent, h.console], h⟩
  | handler => exact ⟨s, by simp [State.runAgent, State.runHandler, State.handlerAgent, h.handler], h⟩
  | dispatch p =>
    refine ⟨s, ?_, h⟩
    have hq := h.quiet
    have hd : s.dispatchEnabled p = false := by
      refine Bool.eq_false_iff.mpr fun hd => ?_
      simp [State.dispatchPending_of_enabled hd] at hq
    simp [State.runAgent, State.dispatchAgent, hd]
  | txLoad p =>
    refine h.hwEvent p fun hw hw' hq ht hs => ?_
    simp [UartHw.txLoad, ht, hs] at hq
  | txDone p =>
    refine h.portEvent p fun P Q hP hq => ?_
    simp [Port.txDone, hP.2.2.2] at hq
  | rx p b ovr =>
    simp only [State.runAgent]
    refine h.hwEvent p fun hw hw' hq ht hs => ?_
    cases hq
    unfold UartHw.rx UartHw.rxEvent UartHw.overrun
    repeat' split
    all_goals exact ⟨ht, hs⟩
  | pendTx p =>
    refine h.hwEvent p fun hw hw' hq ht hs => ?_
    unfold UartHw.pendTx at hq
    split at hq <;> cases hq
    exact ⟨ht, hs⟩
  | pendRx p =>
    refine h.hwEvent p fun hw hw' hq ht hs => ?_
    unfold UartHw.pendRx at hq
    split at hq <;> cases hq
    exact ⟨ht, hs⟩
  | hostPut p b =>
    refine h.ordinary (h.portEvent p fun P Q hP hq => ?_)
    unfold Port.hostPut at hq
    split at hq <;> cases hq
    exact hP
  | hostPublish p =>
    refine h.ordinary (h.portEvent p fun P Q hP hq => ?_)
    unfold Port.hostPublish at hq
    split at hq <;> cases hq
    exact hP
  | hostTake p =>
    refine h.ordinary (h.portEvent p fun P Q hP hq => ?_)
    unfold Port.hostTake at hq
    split at hq <;> cases hq
    exact hP
  | hostStore a b =>
    simp only [State.runAgent]
    exact h.ordinary ⟨_, rfl, h.fault, h.calls, h.handler, h.console, h.port⟩
  | setMasked m =>
    simp only [State.runAgent]
    exact h.ordinary ⟨_, rfl, h.fault, h.calls, h.handler, h.console, h.port⟩

theorem Still.step {s : State} (h : Still s) : ∃ t, step s = .next t ∧ Still t := by
  rw [step_of_noFault h.fault]
  exact Still.run (s := s.chosen) ⟨h.fault, h.calls, h.handler, h.console, h.port⟩ _

/-- The run from a state, as long as its steps answer a next state. -/
def runFrom (s : State) : Nat → State
  | 0 => s
  | n + 1 => match step (runFrom s n) with
    | .next t => t
    | _ => runFrom s n

/-- A port with one byte in the shifter, and the choice that sends it listed. -/
def sending : State := chosen (hwPort ⟨0, [], some 0x41, [], false, false⟩) (.txDone 0)

theorem sending_next : ∃ t, step sending = .next t ∧ Still t := by
  refine ⟨_, rfl, rfl, rfl, rfl, rfl, ?_⟩
  intro p P hP
  cases p with
  | zero =>
    cases hP
    exact ⟨rfl, rfl, rfl, rfl⟩
  | succ p => cases hP

theorem sending_still (n : Nat) :
    step (runFrom sending n) = .next (runFrom sending (n + 1)) ∧ Still (runFrom sending (n + 1)) := by
  induction n with
  | zero =>
    obtain ⟨t, ht, hs⟩ := sending_next
    have h1 : runFrom sending 1 = t := by
      show (match step sending with | .next t => t | _ => sending) = t
      rw [ht]
    rw [h1]
    exact ⟨ht, hs⟩
  | succ n ih =>
    obtain ⟨t, ht, hs⟩ := ih.2.step
    have h1 : runFrom sending (n + 2) = t := by
      show (match step (runFrom sending (n + 1)) with | .next t => t | _ => runFrom sending (n + 1)) = t
      rw [ht]
    rw [h1]
    exact ⟨ht, hs⟩

/-- A run in which the transmitter is fair and a byte waits in the shifter. -/
theorem witness_FairTransmitterSendsTheShifter :
    let run := runFrom sending
    IsRun run ∧ TransmitterFair run ∧ (run 0).ports[0]? = some (hwPort ⟨0, [], some 0x41, [], false, false⟩) ∧
      (hwPort ⟨0, [], some 0x41, [], false, false⟩).hw.shifter = some 0x41 ∧
      (run 0).config.enGatesTx = false := by
  refine ⟨fun n => (sending_still n).1, ?_, rfl, rfl, rfl⟩
  intro p n
  constructor
  · intro h
    obtain ⟨P, hP, hs, -⟩ := h (n + 1) (by omega)
    exact absurd ((sending_still n).2.port p P hP).2.2.2 hs
  · intro h
    obtain ⟨P, hP, -, hf, -⟩ := h (n + 1) (by omega)
    exact absurd ((sending_still n).2.port p P hP).2.2.1 hf

end Sys2Proof.Tests
end

section
/-!
PROOFS. The scope of the model (spec/00_scope.md): the system invariant holds at every admitted start state and
every step of every agent keeps it; no step changes a parameter or what the glue gave a port; `tx_empty`.
-/

namespace Sys2Proof.Machine

/-! ## The events of a port, where they are enabled -/

section Events
variable {c : Config} {b : Byte} {P Q : Port}

/-- `tx_done` sends the byte in the shifter (R162). -/
theorem Port.txDone_cases (h : P.txDone c = some Q) :
    ∃ b, P.hw.shifter = some b ∧ P.hw.txGate c = true ∧
      Q = { P with lineOut := P.lineOut ++ [b], hw := { P.hw with shifter := none } } := by
  unfold Port.txDone at h
  split at h
  · rename_i b hb
    split at h
    · rename_i hg
      cases h
      exact ⟨b, hb, hg, rfl⟩
    · cases h
  · cases h

/-- `hp0` stores a byte at the ring's head while there is room for it (R188). -/
theorem Port.hostPut_cases (h : P.hostPut c b = some Q) :
    P.producing = false ∧ P.ring.count c < c.xmitCap - 1 ∧
      Q = { P with ring := { P.ring with buf := P.ring.buf.set P.ring.head b }, producing := true } := by
  unfold Port.hostPut at h
  split at h
  · rename_i hr
    cases h
    exact ⟨hr.1, hr.2, rfl⟩
  · cases h

/-- `hp1` advances the ring's head (R188). -/
theorem Port.hostPublish_cases (h : P.hostPublish c = some Q) :
    P.producing = true ∧
      Q = { P with ring := { P.ring with head := ringNext c P.ring.head }, producing := false } := by
  unfold Port.hostPublish at h
  split at h
  · rename_i hp
    cases h
    exact ⟨hp, rfl⟩
  · cases h

/-- The reader takes one published item (R44). -/
theorem Port.hostTake_cases (h : P.hostTake = some Q) :
    0 < P.inq.published ∧ Q = { P with inq := ⟨P.inq.items.tail, P.inq.published - 1⟩ } := by
  unfold Port.hostTake at h
  split at h
  · rename_i hp
    cases h
    exact ⟨hp, rfl⟩
  · cases h

/-- No step of any agent touches what the glue gave the port it changes (R41, R66). -/
theorem Port.Change.keeps_glue (h : Port.Change c P Q) :
    Q.base = P.base ∧ Q.irq = P.irq ∧ Q.line = P.line ∧ Q.mapped = P.mapped := by
  rcases h with ⟨h, -⟩ | ⟨hw, rfl, -⟩ | h | ⟨b, h⟩ | h | h
  · exact ⟨h.base, h.irq, h.line, h.mapped⟩
  · exact ⟨rfl, rfl, rfl, rfl⟩
  · obtain ⟨b, -, -, rfl⟩ := Port.txDone_cases h
    exact ⟨rfl, rfl, rfl, rfl⟩
  · obtain ⟨-, -, rfl⟩ := Port.hostPut_cases h
    exact ⟨rfl, rfl, rfl, rfl⟩
  · obtain ⟨-, rfl⟩ := Port.hostPublish_cases h
    exact ⟨rfl, rfl, rfl, rfl⟩
  · obtain ⟨-, rfl⟩ := Port.hostTake_cases h
    exact ⟨rfl, rfl, rfl, rfl⟩

end Events

/-! ## What a step does to the slots -/

section Slots
variable {s t : State} {p : Nat} {P Q : Port}

/-- No step creates or removes a port (R6, R41). -/
theorem SysStep.ports_length (h : SysStep s t) : t.ports.length = s.ports.length := by
  rcases h.ports with hp | ⟨p, P, Q, -, hp, -⟩ <;> simp [hp]

/-- A step writes one slot at most (R173). -/
theorem SysStep.ports_except (h : SysStep s t) :
    ∃ p : Nat, ∀ q : Nat, q ≠ p → t.ports[q]? = s.ports[q]? := by
  rcases h.ports with hp | ⟨p, P, Q, -, hp, -⟩
  · exact ⟨0, fun q _ => by rw [hp]⟩
  · exact ⟨p, fun q hq => by rw [hp, List.getElem?_set_ne hq.symm]⟩

/-- The port of an occupied slot after a step: as it was, or changed by the agent that stepped; its registration
stays while a handler runs. -/
theorem SysStep.slot_after (h : SysStep s t) (hP : s.ports[p]? = some P) :
    ∃ Q, t.ports[p]? = some Q ∧ (Q = P ∨ Port.Change s.config P Q) ∧
      (s.handler ≠ none → Q.registered = P.registered) := by
  rcases h.ports with hp | ⟨q, P', Q, hP', hp, hc, hr⟩
  · exact ⟨P, by rw [hp, hP], .inl rfl, fun _ => rfl⟩
  by_cases hq : q = p
  · subst hq
    obtain rfl : P' = P := Option.some.inj (hP'.symm.trans hP)
    have hlt : q < s.ports.length := (List.getElem?_eq_some_iff.mp hP).1
    exact ⟨Q, by simp [hp, hlt], .inr hc, hr⟩
  · exact ⟨P, by rw [hp, List.getElem?_set_ne hq, hP], .inl rfl, fun _ => rfl⟩

/-- The port a slot held before the step. -/
theorem SysStep.slot_before (h : SysStep s t) (hQ : t.ports[p]? = some Q) :
    ∃ P, s.ports[p]? = some P ∧ (Q = P ∨ Port.Change s.config P Q) := by
  have hlt : p < s.ports.length := h.ports_length ▸ (List.getElem?_eq_some_iff.mp hQ).1
  have hP : s.ports[p]? = some s.ports[p] := List.getElem?_eq_getElem hlt
  obtain ⟨Q', hQ', hc, -⟩ := h.slot_after hP
  obtain rfl : Q' = Q := Option.some.inj (hQ'.symm.trans hQ)
  exact ⟨_, hP, hc⟩

/-- A step keeps what the glue gave the port in a slot (R41, R66, R214). -/
theorem SysStep.keeps_glue (h : SysStep s t) (hP : s.ports[p]? = some P) (hQ : t.ports[p]? = some Q) :
    Q.base = P.base ∧ Q.irq = P.irq ∧ Q.line = P.line ∧ Q.mapped = P.mapped := by
  obtain ⟨Q', hQ', hc, -⟩ := h.slot_after hP
  obtain rfl : Q' = Q := Option.some.inj (hQ'.symm.trans hQ)
  rcases hc with rfl | hc
  · exact ⟨rfl, rfl, rfl, rfl⟩
  · exact hc.keeps_glue

end Slots

/-! ## The invariant is kept -/

/-- Dispatch is enabled only for a port whose handler is registered (R182). -/
theorem State.registered_of_dispatchEnabled {s : State} {p : Nat} (h : s.dispatchEnabled p = true) :
    ∃ P, s.ports[p]? = some P ∧ P.registered = true := by
  simp only [State.dispatchEnabled, Bool.and_eq_true, Option.any_eq_true_iff_get,
    Port.interrupting] at h
  obtain ⟨-, hs, hr, -⟩ := h
  exact ⟨_, (Option.some_get hs).symm, hr⟩

/-- A handler that was running, or that dispatch has just entered, serves a registered port (R182). -/
theorem SysStep.handler_registered {s t : State} (h : SysStep s t)
    (hs : ∀ g, s.handler = some g → ∃ P, s.ports[g.port]? = some P ∧ P.registered = true)
    {g : HandlerRun} (hg : t.handler = some g) :
    ∃ P, t.ports[g.port]? = some P ∧ P.registered = true := by
  have running : ∀ g', s.handler = some g' → g'.port = g.port →
      ∃ P, t.ports[g.port]? = some P ∧ P.registered = true := by
    intro g' hg' hport
    obtain ⟨P, hP, hreg⟩ := hs g' hg'
    obtain ⟨Q, hQ, -, hkeep⟩ := h.slot_after (hport ▸ hP)
    exact ⟨Q, hQ, (hkeep (by simp [hg'])).trans hreg⟩
  rcases h.handler with hh | hh | ⟨g₀, g₁, h₀, h₁, hport⟩ | ⟨p, hh, hd, hp⟩
  · exact running g (hh.symm.trans hg) rfl
  · simp [hh] at hg
  · obtain rfl : g₁ = g := Option.some.inj (h₁.symm.trans hg)
    exact running g₀ h₀ hport
  · obtain rfl : ⟨p, .ih0⟩ = g := Option.some.inj (hh.symm.trans hg)
    rw [hp]
    exact State.registered_of_dispatchEnabled hd

/-- The invariant follows a step. -/
theorem SysStep.inv {s t : State} (h : SysStep s t) (hs : s.Inv) : t.Inv where
  config := h.config ▸ hs.config
  count := h.ports_length ▸ hs.count
  ports p Q hQ := by
    rw [h.config]
    obtain ⟨P, hP, rfl | hc⟩ := h.slot_before hQ
    · exact hs.ports p Q hP
    · exact portOk_change hs.config (hs.ports p P hP) hc
  windows p q P' Q' hP' hQ' hpq := by
    obtain ⟨P, hP, -⟩ := h.slot_before hP'
    obtain ⟨Q, hQ, -⟩ := h.slot_before hQ'
    rw [(h.keeps_glue hP hP').1, (h.keeps_glue hQ hQ').1]
    exact hs.windows p q P Q hP hQ hpq
  memory := h.mem hs.memory
  handler _ hg := h.handler_registered hs.handler hg
  console hc := h.ports_length ▸ (h.console hc).elim hs.console id

/-- Settles O7: the invariant follows from what a step can do (`SysStep.of_step`). -/
theorem everyStepKeepsTheInvariant : Obligations.EveryStepKeepsTheInvariant :=
  fun _ _ hs h => (SysStep.of_step h).inv hs

/-! ## The CPU's mask -/

section Mask
variable {s t : State}

theorem State.portEvent_cpuMasked {p : Nat} {f : Port → Option Port} (h : s.portEvent p f = .next t) :
    t.cpuMasked = s.cpuMasked := by
  rcases State.portEvent_cases h with ⟨P, Q, -, -, rfl⟩ | rfl <;> rfl

/-- An ordinary step keeps the mask when its agent does. -/
theorem State.ordinary_cpuMasked {f : State → Out State}
    (hf : f s = .next t → t.cpuMasked = s.cpuMasked) (h : s.ordinary f = .next t) :
    t.cpuMasked = s.cpuMasked := by
  rcases State.ordinary_cases h with ⟨-, -, h⟩ | rfl
  · exact hf h
  · rfl

theorem exec_cpuMasked {i : Instr} (h : exec i s = .next t) : t.cpuMasked = s.cpuMasked := by
  obtain ⟨⟨p, hc⟩, -⟩ := CoreStep.of_exec h
  exact hc.cpuMasked

theorem State.callAgent_cpuMasked (h : s.callAgent = .next t) : t.cpuMasked = s.cpuMasked := by
  unfold State.callAgent at h
  split at h
  · exact (exec_cpuMasked h :)
  · rename_i e _
    cases e <;> cases h <;> rfl

theorem State.consoleAgent_cpuMasked {k : Nat} (h : s.consoleAgent k = .next t) :
    t.cpuMasked = s.cpuMasked := by
  unfold State.consoleAgent at h
  split at h
  · cases h
    rfl
  · exact (CoreStep.of_onConsole h
      (fun P Q o hq => ⟨(consoleStep_inner hq).toStepOf, consoleStep_hwOnly hq⟩)
      (fun o u => by simp)).1.cpuMasked

theorem State.handlerAgent_cpuMasked (h : s.handlerAgent = .next t) : t.cpuMasked = s.cpuMasked := by
  cases hh : s.handler with
  | none =>
    simp only [State.handlerAgent, hh, Host.Outcome.next.injEq] at h
    rw [h]
  | some g => exact (CoreStep.of_handlerAgent hh h).cpuMasked

theorem State.runHandler_cpuMasked (h : s.runHandler = .next t) : t.cpuMasked = s.cpuMasked := by
  unfold State.runHandler at h
  split at h
  · exact exec_cpuMasked h
  · exact State.handlerAgent_cpuMasked h

/-- Every agent but the caller's setting of the mask keeps it (R46). -/
theorem State.runAgent_cpuMasked {a : Agent} (ha : ∀ m, a ≠ .setMasked m)
    (h : s.runAgent a = .next t) : t.cpuMasked = s.cpuMasked := by
  cases a with
  | call => exact State.ordinary_cpuMasked State.callAgent_cpuMasked h
  | op p => exact State.ordinary_cpuMasked (fun h => (CoreStep.of_opAgent h).1.cpuMasked) h
  | console k => exact State.ordinary_cpuMasked State.consoleAgent_cpuMasked h
  | handler => exact State.runHandler_cpuMasked h
  | dispatch p =>
    simp only [State.runAgent, State.dispatchAgent, Host.Outcome.next.injEq] at h
    subst h
    split <;> rfl
  | txLoad p => exact State.portEvent_cpuMasked h
  | txDone p => exact State.portEvent_cpuMasked h
  | rx p b ovr =>
    simp only [State.runAgent] at h
    exact State.portEvent_cpuMasked h
  | pendTx p => exact State.portEvent_cpuMasked h
  | pendRx p => exact State.portEvent_cpuMasked h
  | hostPut p b => exact State.ordinary_cpuMasked State.portEvent_cpuMasked h
  | hostPublish p => exact State.ordinary_cpuMasked State.portEvent_cpuMasked h
  | hostTake p => exact State.ordinary_cpuMasked State.portEvent_cpuMasked h
  | hostStore a b =>
    simp only [State.runAgent] at h
    refine State.ordinary_cpuMasked (fun h => ?_) h
    cases h
    rfl
  | setMasked m => exact absurd rfl (ha m)

/-- A step keeps the mask unless its chosen agent sets it (R46). -/
theorem step_cpuMasked (ha : ∀ m, s.nextChoice.agent ≠ .setMasked m) (h : step s = .next t) :
    t.cpuMasked = s.cpuMasked := by
  rw [step_of_noFault (step_next_noFault h)] at h
  exact (State.runAgent_cpuMasked ha h).trans s.chosen_cpuMasked

/-- The caller's setting of the mask, where ordinary code can step (R46). -/
theorem step_setMasked {m : Bool} {d : Word} {chs : List Choice} (hr : s.ordinaryReady)
    (hs : s.schedule = ⟨.setMasked m, d⟩ :: chs) :
    step s = .next { s with cpuMasked := m, schedule := chs, tick := s.tick + 1, draw := d } := by
  obtain ⟨hf, hh, hd⟩ := hr
  rw [step_of_choice hf hs]
  exact State.ordinary_ready (f := fun u => .next { u with cpuMasked := m }) hh hd

end Mask

/-- Settles O10: configuration and ports from what a step can do, the mask agent by agent. -/
theorem stepsKeepWhatTheGlueGave : Obligations.StepsKeepWhatTheGlueGave := by
  refine ⟨fun s t h => ?_, fun s m d chs => step_setMasked⟩
  have hs := SysStep.of_step h
  exact ⟨hs.config, hs.ports_length, fun p P Q => hs.keeps_glue, hs.ports_except,
    fun ha => step_cpuMasked ha h⟩

/-! ## `tx_empty` -/

/-- `tx_empty` of an Idle, Active and mapped port: one read of Status, of which it returns `TXFE` (R134). -/
theorem Port.txEmptyAction_active {P : Port} (c : Config) (d : Word) (hm : P.mapped = true)
    (hc : P.ctl = none) (hl : P.life = .active) :
    P.txEmptyAction c d = .ok { P with ret := .word (if P.hw.txfe then TX_EMPTY_TRUE else 0) } := by
  have hentry : P.enterLifecycle (Port.requireLife .active .txEmpty) = .ok P :=
    Port.enterLifecycle_idle (Port.requireLife_ok _ hl) hc hc
  simp [Port.txEmptyAction, hentry, hm]

/-- Settles O38: `TXFE` is the emptiness of the TX FIFO, which the shifter is no part of (R32). -/
theorem txEmptyIgnoresTheShifter : Obligations.TxEmptyIgnoresTheShifter := by
  intro s p P hP hm hc hl
  have hstep : exec (.txEmpty p) s = _ :=
    State.onPort_ok hP (Port.txEmptyAction_active s.config s.draw hm hc hl)
  simpa [UartHw.txfe, TX_EMPTY_TRUE] using hstep

/-! ## The invariant at the start -/

theorem windowsApart.symm {a b : Addr} (h : windowsApart a b) : windowsApart b a := ⟨h.2, h.1⟩

/-- A port as the glue creates it is sound (R8, R211, R213). -/
theorem Port.created_ok {c : Config} {p : Nat} {g : PortInit} (h : g.ok c) :
    (Port.created p g).Ok c p := by
  obtain ⟨hbase, hbuf, hindex⟩ := h
  exact
    { line := rfl
      aligned := hbase
      txfifo := Nat.zero_le _
      rxfifo := Nat.zero_le _
      ring := ⟨hbuf, hindex, hindex⟩
      published := Nat.le_refl _
      life := by simp [Port.lifeOk, Port.created, inStartup, inShutdown] }

/-- The port in a slot of a start state is the one the glue created there. -/
theorem State.resetWith_slot {c : Config} {masked : Bool} {d : Word} {gs : List PortInit} {p : Nat}
    {P : Port} (h : (State.resetWith c masked d gs).ports[p]? = some P) :
    ∃ g, gs[p]? = some g ∧ P = Port.created p g := by
  simp only [State.resetWith, List.getElem?_mapIdx, Option.map_eq_some_iff] at h
  obtain ⟨g, hg, rfl⟩ := h
  exact ⟨g, hg, rfl⟩

/-- Two windows of ports the glue placed apart share no byte, in either order of the ports (R65). -/
theorem glueOk.windowsApart {gs : List PortInit} (h : glueOk gs) {p q : Nat} {g g' : PortInit}
    (hg : gs[p]? = some g) (hg' : gs[q]? = some g') (hpq : p ≠ q) : windowsApart g.base g'.base := by
  obtain ⟨hp, rfl⟩ := List.getElem?_eq_some_iff.mp hg
  obtain ⟨hq, rfl⟩ := List.getElem?_eq_some_iff.mp hg'
  rcases Nat.lt_or_gt_of_ne hpq with hlt | hlt
  · exact List.pairwise_iff_getElem.mp h p q hp hq hlt
  · exact (List.pairwise_iff_getElem.mp h q p hq hp hlt).symm

/-- Every admitted start state is sound (R210 to R213). -/
theorem State.resetWith_inv {c : Config} (masked : Bool) (d : Word) {gs : List PortInit}
    (hc : c.wf = true) (hn : gs.length ≤ lineMax + 1) (hg : ∀ g ∈ gs, g.ok c) (ha : glueOk gs) :
    (State.resetWith c masked d gs).Inv where
  config := hc
  count := by simpa [State.resetWith] using hn
  ports p P hP := by
    obtain ⟨g, hgp, rfl⟩ := State.resetWith_slot hP
    exact Port.created_ok (hg g (List.mem_of_getElem? hgp))
  windows p q P Q hP hQ hpq := by
    obtain ⟨g, hgp, rfl⟩ := State.resetWith_slot hP
    obtain ⟨g', hgq, rfl⟩ := State.resetWith_slot hQ
    exact ha.windowsApart hgp hgq hpq
  memory := List.Pairwise.nil
  handler _ hh := nomatch hh
  console hne := absurd rfl hne

/-- Settles O8: a start state's ports are sound as the glue created them, and `State.reset` is an admitted one. -/
theorem resetHasTheInvariant : Obligations.ResetHasTheInvariant := by
  refine ⟨fun c masked d gs => State.resetWith_inv masked d, ?_⟩
  have hports : ∀ g ∈ (List.range 6).map PortInit.default, g.ok Config.reference := by
    unfold PortInit.ok
    decide
  have hglue : glueOk ((List.range 6).map PortInit.default) := by
    unfold glueOk windowsApart
    decide
  exact State.resetWith_inv false 0 (by decide) (by decide) hports hglue

end Sys2Proof.Machine
end

section
/-!
PROOFS. The caller's step, and the actions of a single access (spec/40_register_interface.md R90 to R98): the eight
bus accesses and `test_bit`.
-/

namespace Sys2Proof.Machine

/-! ## The caller's step -/

/-- Settles O5: the ordinary context has the step, and the caller's bytes name the action. -/
theorem stepRunsTheDecodedAction : Obligations.StepRunsTheDecodedAction := by
  intro s i rest d chs ⟨hf, hh, hd⟩ hs hdec
  rw [step_of_choice hf hs]
  refine (State.ordinary_ready (f := State.callAgent) (by exact hh) (by exact hd)).trans ?_
  simp [State.callAgent, hdec]

/-! ## The bits of Status -/

/-- The named Status bits are single bits (R74). -/
theorem statusMasks_eq_twoPow :
    TXBUSY = .twoPow 32 17 ∧ TXFE = .twoPow 32 10 ∧ RXFF = .twoPow 32 9 ∧ TXFF = .twoPow 32 6 ∧
      RXFE = .twoPow 32 5 ∧ TXPEND = .twoPow 32 1 ∧ RXPEND = .twoPow 32 0 := by decide

/-- The reserved places of Status are all but the seven named ones (R74). -/
theorem statusReserved_getLsbD :
    ∀ i < 32, STAT_RSVD.getLsbD i = decide (i ∉ [17, 10, 9, 6, 5, 1, 0]) := by decide

/-- A flag shows at its own place alone. -/
theorem flagAt_twoPow_getLsbD (b : Bool) (n : Nat) {i : Nat} (hi : i < 32) :
    (flagAt b (.twoPow 32 n)).getLsbD i = (b && decide (i = n)) := by
  cases b <;> simp [flagAt, hi, eq_comm]

/-- Each bit of a Status read: the flag named at its place, or the draw's bit in a reserved place (R38, R95). -/
theorem statusRead_bit (c : Config) (d : Word) (hw : UartHw) {i : Nat} (hi : i < 32) :
    (hw.statusRead c d).getLsbD i =
      (hw.txbusy && decide (i = 17) || hw.txfe && decide (i = 10) || hw.rxff c && decide (i = 9) ||
        hw.txff c && decide (i = 6) || hw.rxfe && decide (i = 5) || hw.txpend && decide (i = 1) ||
        hw.rxpend && decide (i = 0) ||
        d.getLsbD i && decide (i ∉ [17, 10, 9, 6, 5, 1, 0])) := by
  obtain ⟨hbusy, htxfe, hrxff, htxff, hrxfe, htx, hrx⟩ := statusMasks_eq_twoPow
  simp only [statusRead_getLsbD, statusReserved_getLsbD i hi, UartHw.statusNamed, hbusy, htxfe,
    hrxff, htxff, hrxfe, htx, hrx, BitVec.getLsbD_or, flagAt_twoPow_getLsbD _ _ hi]

/-- `TXBUSY` is 0 exactly when neither the TX FIFO nor the shifter holds a byte (R31). -/
theorem UartHw.txbusy_iff (hw : UartHw) :
    hw.txbusy = true ↔ 0 < hw.txfifo.length ∨ hw.shifter ≠ none := by
  simp [UartHw.txbusy, List.length_pos_iff, Option.isSome_iff_ne_none]

/-! ## Bus accesses -/

/-- A read action returns the value that its one access read (R80, R90). -/
theorem Port.readAction_of_regRead {P Q : Port} {c : Config} {d v : Word} {r : Reg}
    (h : P.regRead c d r = .ok (v, Q)) : P.readAction c d r = .ok { Q with ret := .word v } := by
  simp [Port.readAction, h]

/-- Settles O12: Control reads as stored, TX-Data as the draw. -/
theorem readsOfControlAndTxData : Obligations.ReadsOfControlAndTxData := by
  intro s p P hP hm
  exact ⟨State.onPort_ok hP (Port.readAction_of_regRead (Port.regRead_ctrl _ _ hm)),
    State.onPort_ok hP (Port.readAction_of_regRead (Port.regRead_txdata _ _ hm))⟩

/-- Settles O13: the value is `statusRead`, bit by bit. -/
theorem readOfStatus : Obligations.ReadOfStatus := by
  intro s p P hP hm
  have hbit {i : Nat} (hi : i < 32) := statusRead_bit s.config s.draw P.hw hi
  refine ⟨P.hw.statusRead s.config s.draw,
    State.onPort_ok hP (Port.readAction_of_regRead (Port.regRead_status _ _ hm)),
    ?_, ?_, ?_, ?_, ?_, statusRead_txpend .., statusRead_rxpend .., ?_⟩
  · rw [hbit (by decide)]
    simpa using P.hw.txbusy_iff
  · rw [hbit (by decide)]
    simp [UartHw.txfe]
  · rw [hbit (by decide)]
    simp [UartHw.rxff]
  · rw [hbit (by decide)]
    simp [UartHw.txff]
  · rw [hbit (by decide)]
    simp [UartHw.rxfe]
  · intro i hi hnamed
    rw [hbit hi]
    simp only [List.mem_cons, List.not_mem_nil, or_false, not_or] at hnamed
    simp [hnamed]

/-- The draw's part of a read of RX-Data (R92). -/
theorem rxValue_high (d : Word) (b : Byte) : (rxValue d b).extractLsb' 8 24 = d.extractLsb' 8 24 :=
  BitVec.extractLsb'_append_eq_left

/-- Settles O14: the oldest byte is in bits 7:0, the draw in the others. -/
theorem readOfRxData : Obligations.ReadOfRxData := by
  intro s p P hP hm
  refine ⟨fun hr => State.onPort_ok hP
    (Port.readAction_of_regRead (Port.regRead_rxdata_empty _ _ hm hr)), fun b bs hr => ?_⟩
  exact ⟨rxValue s.draw b, lowByte_rxValue _ _, rxValue_high _ _, State.onPort_ok hP
    (Port.readAction_of_regRead (Port.regRead_rxdata_cons _ _ hm hr))⟩

/-- Settles O15: a write of RX-Data puts back the port that is there. -/
theorem writesOfControlAndRxData : Obligations.WritesOfControlAndRxData := by
  intro s p P v hP hm
  have hrx : exec (.wrRxdata p v) s = .next (s.setPort p P) :=
    State.onPort_ok hP (Port.regWrite_rxdata _ v hm)
  exact ⟨State.onPort_ok hP (Port.regWrite_ctrl _ v hm), by rw [hrx, State.setPort_self hP]⟩

/-- Settles O16: both pending bits are `pendAfterWrite`. -/
theorem writeOfStatus : Obligations.WriteOfStatus := by
  intro s p P v hP hm
  refine ⟨pendAfterWrite s.config (v.getLsbD 1) P.hw.txpend,
    pendAfterWrite s.config (v.getLsbD 0) P.hw.rxpend,
    State.onPort_ok hP (Port.regWrite_status _ v hm), ?_, ?_, ?_, ?_⟩ <;>
  · intro hv
    rw [hv]
    rfl

/-- Settles O17: room and a full FIFO are the two answers of a write of TX-Data. -/
theorem writeOfTxData : Obligations.WriteOfTxData := by
  intro s p P v hP hm
  exact ⟨fun hroom => State.onPort_ok hP (Port.regWrite_txdata_room _ v hm hroom),
    fun hfull => State.onPort_error hP (Port.regWrite_txdata_full _ v hm hfull)⟩

/-! ## `test_bit` -/

/-- `test_bit` on an admitted register returns what its one read tells (R98). -/
theorem Port.testAction_of_testBit {P Q : Port} {c : Config} {d mask : Word} {reg : Byte} {r : Reg}
    {b : Bool} (hr : bitopReg reg = .ok r) (h : P.testBit c d r mask = .ok (b, Q)) :
    P.testAction c d reg mask = .ok { Q with ret := .bool b } := by
  simp [Port.testAction, hr, h]

/-- A mask of named bits has no reserved bit (R74). -/
theorem and_statusReserved_of_named {mask : Word} (h : mask &&& ~~~STAT_NAMED = 0) :
    mask &&& STAT_RSVD = 0 := by
  rwa [show STAT_RSVD = ~~~STAT_NAMED by decide]

/-- `anyBit` as a decision. -/
theorem anyBit_eq_decide (v mask : Word) : anyBit v mask = decide (v &&& mask ≠ 0) := by
  simp [anyBit, bne, BEq.beq]

/-- Settles O21: on Status the reserved bits, and so the draw, are masked away. -/
theorem testBitReturnsAnyMaskedBit : Obligations.TestBitReturnsAnyMaskedBit := by
  intro s p P mask hP hm
  simp only [← anyBit_eq_decide]
  refine ⟨State.onPort_ok hP (Port.testAction_of_testBit rfl (Port.testBit_ctrl _ _ _ hm)), fun hn => ?_⟩
  rw [← anyBit_statusRead _ s.draw _ _ (and_statusReserved_of_named hn)]
  exact State.onPort_ok hP (Port.testAction_of_testBit rfl (Port.testBit_status _ _ _ hm))

end Sys2Proof.Machine
end

section
/-!
PROOFS. The drain (spec/41_txrx_engine.md R111, R120): what each of its steps does to a mapped port, and an
undisturbed run of a direct one, by induction on the bytes that wait in the RX FIFO.
-/

namespace Sys2Proof.Machine

/-! ## A port at a control point -/

/-- The port standing at a control point. -/
def Port.atPoint (pt : Option OpPoint) (P : Port) : Port := { P with ctl := pt }

@[simp] theorem opChoices_cons (p : Nat) (d : Word) (ds : List Word) :
    opChoices p (d :: ds) = ⟨.op p, d⟩ :: opChoices p ds := rfl

/-- A direct drain's step is the drain's, and the port stands at the drain's next point. -/
theorem Port.runOp_rxDrain {c : Config} {d : Word} {q : DrainPoint} {P Q : Port} {o : Option DrainPoint}
    (h : drainStep c d q P = .ok (Q, o)) :
    P.runOp c d (.rxDrain q) = .ok (Q.atPoint (o.map .rxDrain)) := by
  cases o <;> simp [Port.runOp, opStep, h, andThen, done, Port.atPoint]

/-! ## The steps of the drain -/

/-- Where the test of `RXFE` at `rd0` sends the drain (R111). -/
def Port.drainPoint (P : Port) : DrainPoint := if P.hw.rxfe then .rdFlush else .rd1

/-- A port once its drain has delivered the byte `b` and left `bs` in the RX FIFO (R111). -/
def Port.delivered (b : Byte) (bs : List Byte) (P : Port) : Port :=
  { P with hw := { P.hw with rxfifo := bs }, inq := P.inq.push b, rxCount := P.rxCount + 1 }

section DrainStep
variable {P : Port} {b : Byte} {bs : List Byte} (c : Config) (d : Word)

theorem Port.drainPoint_empty (hr : P.hw.rxfifo = []) : P.drainPoint = .rdFlush := by
  simp [Port.drainPoint, UartHw.rxfe, hr]

theorem Port.drainPoint_cons (hr : P.hw.rxfifo = b :: bs) : P.drainPoint = .rd1 := by
  simp [Port.drainPoint, UartHw.rxfe, hr]

theorem drainStep_rd0 (h : P.mapped = true) : drainStep c d .rd0 P = .ok (P, some P.drainPoint) := by
  simp [drainStep, h, Port.drainPoint]

theorem drainStep_rd1 (h : P.mapped = true) (hr : P.hw.rxfifo = b :: bs) :
    drainStep c d .rd1 P = .ok (P.delivered b bs, some .rd0) := by
  simp [drainStep, Port.regRead_rxdata_cons c d h hr, Port.delivered]

/-- On an empty RX FIFO the flush is all that draining is. -/
theorem drainStep_rdFlush (hr : P.hw.rxfifo = []) :
    drainStep c d .rdFlush P = .ok (drained P, none) := by
  have hhw : { P.hw with rxfifo := [] } = P.hw := by rw [← hr]
  simp [drainStep, drained, InputQueue.flush, hr, hhw]

/-- Draining is delivering the oldest byte and draining the rest. -/
theorem drained_delivered (hr : P.hw.rxfifo = b :: bs) : drained (P.delivered b bs) = drained P := by
  have hcount : 1#32 + BitVec.ofNat 32 bs.length = BitVec.ofNat 32 (bs.length + 1) := by
    rw [Nat.add_comm, BitVec.ofNat_add]
  simp [drained, Port.delivered, InputQueue.push, hr, BitVec.add_assoc, hcount, Nat.add_assoc,
    Nat.add_comm 1]

end DrainStep

/-! ## An undisturbed drain -/

/-- A direct drain that its first test has sent on, with no other agent in between, delivers what waits in the
RX FIFO, publishes it and ends. -/
theorem State.runChoices_rxDrain {s : State} {p : Nat} {P₀ P : Port} {fifo : List Byte} {ds : List Word}
    (hr : s.ordinaryReady) (hP : s.ports[p]? = some P₀)
    (hi : P₀.interrupting s.config = false → P.interrupting s.config = false) (hm : P.mapped = true)
    (hfifo : P.hw.rxfifo = fifo) (hlen : ds.length = 2 * fifo.length + 1) :
    (s.setPort p (P.atPoint (some (.rxDrain P.drainPoint)))).runChoices (opChoices p ds) =
      .next (State.after (opChoices p ds) (s.setPort p ((drained P).atPoint none))) := by
  induction fifo generalizing s P ds with
  | nil =>
    obtain ⟨d, rfl⟩ := List.length_eq_one_iff.mp hlen
    have hflush := Port.runOp_rxDrain
      (drainStep_rdFlush s.config d (P := P.atPoint (some (.rxDrain .rdFlush))) hfifo)
    rw [Port.drainPoint_empty hfifo, opChoices_cons, State.after_cons_setPort]
    exact State.runChoices_op_setPort hr hP rfl (by exact hi) hflush
  | cons b bs ih =>
    obtain _ | ⟨d₁, _ | ⟨d₂, ds⟩⟩ := ds
    · simp at hlen
    · simp at hlen
    have hread := Port.runOp_rxDrain
      (drainStep_rd1 s.config d₁ (P := P.atPoint (some (.rxDrain .rd1))) hm hfifo)
    have htest := Port.runOp_rxDrain
      (drainStep_rd0 s.config d₂ (P := (P.delivered b bs).atPoint (some (.rxDrain .rd0))) hm)
    rw [Port.drainPoint_cons hfifo, ← drained_delivered hfifo]
    simp only [opChoices_cons, State.after_cons_setPort]
    calc
      _ = ((s.clock d₁).setPort p ((P.delivered b bs).atPoint (some (.rxDrain .rd0)))).runChoices
            (⟨.op p, d₂⟩ :: opChoices p ds) := State.runChoices_op_setPort hr hP rfl (by exact hi) hread
      _ = _ := State.runChoices_op_setPort (s := s.clock d₁) hr hP rfl (by exact hi) htest
      _ = _ := ih (s := (s.clock d₁).clock d₂) hr hP hi hm rfl (by simpa [Nat.mul_add] using hlen)

/-- Settles O28: the first step tests `RXFE`; the rest is the run above. -/
theorem drainDeliversEveryByteInOrder : Obligations.DrainDeliversEveryByteInOrder := by
  intro s p P ds hr hP hm hc hl hlen
  have hentry : P.enter (Port.requireLife .active .rxDrain) = .ok P :=
    Port.enter_idle (Port.requireLife_ok _ hl) hc
  have hfirst : P.begin s.config s.draw (Port.enter (Port.requireLife .active .rxDrain)) (.rxDrain .rd0) =
      .ok (P.atPoint (some (.rxDrain P.drainPoint))) := by
    simp [Port.begin, hentry, Port.runOp_rxDrain (drainStep_rd0 _ _ hm)]
  have hend : (drained P).atPoint none = drained P := by
    rw [← hc]
    rfl
  exact ⟨_, State.onPort_ok hP hfirst, hend ▸ State.runChoices_rxDrain hr hP id hm rfl hlen⟩

end Sys2Proof.Machine
end

section
/-!
PROOFS. The lifecycle's transitions under the invariant (R127); the start of a console write and its end
(spec/43_console_path.md R150 to R155).
-/

namespace Sys2Proof.Machine

/-! ## The lifecycle -/

/-- A step of any agent moves the `life` of a port with a consistent lifecycle along R127. -/
theorem Port.Change.lifeStep {c : Config} {P Q : Port} (h : Port.Change c P Q) (hl : P.lifeOk) :
    Port.LifeStep P Q := by
  rcases h with ⟨-, h⟩ | ⟨hw, rfl, -⟩ | h | ⟨b, h⟩ | h | h
  · exact (h hl).2
  · exact .inl rfl
  · obtain ⟨b, -, -, rfl⟩ := Port.txDone_cases h
    exact .inl rfl
  · obtain ⟨-, -, rfl⟩ := Port.hostPut_cases h
    exact .inl rfl
  · obtain ⟨-, rfl⟩ := Port.hostPublish_cases h
    exact .inl rfl
  · obtain ⟨-, rfl⟩ := Port.hostTake_cases h
    exact .inl rfl

/-- Settles O41: the invariant makes the lifecycle consistent, and a change of a port then follows R127. -/
theorem lifeFollowsItsTransitions : Obligations.LifeFollowsItsTransitions := by
  intro s t p P Q hs h hP hQ
  rcases Port.change_of_step h hP hQ with rfl | hc
  · exact .inl rfl
  · exact hc.lifeStep (hs.ports p P hP).life

/-! ## The console -/

/-- Settles O42: the first step of a console write reads Control of the port of line 5, whatever stands there. -/
theorem consoleWriteStarts : Obligations.ConsoleWriteStarts := by
  intro s p str count
  refine ⟨fun P hP hm => ?_, fun hnone => ?_⟩
  · have hl : CONSOLE_LINE < s.ports.length := (List.getElem?_eq_some_iff.mp hP).1
    have hstep : consoleStep s.config s.draw s.hostMem ⟨str, count, false, .cw0⟩ P =
        .ok (P, some ⟨str, count, P.hw.ctrl.getLsbD 19, .cw1 .read⟩) := by
      simp [consoleStep, hm]
    refine (if_pos hl).trans ((State.onPortWith_ok hP hstep).trans ?_)
    simp [State.setPort_self hP]
  · exact if_neg (Nat.not_lt.mpr (List.getElem?_eq_none_iff.mp hnone))

section ConsoleStep
variable {s : State} {k : Nat} {run : ConsoleRun} {run' : Option ConsoleRun} {P : Port} {d : Word}
  {chs : List Choice}

/-- The console writes in progress decide nothing about whether ordinary code can step. -/
theorem State.ordinaryReady_updateConsole (h : s.ordinaryReady) :
    (updateConsole k run' s).ordinaryReady := by
  cases run' <;> exact h

theorem updateConsole_get_same (h : s.console[k]? = some run) (r : ConsoleRun) :
    (updateConsole k (some r) s).console[k]? = some r := by
  have hk : k < s.console.length := (List.getElem?_eq_some_iff.mp h).1
  simp [updateConsole, hk]

/-- A later step of a console write replaces what an earlier one left. -/
theorem updateConsole_updateConsole (r : ConsoleRun) (run' : Option ConsoleRun) :
    updateConsole k run' (updateConsole k (some r) s) = updateConsole k run' s := by
  cases run' <;> simp [updateConsole, List.eraseIdx_set_eq]

theorem updateConsole_clock :
    (updateConsole k run' s).clock d = updateConsole k run' (s.clock d) := by
  cases run' <;> rfl

/-- A console write that stays where it is leaves the list as it is. -/
theorem updateConsole_self (h : s.console[k]? = some run) : updateConsole k (some run) s = s := by
  obtain ⟨hk, rfl⟩ := List.getElem?_eq_some_iff.mp h
  simp [updateConsole]

/-- One step of a console write that an earlier step has left at `r`. -/
theorem State.runChoices_console_update {r : ConsoleRun} {P' : Port} (hr : s.ordinaryReady)
    (hk : s.console[k]? = some run) (hP : s.ports[CONSOLE_LINE]? = some P)
    (hs : consoleStep s.config d s.hostMem r P = .ok (P', run')) :
    (updateConsole k (some r) s).runChoices (⟨.console k, d⟩ :: chs) =
      (updateConsole k run' ((s.setPort CONSOLE_LINE P').clock d)).runChoices chs := by
  rw [State.runChoices_console (s := updateConsole k (some r) s)
    (State.ordinaryReady_updateConsole hr) (updateConsole_get_same hk r) hP hs]
  rw [updateConsole_clock]
  congr 1
  exact updateConsole_updateConsole (k := k) (s := (s.setPort CONSOLE_LINE P').clock d) r run'

/-- The same where the step keeps the port. -/
theorem State.runChoices_console_keep {r : ConsoleRun} (hr : s.ordinaryReady)
    (hk : s.console[k]? = some run) (hP : s.ports[CONSOLE_LINE]? = some P)
    (hs : consoleStep s.config d s.hostMem r P = .ok (P, run')) :
    (updateConsole k (some r) s).runChoices (⟨.console k, d⟩ :: chs) =
      (updateConsole k run' (s.clock d)).runChoices chs := by
  rw [State.runChoices_console_update hr hk hP hs, State.setPort_self hP]

end ConsoleStep

section RestoreSteps
variable {P : Port} (c : Config) (d : Word) (mem : Memory) (str count : Addr) (snap : Bool)

/-- At `cw6` one read of Status: the console write stays while `TXBUSY` is 1 (R150). -/
theorem consoleStep_cw6 (hm : P.mapped = true) :
    consoleStep c d mem ⟨str, count, snap, .cw6⟩ P =
      .ok (P, some ⟨str, count, snap, if P.hw.txbusy then .cw6 else .cw7 .read⟩) := by
  simp [consoleStep, cw6Step, hm, ConsoleRun.moveTo]

theorem consoleStep_cw7_read (hm : P.mapped = true) :
    consoleStep c d mem ⟨str, count, snap, .cw7 .read⟩ P =
      .ok (P, some ⟨str, count, snap, .cw7 (.write P.hw.ctrl)⟩) := by
  cases snap <;> simp [consoleStep, hm, ConsoleRun.moveTo, andThen]

/-- The last write of a console write restores `TXIE` to the snapshot (R150). -/
theorem consoleStep_cw7_write (hm : P.mapped = true) (v : Word) :
    consoleStep c d mem ⟨str, count, snap, .cw7 (.write v)⟩ P =
      .ok ({ P with hw := { P.hw with ctrl := if snap then v ||| TXIE else v &&& ~~~TXIE } }, none) := by
  cases snap <;> simp [consoleStep, hm, andThen, done]

end RestoreSteps

/-- Settles O44: the wait keeps everything; after it a read of Control, the restoring write and the end. -/
theorem consoleRestoresTheSnapshot : Obligations.ConsoleRestoresTheSnapshot := by
  intro s P k str count snap d1 d2 d3 hr hP hm hk
  have hstart : ∀ chs, s.runChoices chs =
      (updateConsole k (some ⟨str, count, snap, .cw6⟩) s).runChoices chs := fun chs => by
    rw [updateConsole_self hk]
  have hwait := consoleStep_cw6 s.config d1 s.hostMem str count snap hm
  refine ⟨fun hbusy => ?_, fun hfifo hshift => ?_⟩
  · rw [P.hw.txbusy_iff.mpr (hbusy.imp_left List.length_pos_iff.mpr)] at hwait
    calc
      _ = _ := hstart _
      _ = (updateConsole k _ (s.clock d1)).runChoices [] :=
        State.runChoices_console_keep hr hk hP hwait
      _ = _ := by rw [if_pos rfl, updateConsole_self (s := s.clock d1) hk]; rfl
  · have hidle : P.hw.txbusy = false := by simp [UartHw.txbusy, hfifo, hshift]
    rw [hidle] at hwait
    calc
      _ = _ := hstart _
      _ = (updateConsole k _ (s.clock d1)).runChoices (consoleChoices k [d2, d3]) :=
        State.runChoices_console_keep hr hk hP hwait
      _ = (updateConsole k _ ((s.clock d1).clock d2)).runChoices (consoleChoices k [d3]) :=
        State.runChoices_console_keep (s := s.clock d1) hr hk hP
          (consoleStep_cw7_read s.config d2 s.hostMem str count snap hm)
      _ = _ := State.runChoices_console_update (s := (s.clock d1).clock d2) hr hk hP
          (consoleStep_cw7_write s.config d3 s.hostMem str count snap hm _)

end Sys2Proof.Machine
end

section
/-!
PROOFS. The agents outside the core: the UART's own steps keep Control and lose no pending bit
(spec/44_hardware_events.md R165 to R170), and the host's producer (spec/60_exceptions.md R188).
-/

namespace Sys2Proof.Machine

/-! ## What a step of one port leaves in a slot -/

section Slot
variable {s t : State} {p q : Nat} {P Q R : Port}

/-- The port in a slot after a port was written. -/
theorem State.setPort_slot (hP : s.ports[q]? = some P) (hR : (s.setPort p Q).ports[q]? = some R) :
    R = P ∨ q = p ∧ R = Q := by
  by_cases hpq : p = q
  · subst hpq
    exact .inr ⟨rfl, Option.some.inj (hR.symm.trans (State.setPort_get_same hP))⟩
  · exact .inl (Option.some.inj (hR.symm.trans ((State.setPort_get_other hpq).trans hP)))

/-- A step that may not be enabled leaves a slot as it was, or is that slot's. -/
theorem State.portEvent_slot {f : Port → Option Port} (h : s.portEvent p f = .next t)
    (hP : s.ports[q]? = some P) (hQ : t.ports[q]? = some Q) : Q = P ∨ q = p ∧ f P = some Q := by
  rcases State.portEvent_cases h with ⟨P', Q', hP', hf, rfl⟩ | rfl
  · refine (State.setPort_slot hP hQ).imp_right ?_
    rintro ⟨rfl, rfl⟩
    obtain rfl : P' = P := Option.some.inj (hP'.symm.trans hP)
    exact ⟨rfl, hf⟩
  · exact .inl (Option.some.inj (hQ.symm.trans hP))

theorem State.hwEvent_slot {f : UartHw → Option UartHw} (h : s.hwEvent p f = .next t)
    (hP : s.ports[q]? = some P) (hQ : t.ports[q]? = some Q) :
    Q = P ∨ q = p ∧ f P.hw = some Q.hw := by
  refine (State.portEvent_slot h hP hQ).imp_right ?_
  rintro ⟨rfl, hf⟩
  obtain ⟨hw, hhw, rfl⟩ := Option.map_eq_some_iff.mp hf
  exact ⟨rfl, hhw⟩

end Slot

/-! ## The UART's own steps and the pending bits -/

/-- Control is kept and no pending bit is cleared, save RX-pending where `lossy` holds. -/
structure UartHw.PendKept (lossy : Prop) (hw hw' : UartHw) : Prop where
  ctrl : hw'.ctrl = hw.ctrl
  txpend : hw.txpend = true → hw'.txpend = true
  rxpend : ¬lossy → hw.rxpend = true → hw'.rxpend = true

section PendKept
variable {lossy : Prop} {c : Config} {hw hw' : UartHw}

theorem UartHw.PendKept.refl (hw : UartHw) : UartHw.PendKept lossy hw hw := ⟨rfl, id, fun _ => id⟩

theorem UartHw.txEvent_pendKept (wasLast : Bool) : UartHw.PendKept lossy hw (hw.txEvent c wasLast) := by
  unfold UartHw.txEvent
  simp only
  split
  · exact ⟨rfl, fun _ => rfl, fun _ => id⟩
  · exact .refl hw

theorem UartHw.rxEvent_pendKept : UartHw.PendKept lossy hw (hw.rxEvent c) := by
  unfold UartHw.rxEvent
  split
  · exact ⟨rfl, id, fun _ _ => rfl⟩
  · exact .refl hw

theorem UartHw.txLoad_pendKept (h : hw.txLoad c = some hw') : UartHw.PendKept lossy hw hw' := by
  unfold UartHw.txLoad at h
  split at h
  · rename_i b bs _ _
    split at h
    · cases h
      obtain ⟨hctrl, htx, hrx⟩ := UartHw.txEvent_pendKept (lossy := lossy) (c := c)
        (hw := { hw with shifter := some b, txfifo := bs }) bs.isEmpty
      exact ⟨hctrl, htx, hrx⟩
    · cases h
  · cases h

/-- A byte that arrives clears RX-pending at most where it overruns the RX FIFO under `any` (R165). -/
theorem UartHw.rx_pendKept (b : Byte) (ovr : OverrunDraw)
    (hlossy : c.rxOverrun = .any → c.rxFifoDepth ≤ hw.rxfifo.length → lossy) :
    UartHw.PendKept lossy hw (hw.rx c b ovr) := by
  unfold UartHw.rx
  split
  · exact .refl hw
  split
  · obtain ⟨hctrl, htx, hrx⟩ := UartHw.rxEvent_pendKept (lossy := lossy) (c := c)
      (hw := { hw with rxfifo := hw.rxfifo ++ [b] })
    exact ⟨hctrl, htx, hrx⟩
  · rename_i hfull
    unfold UartHw.overrun
    split
    · exact .refl hw
    · rename_i hany
      exact ⟨rfl, id, fun hn => absurd (hlossy hany (Nat.not_lt.mp hfull)) hn⟩

theorem UartHw.pendTx_pendKept (h : hw.pendTx c = some hw') : UartHw.PendKept lossy hw hw' := by
  unfold UartHw.pendTx at h
  split at h
  · cases h
    exact ⟨rfl, fun _ => rfl, fun _ => id⟩
  · cases h

theorem UartHw.pendRx_pendKept (h : hw.pendRx c = some hw') : UartHw.PendKept lossy hw hw' := by
  unfold UartHw.pendRx at h
  split at h
  · cases h
    exact ⟨rfl, id, fun _ _ => rfl⟩
  · cases h

end PendKept

/-- A step of a UART agent keeps Control and clears no pending bit of any port, save by an overrun (R169). -/
theorem State.runAgent_pendKept {s t : State} {a : Agent} {p : Nat} {P Q : Port}
    (ha : hardwarePort a ≠ none) (h : s.runAgent a = .next t) (hP : s.ports[p]? = some P)
    (hQ : t.ports[p]? = some Q) :
    UartHw.PendKept (s.config.rxOverrun = .any ∧ s.config.rxFifoDepth ≤ P.hw.rxfifo.length ∧
      ∃ b ovr, a = .rx p b ovr) P.hw Q.hw := by
  cases a with
  | txLoad q =>
    rcases State.hwEvent_slot h hP hQ with rfl | ⟨-, hf⟩
    · exact .refl _
    · exact UartHw.txLoad_pendKept hf
  | txDone q =>
    rcases State.portEvent_slot h hP hQ with rfl | ⟨-, hf⟩
    · exact .refl _
    · obtain ⟨b, -, -, rfl⟩ := Port.txDone_cases hf
      exact ⟨rfl, id, fun _ => id⟩
  | rx q b ovr =>
    simp only [State.runAgent] at h
    rcases State.hwEvent_slot h hP hQ with rfl | ⟨rfl, hf⟩
    · exact .refl _
    · rw [← Option.some.inj hf]
      exact UartHw.rx_pendKept b ovr fun hany hfull => ⟨hany, hfull, b, ovr, rfl⟩
  | pendTx q =>
    rcases State.hwEvent_slot h hP hQ with rfl | ⟨-, hf⟩
    · exact .refl _
    · exact UartHw.pendTx_pendKept hf
  | pendRx q =>
    rcases State.hwEvent_slot h hP hQ with rfl | ⟨-, hf⟩
    · exact .refl _
    · exact UartHw.pendRx_pendKept hf
  | _ => exact absurd rfl ha

/-- Settles O51: agent by agent, what the UART's own step keeps. -/
theorem hardwareNeverClearsPending : Obligations.HardwareNeverClearsPending := by
  intro s t p P Q hf ha h hP hQ
  rw [step_of_noFault hf] at h
  obtain ⟨hctrl, htx, hrx⟩ := State.runAgent_pendKept ha h hP hQ
  exact ⟨hctrl, htx, hrx⟩

/-! ## The host's producer -/

/-- A chosen step of the host on a port, where it is enabled. -/
theorem State.runChoices_hostEvent {s : State} {a : Agent} {p : Nat} {P P' : Port} {d : Word}
    {chs : List Choice} {f : Config → Port → Option Port}
    (ha : ∀ u : State, u.runAgent a = u.ordinary (State.portEvent p (f u.config)))
    (hr : s.ordinaryReady) (hP : s.ports[p]? = some P) (hf : f s.config P = some P') :
    s.runChoices (⟨a, d⟩ :: chs) = ((s.setPort p P').clock d).runChoices chs := by
  apply State.runChoices_cons hr.1
  refine (ha _).trans ((State.ordinary_ready (by exact hr.2.1) (by exact hr.2.2)).trans ?_)
  simp [State.portEvent, hP, hf, State.setPort, State.clock]

/-- Publishing one byte raises the unconsumed count by one while the ring does not fill up (R114). -/
theorem Ring.count_publish {c : Config} {r : Ring} (h : r.count c + 1 < c.xmitCap) :
    Ring.count c { r with head := ringNext c r.head } = r.count c + 1 := by
  unfold Ring.count ringNext at *
  rw [Nat.mod_add_mod, Nat.add_right_comm, ← Nat.mod_add_mod, Nat.mod_eq_of_lt h]

/-- `hp0` is enabled while the ring has room (R188). -/
theorem Port.hostPut_room {c : Config} {P : Port} (b : Byte) (hidle : P.producing = false)
    (hroom : P.ring.count c < c.xmitCap - 1) :
    P.hostPut c b = some { P with
      ring := { P.ring with buf := P.ring.buf.set P.ring.head b }, producing := true } :=
  if_pos ⟨hidle, hroom⟩

/-- `hp1` is enabled after `hp0` (R188). -/
theorem Port.hostPublish_producing {c : Config} {P : Port} (hp : P.producing = true) :
    P.hostPublish c =
      some { P with ring := { P.ring with head := ringNext c P.ring.head }, producing := false } :=
  if_pos hp

/-- Settles O57: `hp0` and `hp1` are enabled one after the other, and neither touches the interrupt line. -/
theorem hostPutStoresThenPublishes : Obligations.HostPutStoresThenPublishes := by
  intro s p P b d1 d2 hr hP hwf ⟨hbuf, hhead, htail⟩ hidle hroom
  have hcount : P.ring.count s.config + 1 < s.config.xmitCap := by omega
  have hput := fun chs => State.runChoices_hostEvent (a := .hostPut p b) (d := d1) (chs := chs)
    (f := fun c => Port.hostPut c b) (fun _ => rfl) hr hP (Port.hostPut_room b hidle hroom)
  have hpublish := State.runChoices_hostEvent (a := .hostPublish p) (d := d2) (chs := [])
    (f := Port.hostPublish) (fun _ => rfl)
    (State.ordinaryReady_setPort (s := s.clock d1)
      (Q := { P with ring := { P.ring with buf := P.ring.buf.set P.ring.head b }, producing := true })
      hr hP id)
    (State.setPort_get_same hP) (Port.hostPublish_producing rfl)
  refine ⟨_, rfl, hput [], ?_, by simp [hbuf, hhead], Ring.count_publish hcount,
    (Ring.count_publish hcount).trans_lt hcount⟩
  refine (hput _).trans (hpublish.trans ?_)
  rw [State.setPort_setPort, ← hidle]
  rfl

end Sys2Proof.Machine
end

section
/-!
PROOFS. The frame of the core: what the first step of every action, and every later step of an operation, a
console write or the handler, leaves unchanged (R43, R46, R53, R56, R61).
-/

namespace Sys2Proof.Machine

/-! ## Only the refill's write of `tail` changes the ring -/

section KeepsRing
variable {c : Config} {d : Word} {P Q : Port}

theorem Port.HwOnly.ring (h : Port.HwOnly P Q) : Q.ring = P.ring := by
  obtain ⟨hw, rfl⟩ := h
  rfl

theorem Port.regRead_hwOnly {r : Reg} {v : Word} (h : P.regRead c d r = .ok (v, Q)) :
    Port.HwOnly P Q :=
  ⟨_, (Port.regRead_cases h).2.2⟩

theorem Port.regWrite_hwOnly {r : Reg} {v : Word} (h : P.regWrite c r v = .ok Q) : Port.HwOnly P Q := by
  obtain ⟨-, hw, -, hQ⟩ := Port.regWrite_cases h
  exact ⟨hw, hQ⟩

/-- A caller whose own work leaves the ring alone changes it only as its callee does. -/
theorem andThen_ring {α β : Type} {stay : α → β} {next : Port → Port × Option β}
    {r : Except Stop (Port × Option α)} {o : Option β}
    (hr : ∀ P' a, r = .ok (P', a) → P'.ring = P.ring) (hn : ∀ P', (next P').1.ring = P'.ring)
    (h : andThen stay next r = .ok (Q, o)) : Q.ring = P.ring := by
  rcases andThen_cases h with ⟨a, hQ, -⟩ | ⟨P', hP', hQ⟩
  · exact hr Q _ hQ
  · have hQ' := hn P'
    rw [hQ] at hQ'
    exact hQ'.trans (hr P' _ hP')

/-- A caller of a read-modify-write, likewise. -/
theorem andThen_rmw_ring {β : Type} {stay : Rmw → β} {next : Port → Port × Option β} {r : Reg}
    {f : Word → Word} {m : Rmw} {o : Option β} (hn : ∀ P', (next P').1.ring = P'.ring)
    (h : andThen stay next (P.rmw c d r f m) = .ok (Q, o)) : Q.ring = P.ring :=
  andThen_ring (fun _ _ hr => (Port.rmw_hwOnly hr).ring) hn h

theorem refillStep_ring {pt : RefillPoint} {o : Option RefillPoint} (hpt : ∀ t, pt ≠ .wf5 t)
    (h : refillStep c d pt P = .ok (Q, o)) : Q.ring = P.ring := by
  cases pt with
  | wf0 =>
    cases h
    rfl
  | wf1 t =>
    simp only [refillStep] at h
    split at h
    · cases h
    · rename_i hr
      cases h
      exact (Port.testBit_hwOnly hr).ring
  | wf2 m => exact andThen_rmw_ring (fun _ => rfl) h
  | wf3 t =>
    cases h
    rfl
  | wf4 t b =>
    simp only [refillStep] at h
    split at h
    · cases h
    · rename_i hr
      cases h
      exact (Port.regWrite_hwOnly hr).ring
  | wf5 t => exact absurd rfl (hpt t)
  | wfEmpty m => exact andThen_rmw_ring (fun _ => rfl) h

theorem drainStep_ring {pt : DrainPoint} {o : Option DrainPoint} (h : drainStep c d pt P = .ok (Q, o)) :
    Q.ring = P.ring := by
  cases pt with
  | rd0 =>
    simp only [drainStep] at h
    split at h
    · cases h
    · rename_i hr
      cases h
      exact (Port.testBit_hwOnly hr).ring
  | rd1 =>
    simp only [drainStep] at h
    split at h
    · cases h
    · rename_i hr
      cases h
      exact (Port.regRead_hwOnly hr).ring
  | rdFlush =>
    cases h
    rfl

/-- No step of an operation changes the ring but the refill's write of `tail` (R61, R116). -/
theorem opStep_ring {pt : OpPoint} {o : Option OpPoint}
    (hpt : ∀ t, pt ≠ .writeTxFifo (.wf5 t) ∧ pt ≠ .startTx (.wf5 t))
    (h : opStep c d pt P = .ok (Q, o)) : Q.ring = P.ring := by
  cases pt with
  | writeTxFifo r =>
    exact andThen_ring (fun _ _ => refillStep_ring fun t ht => (hpt t).1 (ht ▸ rfl)) (fun _ => rfl) h
  | startTx r =>
    exact andThen_ring (fun _ _ => refillStep_ring fun t ht => (hpt t).2 (ht ▸ rfl)) (fun _ => rfl) h
  | rxDrain q => exact andThen_ring (fun _ _ => drainStep_ring) (fun _ => rfl) h
  | su0 =>
    simp only [opStep, registerStep] at h
    split at h <;>
    · cases h
      rfl
  | sd2 =>
    cases h
    rfl
  | st1 =>
    simp only [opStep, st1Step] at h
    split at h
    · cases h
    · rename_i hr
      cases h
      exact (Port.testBit_hwOnly hr).ring
  | sr1 =>
    simp only [opStep, sr1Step] at h
    split at h
    · cases h
    · rename_i hr
      cases h
      exact (Port.testBit_hwOnly hr).ring
  | sr2 =>
    simp only [opStep, sr2Step] at h
    split at h
    · cases h
    · rename_i hr
      cases h
      exact (Port.regRead_hwOnly hr).ring
  | setBit _ _ _ | clearBit _ _ _ | su1 _ | su2 _ | sd0 _ | sd1 _ | st0 _ | st2 _ | sr0 _ | sr3 _ =>
    exact andThen_rmw_ring (fun _ => rfl) h

/-- An operation's first step keeps the ring when its entry does: no operation starts at the write of `tail`. -/
theorem Port.begin_ring {entry : Port → Except Stop Port} {pt : OpPoint}
    (hentry : ∀ P', entry P = .ok P' → P'.ring = P.ring)
    (hpt : ∀ t, pt ≠ .writeTxFifo (.wf5 t) ∧ pt ≠ .startTx (.wf5 t))
    (h : P.begin c d entry pt = .ok Q) : Q.ring = P.ring := by
  obtain ⟨P', hP', hrun⟩ := Port.begin_cases h
  obtain ⟨P'', o, hop, rfl⟩ := Port.runOp_cases hrun
  exact (opStep_ring hpt hop).trans (hentry P' hP')

theorem Port.requireLife_ring {l : Life} {o : Operation} (h : P.requireLife l o = .ok Q) :
    Q.ring = P.ring := by
  rw [(Port.requireLife_cases h).2]

theorem Port.enterStartup_ring (h : P.enterStartup = .ok Q) : Q.ring = P.ring := by
  unfold Port.enterStartup at h
  split at h
  · cases h
  · rename_i hl
    cases h
    exact (Port.requireLife_ring hl :)

theorem Port.enterShutdown_ring (h : P.enterShutdown = .ok Q) : Q.ring = P.ring := by
  unfold Port.enterShutdown at h
  split at h
  · cases h
  · rename_i hl
    cases h
    exact (Port.requireLife_ring hl :)

theorem Port.readAction_ring {r : Reg} (h : P.readAction c d r = .ok Q) : Q.ring = P.ring := by
  unfold Port.readAction at h
  split at h
  · cases h
  · rename_i hr
    cases h
    exact (Port.regRead_hwOnly hr).ring

theorem Port.testAction_ring {reg : Byte} {mask : Word} (h : P.testAction c d reg mask = .ok Q) :
    Q.ring = P.ring := by
  unfold Port.testAction at h
  split at h
  · cases h
  split at h
  · cases h
  · rename_i hr
    cases h
    exact (Port.testBit_hwOnly hr).ring

theorem Port.beginBitOp_ring {reg : Byte} {pt : Reg → OpPoint}
    (hpt : ∀ r t, pt r ≠ .writeTxFifo (.wf5 t) ∧ pt r ≠ .startTx (.wf5 t))
    (h : P.beginBitOp c d reg pt = .ok Q) : Q.ring = P.ring := by
  unfold Port.beginBitOp at h
  split at h
  · cases h
  · refine Port.begin_ring (fun P' hP' => ?_) (hpt _) h
    rw [(Port.requireIdle_cases hP').2]

theorem Port.txEmptyAction_ring (h : P.txEmptyAction c d = .ok Q) : Q.ring = P.ring := by
  unfold Port.txEmptyAction at h
  split at h
  · cases h
  rename_i hentry
  split at h
  · cases h
  · rename_i hr
    cases h
    exact (Port.testBit_hwOnly hr).ring.trans
      (Port.requireLife_ring (Port.enterLifecycle_cases hentry).1)

/-- The handler's first step, its read of Status. -/
theorem ih0Step_ring {o : Option HandlerPoint} (h : ih0Step c d P = .ok (Q, o)) : Q.ring = P.ring := by
  unfold ih0Step at h
  split at h
  · cases h
  · rename_i hr
    cases h
    exact (Port.regRead_hwOnly hr).ring

end KeepsRing

/-! ## The first step of every action -/

section Exec
variable {s t : State} {p q : Nat} {P Q : Port}

/-- A step of one port leaves a slot as it was, or is that slot's. -/
theorem State.onPort_slot {f : Port → Except Stop Port} (h : s.onPort p f = .next t)
    (hP : s.ports[q]? = some P) (hQ : t.ports[q]? = some Q) : Q = P ∨ q = p ∧ f P = .ok Q := by
  rcases State.onPort_cases h with ⟨P', Q', hP', hf, rfl⟩ | ⟨fl, rfl⟩
  · refine (State.setPort_slot hP hQ).imp_right ?_
    rintro ⟨rfl, rfl⟩
    obtain rfl : P' = P := Option.some.inj (hP'.symm.trans hP)
    exact ⟨rfl, hf⟩
  · exact .inl (Option.some.inj (hQ.symm.trans hP))

/-- A step that keeps its port's ring keeps every port's. -/
theorem State.onPort_ring {f : Port → Except Stop Port} (hf : ∀ P Q, f P = .ok Q → Q.ring = P.ring)
    (h : s.onPort p f = .next t) (hP : s.ports[q]? = some P) (hQ : t.ports[q]? = some Q) :
    Q.ring = P.ring := by
  rcases State.onPort_slot h hP hQ with rfl | ⟨-, hPQ⟩
  · rfl
  · exact hf P Q hPQ

/-- Writing a port that keeps its ring keeps every port's. -/
theorem State.setPort_ring {P' Q' : Port} (hP' : s.ports[p]? = some P') (hr : Q'.ring = P'.ring)
    (hP : s.ports[q]? = some P) (hQ : (s.setPort p Q').ports[q]? = some Q) : Q.ring = P.ring := by
  rcases State.setPort_slot hP hQ with rfl | ⟨rfl, rfl⟩
  · rfl
  · rwa [← Option.some.inj (hP'.symm.trans hP)]

/-- The handler steps on its own port, and the handler alone changes beside it (R183). -/
theorem State.handlerAgent_cases {g : HandlerRun} (hg : s.handler = some g)
    (h : s.handlerAgent = .next t) :
    (∃ P Q o, s.ports[g.port]? = some P ∧ handlerStep s.config s.draw g.point P = .ok (Q, o) ∧
      t = { s.setPort g.port Q with handler := o.map (HandlerRun.mk g.port) }) ∨
      ∃ fl, t = { s with fault := some fl } := by
  unfold State.handlerAgent at h
  rw [hg] at h
  refine (State.onPortWith_cases h).imp_left ?_
  rintro ⟨P, Q, o, hP, hstep, rfl⟩
  refine ⟨P, Q, o, hP, hstep, ?_⟩
  cases o <;> rfl

/-- `irq_handler` runs where dispatch has entered the handler, and is its first step (R112, R138). -/
theorem execIrqHandler_cases (h : execIrqHandler p s = .next t) :
    s.handler = some ⟨p, .ih0⟩ ∧ s.handlerAgent = .next t := by
  unfold execIrqHandler at h
  split at h
  · rename_i hg
    exact ⟨hg, h⟩
  · cases h

/-- `console_write` steps on the port of line 5, and the console writes alone change beside it (R150). -/
theorem execConsoleWrite_cases (p : Nat) {str count : Addr} (h : execConsoleWrite p str count s = .next t) :
    (∃ P Q o, s.ports[5]? = some P ∧
      consoleStep s.config s.draw s.hostMem ⟨str, count, false, .cw0⟩ P = .ok (Q, o) ∧
      t = { s.setPort 5 Q with console := s.console ++ o.toList }) ∨
      ∃ fl, t = { s with fault := some fl } := by
  unfold execConsoleWrite State.onConsole at h
  split at h
  · exact State.onPortWith_cases h
  · cases h

/-- The first step of no action changes a ring (R43, R61). -/
theorem exec_ring {i : Instr} (h : exec i s = .next t) (hP : s.ports[q]? = some P)
    (hQ : t.ports[q]? = some Q) : Q.ring = P.ring := by
  cases i with
  | rdCtrl p | rdRxdata p | rdTxdata p | rdStatus p =>
    exact State.onPort_ring (fun _ _ => Port.readAction_ring) h hP hQ
  | wrCtrl p v | wrRxdata p v | wrTxdata p v | wrStatus p v =>
    exact State.onPort_ring (fun _ _ hf => (Port.regWrite_hwOnly hf).ring) h hP hQ
  | setBit p reg mask | clearBit p reg mask =>
    exact State.onPort_ring (fun _ _ => Port.beginBitOp_ring (by simp)) h hP hQ
  | testBit p reg mask => exact State.onPort_ring (fun _ _ => Port.testAction_ring) h hP hQ
  | writeTxFifo p | rxDrain p =>
    exact State.onPort_ring (fun _ _ => Port.begin_ring
      (fun _ he => Port.requireLife_ring (Port.enter_cases he).1) (by simp)) h hP hQ
  | irqHandler p =>
    obtain ⟨hg, h⟩ := execIrqHandler_cases h
    rcases State.handlerAgent_cases hg h with ⟨P', Q', o, hP', hstep, rfl⟩ | ⟨fl, rfl⟩
    · exact State.setPort_ring hP' (ih0Step_ring hstep) hP hQ
    · rw [Option.some.inj (hQ.symm.trans hP)]
  | startup p =>
    exact State.onPort_ring (fun _ _ => Port.begin_ring
      (fun _ he => Port.enterStartup_ring (Port.enterLifecycle_cases he).1) (by simp)) h hP hQ
  | shutdown p =>
    exact State.onPort_ring (fun _ _ => Port.begin_ring
      (fun _ he => Port.enterShutdown_ring (Port.enterLifecycle_cases he).1) (by simp)) h hP hQ
  | startTx p | stopTx p | stopRx p =>
    exact State.onPort_ring (fun _ _ => Port.begin_ring
      (fun _ he => Port.requireLife_ring (Port.enterLifecycle_cases he).1) (by simp)) h hP hQ
  | txEmpty p => exact State.onPort_ring (fun _ _ => Port.txEmptyAction_ring) h hP hQ
  | setMctrl p _ | setTermios p _ _ =>
    exact State.onPort_ring (f := .ok) (fun _ _ hf => by cases hf; rfl) h hP hQ
  | consoleWrite p str count =>
    rcases execConsoleWrite_cases p h with ⟨P', Q', o, hP', hstep, rfl⟩ | ⟨fl, rfl⟩
    · exact State.setPort_ring hP' (consoleStep_hwOnly hstep).ring hP hQ
    · rw [Option.some.inj (hQ.symm.trans hP)]

/-- The slot of the port that an action steps: the console's for `console_write`, its own port's otherwise. -/
def actionSlot (i : Instr) : Nat := if i.opcode = .op .consoleWrite then 5 else i.port

/-- All the first step of an action can write: its port, and with it the running handler for `irq_handler` and
the console writes for `console_write`; or a fault. -/
theorem exec_cases {i : Instr} (h : exec i s = .next t) :
    (∃ Q hd cs, t = { s.setPort (actionSlot i) Q with handler := hd, console := cs } ∧
      (i.opcode ≠ .op .irqHandler → hd = s.handler) ∧
      (i.opcode ≠ .op .consoleWrite → cs = s.console)) ∨
      ∃ fl, t = { s with fault := some fl } := by
  by_cases hi : i.opcode = .op .irqHandler
  · cases i <;> simp only [Instr.opcode, reduceCtorEq, Opcode.op.injEq] at hi
    obtain ⟨hg, h⟩ := execIrqHandler_cases h
    refine (State.handlerAgent_cases hg h).imp_left ?_
    rintro ⟨P, Q, o, -, -, rfl⟩
    exact ⟨Q, _, _, rfl, fun hn => absurd rfl hn, fun _ => rfl⟩
  by_cases hc : i.opcode = .op .consoleWrite
  · cases i <;> simp only [Instr.opcode, reduceCtorEq, Opcode.op.injEq] at hc
    rename_i p str count
    refine (execConsoleWrite_cases p h).imp_left ?_
    rintro ⟨P, Q, o, -, -, rfl⟩
    exact ⟨Q, _, _, rfl, fun _ => rfl, fun hn => absurd rfl hn⟩
  · refine (exec_port h hi hc).imp_left ?_
    rintro ⟨P, Q, -, rfl, -⟩
    rw [actionSlot, if_neg hc]
    exact ⟨Q, _, _, rfl, fun _ => rfl, fun _ => rfl⟩

/-- What the first step of an action leaves alone beside what `CoreStep` says. -/
theorem exec_keeps {i : Instr} (h : exec i s = .next t) :
    t.schedule = s.schedule ∧ t.tick = s.tick ∧ t.draw = s.draw ∧
      (i.opcode ≠ .op .irqHandler → t.handler = s.handler) ∧
      (i.opcode ≠ .op .consoleWrite → t.console = s.console) ∧
      ∀ q, q ≠ actionSlot i → t.ports[q]? = s.ports[q]? := by
  rcases exec_cases h with ⟨Q, hd, cs, rfl, hhd, hcs⟩ | ⟨fl, rfl⟩
  · exact ⟨rfl, rfl, rfl, hhd, hcs, fun q hq => State.setPort_get_other hq.symm⟩
  · exact ⟨rfl, rfl, rfl, fun _ => rfl, fun _ => rfl, fun _ _ => rfl⟩

end Exec

/-! ## Every later step -/

/-- Everything a step of one of the core's own agents leaves alone, beside the model's own fields: `CoreStep`,
but for the caller's bytes, on the port that continues. -/
structure CoreAgentStep (a : Agent) (s t : State) : Prop where
  core : ∃ p, CoreStep p { s with calls := t.calls } t ∧ ∀ q, continuedPort s a = some q → q = p
  calls : a ≠ .call → t.calls = s.calls
  handler : a ≠ .handler → t.handler = s.handler
  console : ∀ k, a = .console k → ∀ (q : Nat) (P Q : Port), s.ports[q]? = some P →
    t.ports[q]? = some Q → Port.HwOnly P Q

section CoreAgents
variable {s t : State} {a : Agent} {p : Nat}

theorem Port.HwOnly.refl (P : Port) : Port.HwOnly P P := ⟨P.hw, rfl⟩

/-- A step of an agent that issues no action. -/
theorem CoreAgentStep.of_coreStep (h : CoreStep p s t) (hp : ∀ q, continuedPort s a = some q → q = p)
    (hh : a ≠ .handler → t.handler = s.handler)
    (hc : ∀ k, a = .console k → ∀ (q : Nat) (P Q : Port), s.ports[q]? = some P →
      t.ports[q]? = some Q → Port.HwOnly P Q) : CoreAgentStep a s t :=
  ⟨⟨p, by rw [h.calls]; exact h, hp⟩, fun _ => h.calls, hh, hc⟩

/-- A step that changes nothing: its agent had none. -/
theorem CoreAgentStep.same (a : Agent) (s : State) : CoreAgentStep a s s :=
  .of_coreStep (p := (continuedPort s a).getD 0) (.same _ s) (fun q hq => by simp [hq]) (fun _ => rfl)
    fun k _ q P Q hP hQ => by
      obtain rfl : P = Q := Option.some.inj (hP.symm.trans hQ)
      exact .refl P

theorem CoreAgentStep.of_ordinary {f : State → Out State} (h : s.ordinary f = .next t)
    (hf : s.handler = none → f s = .next t → CoreAgentStep a s t) : CoreAgentStep a s t := by
  rcases State.ordinary_cases h with ⟨hh, -, h⟩ | rfl
  · exact hf hh h
  · exact .same a _

theorem CoreAgentStep.of_callAgent (hh : s.handler = none) (h : s.callAgent = .next t) :
    CoreAgentStep .call s t := by
  unfold State.callAgent at h
  split at h
  · rename_i i rest _
    obtain ⟨⟨p, hc⟩, hkeep⟩ := CoreStep.of_exec h
    have hcalls : t.calls = rest := hc.calls
    exact ⟨⟨p, hcalls ▸ hc, nofun⟩, fun hn => absurd rfl hn, fun _ => hkeep hh, nofun⟩
  · rename_i e _
    have hfault : ∀ fl, CoreAgentStep .call s { s with fault := fl } := fun fl =>
      .of_coreStep (.fault 0 s fl) nofun (fun _ => rfl) nofun
    cases e with
    | empty =>
      cases h
      exact .same _ _
    | notAdmitted code =>
      cases h
      exact hfault _
    | reserved code =>
      cases h
      exact hfault _
    | badPort port => cases h
    | truncated code => cases h

theorem CoreAgentStep.of_opAgent (h : s.opAgent p = .next t) : CoreAgentStep (.op p) s t := by
  obtain ⟨hc, hh⟩ := CoreStep.of_opAgent h
  exact .of_coreStep hc (fun q hq => (Option.some.inj hq).symm) (fun _ => hh) nofun

theorem CoreAgentStep.of_consoleAgent {k : Nat} (h : s.consoleAgent k = .next t) :
    CoreAgentStep (.console k) s t := by
  unfold State.consoleAgent at h
  split at h
  · cases h
    exact .same _ _
  · obtain ⟨hc, hh, hhw⟩ := CoreStep.of_onConsole h
      (fun P Q o hq => ⟨(consoleStep_inner hq).toStepOf, consoleStep_hwOnly hq⟩) (fun o u => by simp)
    exact .of_coreStep hc (fun q hq => (Option.some.inj hq).symm) (fun _ => hh) fun _ _ => hhw

/-- The handler's step is the handler's next one, its first the action `irq_handler` (R182, R183). -/
theorem State.runHandler_eq_handlerAgent (s : State) : s.runHandler = s.handlerAgent := by
  unfold State.runHandler
  split
  · rename_i p hg
    exact if_pos hg
  · rfl

theorem CoreAgentStep.of_runHandler (h : s.runHandler = .next t) : CoreAgentStep .handler s t := by
  rw [State.runHandler_eq_handlerAgent] at h
  cases hg : s.handler with
  | none =>
    simp only [State.handlerAgent, hg, Host.Outcome.next.injEq] at h
    exact h ▸ .same _ s
  | some g =>
    refine .of_coreStep (CoreStep.of_handlerAgent hg h) (fun q hq => ?_) (fun hn => absurd rfl hn) nofun
    simp only [continuedPort, hg, Option.map_some, Option.some.injEq] at hq
    exact hq.symm

theorem CoreAgentStep.of_run (ha : coreAgent a = true) (h : s.runAgent a = .next t) :
    CoreAgentStep a s t := by
  cases a with
  | call => exact .of_ordinary h .of_callAgent
  | op p => exact .of_ordinary h fun _ => .of_opAgent
  | console k => exact .of_ordinary h fun _ => .of_consoleAgent
  | handler => exact .of_runHandler h
  | _ => cases ha

/-- What a core step leaves in a slot. -/
theorem CoreStep.slot (h : CoreStep p s t) {q : Nat} {P Q : Port} (hP : s.ports[q]? = some P)
    (hQ : t.ports[q]? = some Q) : Port.StepOf s.config P Q ∧ (q ≠ p → Q = P) := by
  have hsame : Q = P → Port.StepOf s.config P Q ∧ (q ≠ p → Q = P) := by
    rintro rfl
    exact ⟨(Port.InnerStep.refl _ _).toStepOf, fun _ => rfl⟩
  rcases h.ports with hp | ⟨P', Q', hP', hp, hstep⟩
  · exact hsame (Option.some.inj (hQ.symm.trans (hp ▸ hP)))
  · rw [hp] at hQ
    rcases State.setPort_slot (s := s) hP hQ with rfl | ⟨rfl, rfl⟩
    · exact hsame rfl
    · obtain rfl : P' = P := Option.some.inj (hP'.symm.trans hP)
      exact ⟨hstep, fun hn => absurd rfl hn⟩

end CoreAgents

/-- Settles O59: a first step is a `CoreStep` that keeps the ring (`exec_ring`) and writes its action's slot alone
(`exec_keeps`); a later step is a `CoreStep` of the port that continues. -/
theorem actionFrame : Obligations.ActionFrame := by
  refine ⟨fun i s t h => ?_, fun s t ha h => ?_⟩
  · obtain ⟨⟨p, hc⟩, -⟩ := CoreStep.of_exec h
    obtain ⟨hsched, htick, hdraw, hhandler, hconsole, hother⟩ := exec_keeps h
    refine ⟨hc.config, hc.cpuMasked, fun _ => by rw [hc.hostMem], hc.calls, hsched, htick, hdraw,
      hhandler, hconsole, fun q => ⟨hother q, fun P Q hP hQ => ?_⟩⟩
    have hs := (hc.slot hP hQ).1
    exact ⟨hs.line, hs.base, hs.irq, hs.mapped, hs.lineOut, hs.producing, exec_ring h hP hQ, hs.shifter⟩
  · rw [step_of_noFault (step_next_noFault h)] at h
    obtain ⟨⟨p, hc, hp⟩, hcalls, hhandler, hconsole⟩ := CoreAgentStep.of_run ha h
    refine ⟨hc.config, hc.cpuMasked, fun _ => by rw [hc.hostMem]; rfl, hcalls, hhandler,
      fun q P Q hP hQ => ?_⟩
    obtain ⟨hs, hother⟩ := hc.slot hP hQ
    refine ⟨hs.line, hs.base, hs.irq, hs.mapped, hs.lineOut, hs.producing, hs.buf, hs.head, hs.shifter,
      fun k hk => ?_, fun r hr hne => hother (hp r hr ▸ hne)⟩
    obtain ⟨hw, rfl⟩ := hconsole k hk q P Q hP hQ
    rfl

end Sys2Proof.Machine
end

section
/-!
PROOFS. The address decode of the window (spec/20_memory.md R51, R52); host memory (R53); the uses the model
refuses and the `life` preconditions (spec/42_port_lifecycle.md R138, R191).
-/

namespace Sys2Proof.Machine

/-! ## The address decode -/

section DecodeWindow
variable {base a : Addr}

/-- The two low bits of an address are its remainder by four. -/
theorem extractLsb'_zero_two_eq_zero_iff (x : Addr) : x.extractLsb' 0 2 = 0b00#2 ↔ x.toNat % 4 = 0 := by
  simp [← BitVec.toNat_inj]

theorem decodeWindow_outside (width : Nat) (h : 16 ≤ (a - base).toNat) :
    decodeWindow base a width = .error (.range a) := by
  have hr : WINDOW_SIZE ≤ a - base := BitVec.le_def.mpr h
  simp [decodeWindow, hr]

theorem decodeWindow_misfit {width : Nat} (hin : (a - base).toNat < 16)
    (h : width ≠ 32 ∨ (a - base).toNat % 4 ≠ 0) :
    decodeWindow base a width = .error (.access (.address a)) := by
  have hr : ¬WINDOW_SIZE ≤ a - base := fun hle => Nat.not_le.mpr hin (BitVec.le_def.mp hle)
  have hw : width ≠ 32 ∨ (a - base).extractLsb' 0 2 ≠ 0b00#2 :=
    h.imp_right (mt (extractLsb'_zero_two_eq_zero_iff _).mp)
  exact (if_neg hr).trans (if_pos hw)

/-- An aligned 32-bit access at a register's offset reaches the register (R51, R72). -/
theorem decodeWindow_register {width : Nat} (r : Reg) (hw : width = 32)
    (h : (a - base).toNat = (regOffset r).toNat) : decodeWindow base a width = .ok r := by
  have ha : a = base + regOffset r := by
    rw [← BitVec.eq_of_toNat_eq h, BitVec.add_comm, BitVec.sub_add_cancel]
  rw [hw, ha, decodeWindow_regOffset]

end DecodeWindow

/-- Settles O11: outside the window, inside it at no register, and at each of the four registers. -/
theorem windowDecode : Obligations.WindowDecode := fun _ _ width =>
  ⟨decodeWindow_outside width, decodeWindow_misfit, decodeWindow_register .ctrl,
    decodeWindow_register .rxdata, decodeWindow_register .txdata, decodeWindow_register .status⟩

/-! ## Host memory -/

/-- Settles O58: the store is `Memory.write`. -/
theorem hostStoreWritesOneByte : Obligations.HostStoreWritesOneByte := by
  intro s a b d ⟨hf, hh, hd⟩ hwf
  refine ⟨s.hostMem.write a.toNat b, ?_, Memory.read_write_same _ _ _,
    fun a' ha => Memory.read_write_other b ha, Memory.write_wf _ _ hwf⟩
  refine (State.runChoices_cons (t := { s with hostMem := s.hostMem.write a.toNat b }.clock d) hf ?_).trans
    (State.runChoices_nil _)
  exact State.ordinary_ready (f := fun t => .next { t with hostMem := t.hostMem.write a.toNat b })
    (by exact hh) (by exact hd)

/-! ## Entries that let no operation in -/

section Entry
variable {c : Config} {d : Word} {P Q : Port} {e : Stop} {entry : Port → Except Stop Port}

theorem Port.requireIdle_busy (h : P.ctl ≠ none) : P.requireIdle = .error (.refusal .portBusy) := if_neg h

theorem Port.requireLife_error {l : Life} (o : Operation) (h : P.life ≠ l) :
    P.requireLife l o = .error (.fault (.state o)) := if_neg h

theorem Port.enterStartup_error (h : P.life ≠ .inactive) :
    P.enterStartup = .error (.fault (.state .startup)) := by
  simp [Port.enterStartup, Port.requireLife_error _ h]

theorem Port.enterShutdown_error (h : P.life ≠ .active) :
    P.enterShutdown = .error (.fault (.state .shutdown)) := by
  simp [Port.enterShutdown, Port.requireLife_error _ h]

theorem Port.enterStartup_ok (h : P.life = .inactive) :
    P.enterStartup = .ok { P with life := .starting } := by
  simp [Port.enterStartup, Port.requireLife_ok _ h]

theorem Port.enterShutdown_ok (h : P.life = .active) :
    P.enterShutdown = .ok { P with life := .stopping } := by
  simp [Port.enterShutdown, Port.requireLife_ok _ h]

theorem Port.enter_error (h : entry P = .error e) : P.enter entry = .error e := by
  simp [Port.enter, h]

/-- An entry whose precondition holds is refused while the port's control point is taken. -/
theorem Port.enter_busy (h : entry P = .ok Q) (hc : Q.ctl ≠ none) :
    P.enter entry = .error (.refusal .portBusy) := by
  simp [Port.enter, h, Port.requireIdle_busy hc]

/-- A second lifecycle operation is refused before its precondition is judged (R138). -/
theorem Port.enterLifecycle_serial (h : inLifecycleOp P.ctl = true) :
    P.enterLifecycle entry = .error (.refusal .portBusy) := by
  simp [Port.enterLifecycle, Port.requireSerial, h]

/-- Where no lifecycle operation is in progress, a lifecycle operation enters as any other one. -/
theorem Port.enterLifecycle_eq_enter (h : inLifecycleOp P.ctl = false) :
    P.enterLifecycle entry = P.enter entry := by
  simp [Port.enterLifecycle, Port.requireSerial, h]

/-- A lifecycle operation whose precondition holds is refused while the port's control point is taken, by a
lifecycle operation or by another one. -/
theorem Port.enterLifecycle_busy (h : entry P = .ok Q) (hQ : Q.ctl ≠ none) :
    P.enterLifecycle entry = .error (.refusal .portBusy) := by
  cases hl : inLifecycleOp P.ctl with
  | true => exact Port.enterLifecycle_serial hl
  | false => rw [Port.enterLifecycle_eq_enter hl, Port.enter_busy h hQ]

theorem Port.begin_error (pt : OpPoint) (h : entry P = .error e) : P.begin c d entry pt = .error e := by
  simp [Port.begin, h]

theorem Port.beginBitOp_error {reg : Byte} {r : Reg} (pt : Reg → OpPoint) (hr : bitopReg reg = .ok r)
    (h : P.requireIdle = .error e) : P.beginBitOp c d reg pt = .error e := by
  simp [Port.beginBitOp, hr, Port.begin_error _ h]

theorem Port.txEmptyAction_error (h : P.enterLifecycle (Port.requireLife .active .txEmpty) = .error e) :
    P.txEmptyAction c d = .error e := by
  simp [Port.txEmptyAction, h]

theorem Port.readAction_unmapped (r : Reg) (h : P.mapped = false) :
    P.readAction c d r = .error (.refusal .windowUnmapped) := by
  simp [Port.readAction, Port.regRead_unmapped c d r h]

end Entry

/-! ## Operations that are not let in -/

section Start
variable {s : State} {p : Nat} {P : Port} {e : Stop} {entry : Port → Except Stop Port}

/-- An operation that its entry does not let in stops there. -/
theorem State.onPort_begin_error (pt : OpPoint) (hP : s.ports[p]? = some P) (h : entry P = .error e) :
    s.onPort p (Port.begin s.config s.draw entry pt) = s.stop e :=
  State.onPort_error hP (Port.begin_error pt h)

/-- `tx_empty`, likewise. -/
theorem execTxEmpty_error (hP : s.ports[p]? = some P)
    (h : P.enterLifecycle (Port.requireLife .active .txEmpty) = .error e) :
    execTxEmpty p s = s.stop e :=
  State.onPort_error hP (Port.txEmptyAction_error h)

end Start

/-- Settles O34: where no lifecycle operation is in progress, the `life` precondition is judged first. -/
theorem lifePreconditionFaults : Obligations.LifePreconditionFaults := by
  intro s p P hP
  refine ⟨fun hl hc => ?_, fun hl => ?_⟩
  · exact State.onPort_begin_error _ hP
      ((Port.enterLifecycle_eq_enter hc).trans (Port.enter_error (Port.enterStartup_error hl)))
  have direct (o : Operation) : P.enter (Port.requireLife .active o) = .error (.fault (.state o)) :=
    Port.enter_error (Port.requireLife_error o hl)
  refine ⟨State.onPort_begin_error _ hP (direct _), State.onPort_begin_error _ hP (direct _), fun hc => ?_⟩
  have lifecycle (o : Operation) :
      P.enterLifecycle (Port.requireLife .active o) = .error (.fault (.state o)) :=
    (Port.enterLifecycle_eq_enter hc).trans (direct o)
  have hshutdown := (Port.enterLifecycle_eq_enter hc).trans (Port.enter_error (Port.enterShutdown_error hl))
  exact ⟨State.onPort_begin_error _ hP hshutdown, State.onPort_begin_error _ hP (lifecycle _),
    State.onPort_begin_error _ hP (lifecycle _), State.onPort_begin_error _ hP (lifecycle _),
    execTxEmpty_error hP (lifecycle _)⟩

/-- Settles O18: an unmapped window answers no access, and an entry is refused while the port's control point is
taken, a lifecycle operation's by another one before anything else is judged. -/
theorem usesOutsideTheModelAreRefused : Obligations.UsesOutsideTheModelAreRefused := by
  intro s p P v mask hP
  simp only [List.forall_mem_cons, List.not_mem_nil, IsEmpty.forall_iff, implies_true, and_true]
  refine ⟨fun hm => ?_, fun hh => if_neg hh, fun hs => ?_, fun hc => ⟨?_, fun hl => ?_, fun hl => ?_⟩⟩
  · have rd (r : Reg) : s.onPort p (Port.readAction s.config s.draw r) = .refused .windowUnmapped :=
      State.onPort_error hP (Port.readAction_unmapped r hm)
    have wr (r : Reg) : s.onPort p (Port.regWrite s.config r v) = .refused .windowUnmapped :=
      State.onPort_error hP (Port.regWrite_unmapped _ r v hm)
    exact ⟨rd .ctrl, rd .rxdata, rd .txdata, rd .status, wr .ctrl, wr .rxdata, wr .txdata, wr .status⟩
  · have op {entry} (pt : OpPoint) :
        s.onPort p (Port.begin s.config s.draw (Port.enterLifecycle entry) pt) = .refused .portBusy :=
      State.onPort_begin_error pt hP (Port.enterLifecycle_serial hs)
    exact ⟨op _, op _, op _, op _, op _, execTxEmpty_error hP (Port.enterLifecycle_serial hs)⟩
  · have bit {reg : Byte} {r : Reg} (pt : Reg → OpPoint) (hr : bitopReg reg = .ok r) :
        s.onPort p (Port.beginBitOp s.config s.draw reg pt) = .refused .portBusy :=
      State.onPort_error hP (Port.beginBitOp_error pt hr (Port.requireIdle_busy hc))
    exact ⟨bit _ rfl, bit _ rfl, bit _ rfl, bit _ rfl⟩
  · exact State.onPort_begin_error _ hP (Port.enterLifecycle_busy (Port.enterStartup_ok hl) hc)
  · have hlife (o : Operation) : P.requireLife .active o = .ok P := Port.requireLife_ok o hl
    have lifecycle (o : Operation) :
        P.enterLifecycle (Port.requireLife .active o) = .error (.refusal .portBusy) :=
      Port.enterLifecycle_busy (hlife o) hc
    exact ⟨State.onPort_begin_error _ hP (Port.enterLifecycle_busy (Port.enterShutdown_ok hl) hc),
      State.onPort_begin_error _ hP (lifecycle _), State.onPort_begin_error _ hP (lifecycle _),
      State.onPort_begin_error _ hP (lifecycle _), execTxEmpty_error hP (lifecycle _),
      State.onPort_begin_error _ hP (Port.enter_busy (hlife _) hc),
      State.onPort_begin_error _ hP (Port.enter_busy (hlife _) hc)⟩

end Sys2Proof.Machine
end

section
/-!
PROOFS. Read-modify-writes of Control (spec/40_register_interface.md R96, R97; spec/70_reset_and_hazards.md R221):
the write stores what was read with the mask applied, whatever Control holds by then.
-/

namespace Sys2Proof.Machine

/-! ## A listed step of the operation on a port, and of a console write -/

section ListedStep
variable {s : State} {k p : Nat} {run : ConsoleRun} {P P' : Port} {pt : OpPoint} {d : Word}
  {chs : List Choice}

/-- The listed step of the operation in progress on a port. -/
theorem step_op (hr : s.ordinaryReady) (hP : s.ports[p]? = some P) (hs : s.schedule = ⟨.op p, d⟩ :: chs)
    (hc : P.ctl = some pt) (h : P.runOp s.config d pt = .ok P') :
    step s = .next { s with
      ports := s.ports.set p P', schedule := chs, tick := s.tick + 1, draw := d } := by
  obtain ⟨hf, hh, hd⟩ := hr
  rw [step_of_choice hf hs]
  refine (State.ordinary_ready (f := State.opAgent p) (by exact hh) (by exact hd)).trans ?_
  simp [State.opAgent, State.onPort, hP, hc, h, State.setPort]

/-- The listed step of a console write takes it on the port of line 5 (R151). -/
theorem step_console (hr : s.ordinaryReady) (hP : s.ports[5]? = some P) (hk : s.console[k]? = some run)
    (hs : s.schedule = ⟨.console k, d⟩ :: chs) :
    step s = State.onPortWith CONSOLE_LINE (consoleStep s.config d s.hostMem run) (updateConsole k)
      { s with schedule := chs, tick := s.tick + 1, draw := d } := by
  obtain ⟨hf, hh, hd⟩ := hr
  have hl : CONSOLE_LINE < s.ports.length := (List.getElem?_eq_some_iff.mp hP).1
  rw [step_of_choice hf hs]
  refine (State.ordinary_ready (f := State.consoleAgent k) (by exact hh) (by exact hd)).trans ?_
  simp [State.consoleAgent, State.onConsole, hk, hl]

/-- A console write's listed step that goes on at another point. -/
theorem step_console_next {run' : ConsoleRun} (hr : s.ordinaryReady) (hP : s.ports[5]? = some P)
    (hk : s.console[k]? = some run) (hs : s.schedule = ⟨.console k, d⟩ :: chs)
    (h : consoleStep s.config d s.hostMem run P = .ok (P', some run')) :
    step s = .next { s with
      ports := s.ports.set 5 P', console := s.console.set k run', schedule := chs, tick := s.tick + 1,
      draw := d } :=
  (step_console hr hP hk hs).trans (State.onPortWith_ok (by exact hP) h)

/-- A console write's listed step that ends it. -/
theorem step_console_end (hr : s.ordinaryReady) (hP : s.ports[5]? = some P)
    (hk : s.console[k]? = some run) (hs : s.schedule = ⟨.console k, d⟩ :: chs)
    (h : consoleStep s.config d s.hostMem run P = .ok (P', none)) :
    step s = .next { s with
      ports := s.ports.set 5 P', console := s.console.eraseIdx k, schedule := chs, tick := s.tick + 1,
      draw := d } :=
  (step_console hr hP hk hs).trans (State.onPortWith_ok (by exact hP) h)

end ListedStep

/-! ## The write access, from the points that stand at it -/

/-- A caller whose callee returns goes on as it says. -/
theorem andThen_of_return {α β : Type} {stay : α → β} {next : Port → Port × Option β} {P : Port}
    {r : Except Stop (Port × Option α)} (h : r = .ok (P, none)) : andThen stay next r = .ok (next P) := by
  rw [h]
  rfl

/-- An operation's step leaves the port at the point it reaches. -/
theorem Port.runOp_of_opStep {c : Config} {d : Word} {pt : OpPoint} {P Q : Port} {o : Option OpPoint}
    (h : opStep c d pt P = .ok (Q, o)) : P.runOp c d pt = .ok (Q.atPoint o) := by
  simp [Port.runOp, h, Port.atPoint]

/-- Every operation's write of Control stores the value read with its mask applied, and goes on as R96, R97, R110,
R125 and R130 to R133 say. -/
theorem Port.runOp_controlWrites {P : Port} (c : Config) (d v mask : Word) (hm : P.mapped = true) :
    ∀ x ∈ controlWrites v mask,
      P.runOp c d x.1 = .ok (x.2.2 { P with hw := { P.hw with ctrl := x.2.1 } }) := by
  unfold controlWrites
  refine List.forall_mem_append.mpr ⟨?_, ?_⟩
  · simp [Port.runOp, opStep, andThen, goto, done, finishStartup, hm]
  · simp [Port.runOp, opStep, refillStep, andThen, done, hm]

/-- The console's write of Control at `cw1` clears `TXIE` (R150). -/
theorem consoleStep_cw1_write {P : Port} (c : Config) (d v : Word) (mem : Memory) (str count : Addr)
    (snap : Bool) (hm : P.mapped = true) :
    consoleStep c d mem ⟨str, count, snap, .cw1 (.write v)⟩ P =
      .ok ({ P with hw := { P.hw with ctrl := v &&& ~~~TXIE } }, some ⟨str, count, snap, .cw2 0⟩) :=
  andThen_of_return (Port.clearBit_ctrl_write c d TXIE v hm)

/-- Settles O23: the write access itself, then each point that stands at one. -/
theorem lostUpdateOfControl : Obligations.LostUpdateOfControl := by
  refine ⟨fun c P v mask d hm =>
      ⟨Port.setBit_ctrl_write c d mask v hm, Port.clearBit_ctrl_write c d mask v hm⟩,
    fun s p P v mask d chs hr hP hm hs x hx hc => ?_, fun s k run P v d chs hr hP hm hk hs => ?_⟩
  · exact step_op hr hP hs hc (Port.runOp_controlWrites _ d v mask hm x hx)
  · obtain ⟨str, count, snap, pt⟩ := run
    refine ⟨?_, ?_⟩ <;> rintro rfl
    · exact step_console_next hr hP hk hs (consoleStep_cw1_write _ d v _ str count snap hm)
    · exact step_console_end hr hP hk hs (consoleStep_cw7_write _ d _ str count snap hm v)

/-! ## `set_bit` and `clear_bit` undisturbed -/

section BitOp
variable {s : State} {p : Nat} {P : Port} {mask : Word}

/-- A bit operation on Control of an Idle port starts with its read (R96, R97). -/
theorem Port.beginBitOp_ctrl {pt : Reg → OpPoint} {c : Config} {d : Word} {o : Option OpPoint}
    (hc : P.ctl = none) (h : opStep c d (pt .ctrl) P = .ok (P, o)) :
    P.beginBitOp c d 0x0 pt = .ok (P.atPoint o) := by
  simp [Port.beginBitOp, bitopReg, Port.begin, Port.requireIdle, hc, Port.runOp_of_opStep h]

/-- The write that ends a bit operation on Control, with no other agent since its read. -/
theorem State.runChoices_controlWrite {pt : OpPoint} {w : Word} {v : Word} (d : Word) (hr : s.ordinaryReady)
    (hP : s.ports[p]? = some P) (hm : P.mapped = true) (hc : P.ctl = none)
    (h : (pt, w, Port.atPoint none) ∈ controlWrites v mask) :
    (s.setPort p (P.atPoint (some pt))).runChoices (opChoices p [d]) =
      .next (State.after (opChoices p [d]) (s.setPort p { P with hw := { P.hw with ctrl := w } })) := by
  have hend : Port.atPoint none { P with hw := { P.hw with ctrl := w } } =
      { P with hw := { P.hw with ctrl := w } } := by
    rw [Port.atPoint, ← hc]
  have hwrite := Port.runOp_controlWrites (P := P.atPoint (some pt)) s.config d v mask hm _ h
  rw [← hend]
  exact State.runChoices_op_setPort hr hP rfl id hwrite

end BitOp

/-- Settles O19: the read holds Control in the control point, and the write is one of `controlWrites`. -/
theorem bitOpsOnControl : Obligations.BitOpsOnControl := by
  intro s p P mask d hr hP hm hc
  have hset : opStep s.config s.draw (.setBit .ctrl mask .read) P =
      .ok (P, some (.setBit .ctrl mask (.write P.hw.ctrl))) := by simp [opStep, hm, andThen]
  have hclear : opStep s.config s.draw (.clearBit .ctrl mask .read) P =
      .ok (P, some (.clearBit .ctrl mask (.write P.hw.ctrl))) := by simp [opStep, hm, andThen]
  exact ⟨⟨_, State.onPort_ok hP (Port.beginBitOp_ctrl hc hset), rfl,
      State.runChoices_controlWrite d hr hP hm hc (.head _)⟩,
    ⟨_, State.onPort_ok hP (Port.beginBitOp_ctrl hc hclear), rfl,
      State.runChoices_controlWrite d hr hP hm hc (.tail _ (.head _))⟩⟩

end Sys2Proof.Machine
end

section
/-!
PROOFS. The console's loop (spec/43_console_path.md R150 to R154, R222, R227): each of its steps on a mapped port,
and an undisturbed run of it, by induction on the bytes still to be sent.
-/

namespace Sys2Proof.Machine

/-! ## The steps of the loop -/

section LoopStep
variable {P : Port} (c : Config) (d : Word) (mem : Memory) (str count i : Addr) (snap : Bool)

theorem consoleStep_cw1_read (hm : P.mapped = true) :
    consoleStep c d mem ⟨str, count, snap, .cw1 .read⟩ P =
      .ok (P, some ⟨str, count, snap, .cw1 (.write P.hw.ctrl)⟩) := by
  simp [consoleStep, hm, andThen, ConsoleRun.moveTo]

/-- At `cw3` one read of Status: the console write stays while the TX FIFO is full (R150, R227). -/
theorem consoleStep_cw3 (hm : P.mapped = true) :
    consoleStep c d mem ⟨str, count, snap, .cw3 i⟩ P =
      .ok (P, some ⟨str, count, snap,
        if P.hw.txfifo.length = c.txFifoDepth then .cw3 i else .cw4 i⟩) := by
  simp [consoleStep, cw3Step, hm, UartHw.txff, ConsoleRun.moveTo]

/-- Before another byte the loop does what it does at the wait `cw3` (R12, R150). -/
theorem consoleStep_cw2_more (P : Port) (hi : i ≠ count) :
    consoleStep c d mem ⟨str, count, snap, .cw2 i⟩ P =
      consoleStep c d mem ⟨str, count, snap, .cw3 i⟩ P :=
  if_neg hi

/-- After the last byte the loop does what it does at the wait `cw6` (R12, R150). -/
theorem consoleStep_cw2_end (P : Port) :
    consoleStep c d mem ⟨str, count, snap, .cw2 count⟩ P =
      consoleStep c d mem ⟨str, count, snap, .cw6⟩ P :=
  if_pos rfl

/-- A byte that has been stored is the byte read, whatever the draw (R53). -/
theorem Memory.readByte_stored {m : Memory} {a : Addr} {b : Byte} (d : Word)
    (h : m.read a.toNat = some b) : m.readByte d a = b := by
  rw [Memory.readByte, h, Option.getD_some]

/-- At `cw4` the stored byte is read (R53, R150). -/
theorem consoleStep_cw4 (P : Port) {b : Byte} (h : mem.read (str + i).toNat = some b) :
    consoleStep c d mem ⟨str, count, snap, .cw4 i⟩ P = .ok (P, some ⟨str, count, snap, .cw5 i b⟩) := by
  rw [← Memory.readByte_stored d h]
  rfl

theorem consoleStep_cw5_room (b : Byte) (hm : P.mapped = true) (hroom : P.hw.txfifo.length ≠ c.txFifoDepth) :
    consoleStep c d mem ⟨str, count, snap, .cw5 i b⟩ P =
      .ok ({ P with hw := { P.hw with txfifo := P.hw.txfifo ++ [b] } },
        some ⟨str, count, snap, .cw2 (i + 1)⟩) := by
  simp [consoleStep, Port.regWrite_txdata_room c _ hm hroom, ConsoleRun.moveTo]

/-- A byte written to a TX FIFO that another writer has filled faults `F3` (R93, R222). -/
theorem consoleStep_cw5_full (b : Byte) (hm : P.mapped = true) (hfull : P.hw.txfifo.length = c.txFifoDepth) :
    consoleStep c d mem ⟨str, count, snap, .cw5 i b⟩ P = .error (.fault (.txOverflow (zext b))) := by
  simp [consoleStep, Port.regWrite_txdata_full c _ hm hfull]

end LoopStep

/-- The point that the test of `TXBUSY` sends the console write to, by the FIFO and the shifter (R31, R150). -/
theorem Port.endPoint_eq (P : Port) :
    (if P.hw.txbusy then ConsolePoint.cw6 else .cw7 .read) =
      if P.hw.txfifo = [] ∧ P.hw.shifter = none then .cw7 .read else .cw6 := by
  by_cases hidle : P.hw.txfifo = [] ∧ P.hw.shifter = none
  · simp [UartHw.txbusy, hidle]
  · rw [if_neg hidle, if_pos]
    simpa [UartHw.txbusy_iff, List.length_pos_iff, or_iff_not_imp_left] using hidle

/-! ## An undisturbed loop -/

@[simp] theorem consoleChoices_cons (k : Nat) (d : Word) (ds : List Word) :
    consoleChoices k (d :: ds) = ⟨.console k, d⟩ :: consoleChoices k ds := rfl

/-- A message of one byte and the rest is stored where its first byte is and the rest after it. -/
theorem consoleBytes_cons {m : Memory} {a : Addr} {b : Byte} {bs : List Byte}
    (h : consoleBytes m a (b :: bs)) : m.read a.toNat = some b ∧ consoleBytes m (a + 1) bs := by
  refine ⟨by simpa using h 0 b rfl, fun k b' hk => ?_⟩
  have hnext : a + BitVec.ofNat 64 (k + 1) = a + 1 + BitVec.ofNat 64 k := by
    rw [BitVec.add_assoc, Nat.add_comm, BitVec.ofNat_add]
    rfl
  rw [← hnext]
  exact h (k + 1) b' hk

/-- A port once a console write has sent `bs` (R152). -/
def Port.withSent (bs : List Byte) (P : Port) : Port :=
  { P with hw := { P.hw with txfifo := P.hw.txfifo ++ bs } }

theorem Port.withSent_cons (b : Byte) (bs : List Byte) (P : Port) :
    (P.withSent [b]).withSent bs = P.withSent (b :: bs) := by
  simp [Port.withSent]

section Loop
variable {s : State} {k : Nat} {run : ConsoleRun} {P : Port} {str count i : Addr} (snap : Bool)

/-- With no other agent in between and room in the TX FIFO, the loop takes three steps to send a byte. -/
theorem State.runChoices_consoleByte {b : Byte} {d₁ d₂ d₃ : Word} {chs : List Choice} (hr : s.ordinaryReady)
    (hk : s.console[k]? = some run) (hP : s.ports[CONSOLE_LINE]? = some P) (hm : P.mapped = true)
    (hi : i ≠ count) (hb : s.hostMem.read (str + i).toNat = some b)
    (hroom : P.hw.txfifo.length ≠ s.config.txFifoDepth) :
    (updateConsole k (some ⟨str, count, snap, .cw2 i⟩) s).runChoices
        (⟨.console k, d₁⟩ :: ⟨.console k, d₂⟩ :: ⟨.console k, d₃⟩ :: chs) =
      (updateConsole k (some ⟨str, count, snap, .cw2 (i + 1)⟩)
        ((((s.clock d₁).clock d₂).clock d₃).setPort CONSOLE_LINE (P.withSent [b]))).runChoices chs := by
  have hwait := (consoleStep_cw2_more s.config d₁ s.hostMem str count i snap P hi).trans
    (consoleStep_cw3 s.config d₁ s.hostMem str count i snap hm)
  rw [if_neg hroom] at hwait
  calc
    _ = (updateConsole k _ (s.clock d₁)).runChoices (⟨.console k, d₂⟩ :: _) :=
      State.runChoices_console_keep hr hk hP hwait
    _ = (updateConsole k _ ((s.clock d₁).clock d₂)).runChoices (⟨.console k, d₃⟩ :: chs) :=
      State.runChoices_console_keep (s := s.clock d₁) hr hk hP
        (consoleStep_cw4 s.config d₂ s.hostMem str count i snap P hb)
    _ = _ := State.runChoices_console_update (s := (s.clock d₁).clock d₂) hr hk hP
        (consoleStep_cw5_room s.config d₃ s.hostMem str count i snap b hm hroom)

/-- From `cw2`, with no other agent in between and room for all of them, the loop sends the bytes that remain
in order and stands at its end. -/
theorem State.runChoices_consoleLoop {bs : List Byte} {ds : List Word} (hr : s.ordinaryReady)
    (hk : s.console[k]? = some run) (hP : s.ports[CONSOLE_LINE]? = some P) (hm : P.mapped = true)
    (hn : i.toNat + bs.length = count.toNat) (hmem : consoleBytes s.hostMem (str + i) bs)
    (hroom : P.hw.txfifo.length + bs.length ≤ s.config.txFifoDepth) (hlen : ds.length = 3 * bs.length) :
    (updateConsole k (some ⟨str, count, snap, .cw2 i⟩) s).runChoices (consoleChoices k ds) =
      .next (State.after (consoleChoices k ds)
        (updateConsole k (some ⟨str, count, snap, .cw2 count⟩)
          (s.setPort CONSOLE_LINE (P.withSent bs)))) := by
  induction bs generalizing s P i ds with
  | nil =>
    obtain rfl : ds = [] := List.length_eq_zero_iff.mp hlen
    obtain rfl : i = count := BitVec.eq_of_toNat_eq hn
    have hsent : P.withSent [] = P := by simp [Port.withSent]
    rw [hsent, State.setPort_self hP]
    rfl
  | cons b bs ih =>
    rw [List.length_cons] at hn hroom hlen
    obtain _ | ⟨d₁, _ | ⟨d₂, _ | ⟨d₃, ds⟩⟩⟩ := ds <;>
      simp only [List.length_cons, List.length_nil] at hlen
    · omega
    · omega
    · omega
    obtain ⟨hb, hbs⟩ := consoleBytes_cons hmem
    have hmore : i ≠ count := by
      rintro rfl
      omega
    have hi : (i + 1).toNat = i.toNat + 1 := by
      have := count.isLt
      simp
      omega
    have hrest := ih (i := i + 1) (ds := ds)
      (s := (((s.clock d₁).clock d₂).clock d₃).setPort CONSOLE_LINE (P.withSent [b]))
      (State.ordinaryReady_setPort hr hP id) hk (State.setPort_get_same hP) hm (by omega)
      (by rw [← BitVec.add_assoc]; exact hbs) (by simp [Port.withSent]; omega) (by omega)
    rw [State.setPort_setPort, Port.withSent_cons] at hrest
    simp only [consoleChoices_cons, State.after_cons, updateConsole_clock, ← State.clock_setPort]
    exact (State.runChoices_consoleByte snap hr hk hP hm hmore hb (by omega)).trans hrest

end Loop

/-! ## A console write from its start -/

/-- The console write just started is the last one in the list (R150). -/
theorem updateConsole_append (s : State) (r r' : ConsoleRun) :
    updateConsole s.console.length (some r') { s with console := s.console ++ [r] } =
      { s with console := s.console ++ [r'] } := by
  simp [updateConsole]

/-- Clearing bits of Control lets no port ask for its handler that did not (R168). -/
theorem Port.interrupting_clearCtrl {P : Port} {c : Config} (m : Word) (h : P.interrupting c = false) :
    Port.interrupting c { P with hw := { P.hw with ctrl := P.hw.ctrl &&& ~~~m } } = false := by
  have hbit (i : Nat) : (P.hw.ctrl &&& ~~~m).getLsbD i = true → P.hw.ctrl.getLsbD i = true := by
    rw [BitVec.getLsbD_and, Bool.and_eq_true]
    exact And.left
  exact Port.interrupting_mono (P := P) id (UartHw.irqOut_mono (hbit 15) (hbit 19) (hbit 18) id id) h

/-- A console write that has just read its snapshot, with no other agent in between and room for all its bytes,
clears `TXIE`, sends them and stands at the end of its loop. -/
theorem State.runChoices_consoleWrite {s : State} {P : Port} {str count : Addr} (snap : Bool)
    {bs : List Byte} {ds : List Word} (hr : s.ordinaryReady) (hP : s.ports[CONSOLE_LINE]? = some P)
    (hm : P.mapped = true) (hn : bs.length = count.toNat) (hmem : consoleBytes s.hostMem str bs)
    (hroom : P.hw.txfifo.length + bs.length ≤ s.config.txFifoDepth) (hlen : ds.length = 3 * bs.length + 2) :
    State.runChoices (consoleChoices s.console.length ds)
        { s with console := s.console ++ [⟨str, count, snap, .cw1 .read⟩] } =
      .next (State.after (consoleChoices s.console.length ds)
        { s.setPort CONSOLE_LINE { P with hw := { P.hw with
            ctrl := P.hw.ctrl &&& ~~~TXIE, txfifo := P.hw.txfifo ++ bs } } with
          console := s.console ++ [⟨str, count, snap, .cw2 count⟩] }) := by
  obtain _ | ⟨d₁, _ | ⟨d₂, ds⟩⟩ := ds <;> simp only [List.length_cons, List.length_nil] at hlen
  · omega
  · omega
  let t : State := { s with console := s.console ++ [⟨str, count, snap, .cw1 .read⟩] }
  let Q : Port := { P with hw := { P.hw with ctrl := P.hw.ctrl &&& ~~~TXIE } }
  have hk : t.console[s.console.length]? = some ⟨str, count, snap, .cw1 .read⟩ := by simp [t]
  have hread := consoleStep_cw1_read s.config d₁ s.hostMem str count snap hm
  have hclear := consoleStep_cw1_write s.config d₂ P.hw.ctrl s.hostMem str count snap hm
  have hloop := State.runChoices_consoleLoop (s := ((t.clock d₁).setPort CONSOLE_LINE Q).clock d₂)
    (str := str) (count := count) (i := 0) (ds := ds) snap
    (State.ordinaryReady_setPort hr hP (Port.interrupting_clearCtrl TXIE)) hk (State.setPort_get_same hP) hm
    (by simpa using hn) (by simpa using hmem) hroom (by omega)
  calc
    _ = (updateConsole s.console.length _ t).runChoices (⟨.console s.console.length, d₁⟩ :: _) :=
      congrArg _ (updateConsole_self hk).symm
    _ = (updateConsole s.console.length _ (t.clock d₁)).runChoices (⟨.console s.console.length, d₂⟩ :: _) :=
      State.runChoices_console_keep hr hk hP hread
    _ = _ := State.runChoices_console_update (s := t.clock d₁) hr hk hP hclear
    _ = _ := hloop
    _ = _ := by
      rw [consoleChoices_cons, consoleChoices_cons, State.after_cons, State.after_cons, State.clock_setPort,
        State.setPort_setPort]
      exact congrArg (Host.Outcome.next ∘ State.after (consoleChoices s.console.length ds))
        (updateConsole_append (((s.setPort CONSOLE_LINE (Q.withSent bs)).clock d₁).clock d₂) _ _)

/-- Settles O43: the undisturbed run above; then each step of the loop, whatever the message's length. -/
theorem consoleSendsItsBytesInOrder : Obligations.ConsoleSendsItsBytesInOrder := by
  refine ⟨fun s p P str count bs ds hr hP hm hn hmem hroom hlen => ?_,
    fun s P k str count i snap pt b d chs hr hP hm hk hs => ?_⟩
  · exact ⟨_, (consoleWriteStarts s p str count).1 P hP hm,
      State.runChoices_consoleWrite _ hr hP hm hn hmem hroom hlen⟩
  have keep {r : ConsoleRun}
      (h : consoleStep s.config d s.hostMem ⟨str, count, snap, pt⟩ P = .ok (P, some r)) :
      step s = .next { s with
        console := s.console.set k r, schedule := chs, tick := s.tick + 1, draw := d } := by
    have hsame : s.ports.set 5 P = s.ports := congrArg State.ports (State.setPort_self hP)
    rw [step_console_next hr hP hk hs h, hsame]
  have hwait := consoleStep_cw3 s.config d s.hostMem str count i snap hm
  refine ⟨?_, ?_, ?_, ?_, ?_⟩
  · rintro (rfl | ⟨rfl, hi⟩)
    · exact keep hwait
    · exact keep ((consoleStep_cw2_more _ _ _ _ _ _ _ P hi).trans hwait)
  · rintro rfl hb
    exact keep (consoleStep_cw4 _ d _ str count i snap P hb)
  · rintro rfl hroom
    exact step_console_next hr hP hk hs (consoleStep_cw5_room _ d _ str count i snap b hm hroom)
  · rintro rfl hfull
    exact (step_console hr hP hk hs).trans
      (State.onPortWith_error (by exact hP) (consoleStep_cw5_full _ d _ str count i snap b hm hfull))
  · rintro rfl
    rw [← Port.endPoint_eq]
    exact keep ((consoleStep_cw2_end _ _ _ _ _ _ P).trans (consoleStep_cw6 _ d _ str count snap hm))

end Sys2Proof.Machine
end

section
/-!
PROOFS. The side effects of an action's first step on the UARTs (spec/20_memory.md R56): the first step of an
operation keeps its port's UART, so only a read of RX-Data and the writes touch one.
-/

namespace Sys2Proof.Machine

/-- What an action with this opcode may touch of a UART: the part that R56 gives its access, if any. -/
structure UartHw.TouchedBy (o : Opcode) (hw hw' : UartHw) : Prop where
  rxfifo : o ≠ .rd .rxdata → hw'.rxfifo = hw.rxfifo
  txfifo : o ≠ .wr .txdata → hw'.txfifo = hw.txfifo
  ctrl : o ≠ .wr .ctrl → hw'.ctrl = hw.ctrl
  pend : o ≠ .wr .status → hw'.txpend = hw.txpend ∧ hw'.rxpend = hw.rxpend

/-! ## The accesses -/

/-- Any action may leave a UART as it is. -/
theorem UartHw.TouchedBy.of_eq {o : Opcode} {hw hw' : UartHw} (h : hw' = hw) : UartHw.TouchedBy o hw hw' := by
  subst h
  exact ⟨fun _ => rfl, fun _ => rfl, fun _ => rfl, fun _ => ⟨rfl, rfl⟩⟩

/-- Only a read of RX-Data has an effect (R56, R92). -/
theorem UartHw.readReg_hw {r : Reg} (c : Config) (d : Word) (hw : UartHw) (hr : r ≠ .rxdata) :
    (hw.readReg c d r).2 = hw := by
  cases r with
  | rxdata => exact absurd rfl hr
  | ctrl | txdata | status => rfl

theorem UartHw.readReg_touched (c : Config) (d : Word) (r : Reg) (hw : UartHw) :
    UartHw.TouchedBy (.rd r) hw (hw.readReg c d r).2 := by
  by_cases hr : r = .rxdata
  · subst hr
    cases hf : hw.rxfifo with
    | nil => exact .of_eq (by simp [UartHw.readReg, UartHw.readRx, hf])
    | cons b bs =>
      have hQ : (hw.readReg c d .rxdata).2 = { hw with rxfifo := bs } := by
        simp [UartHw.readReg, UartHw.readRx, hf]
      rw [hQ]
      exact ⟨fun h => absurd rfl h, fun _ => rfl, fun _ => rfl, fun _ => ⟨rfl, rfl⟩⟩
  · exact .of_eq (hw.readReg_hw c d hr)

theorem UartHw.writeReg_touched {c : Config} {r : Reg} {v : Word} {hw hw' : UartHw}
    (h : hw.writeReg c r v = .ok hw') : UartHw.TouchedBy (.wr r) hw hw' := by
  cases r with
  | ctrl =>
    cases h
    exact ⟨fun _ => rfl, fun _ => rfl, fun hn => absurd rfl hn, fun _ => ⟨rfl, rfl⟩⟩
  | rxdata =>
    cases h
    exact .of_eq rfl
  | txdata =>
    simp only [UartHw.writeReg, UartHw.writeTx] at h
    split at h
    · cases h
    · cases h
      exact ⟨fun _ => rfl, fun hn => absurd rfl hn, fun _ => rfl, fun _ => ⟨rfl, rfl⟩⟩
  | status =>
    cases h
    exact ⟨fun _ => rfl, fun _ => rfl, fun _ => rfl, fun hn => absurd rfl hn⟩

section Port
variable {c : Config} {d : Word} {P Q : Port}

theorem Port.readAction_touched {r : Reg} (h : P.readAction c d r = .ok Q) :
    UartHw.TouchedBy (.rd r) P.hw Q.hw := by
  unfold Port.readAction at h
  split at h
  · cases h
  · rename_i hr
    cases h
    obtain ⟨-, -, rfl⟩ := Port.regRead_cases hr
    exact UartHw.readReg_touched c d r P.hw

theorem Port.regWrite_touched {r : Reg} {v : Word} (h : P.regWrite c r v = .ok Q) :
    UartHw.TouchedBy (.wr r) P.hw Q.hw := by
  obtain ⟨-, hw, hwrite, rfl⟩ := Port.regWrite_cases h
  exact UartHw.writeReg_touched hwrite

/-! ## The first steps of the operations -/

theorem Port.regRead_hw {r : Reg} {v : Word} (hr : r ≠ .rxdata) (h : P.regRead c d r = .ok (v, Q)) :
    Q.hw = P.hw := by
  obtain ⟨-, -, rfl⟩ := Port.regRead_cases h
  exact P.hw.readReg_hw c d hr

theorem Port.testBit_hw {r : Reg} {m : Word} {b : Bool} (hr : r ≠ .rxdata)
    (h : P.testBit c d r m = .ok (b, Q)) : Q.hw = P.hw := by
  unfold Port.testBit at h
  split at h
  · cases h
  · rename_i hread
    cases h
    exact Port.regRead_hw hr hread

/-- A read-modify-write starts with its read. -/
theorem Port.rmw_read_hw {r : Reg} {f : Word → Word} {o : Option Rmw} (hr : r ≠ .rxdata)
    (h : P.rmw c d r f .read = .ok (Q, o)) : Q.hw = P.hw := by
  simp only [Port.rmw] at h
  split at h
  · cases h
  · rename_i hread
    cases h
    exact Port.regRead_hw hr hread

/-- A bit operation reaches no data register (R76). -/
theorem bitopReg_ne_rxdata {reg : Byte} {r : Reg} (h : bitopReg reg = .ok r) : r ≠ .rxdata := by
  unfold bitopReg at h
  split at h
  · cases h
    simp
  · split at h <;> cases h
    simp

/-- The points at which the operations start; a bit operation starts on a register it admits. -/
inductive OpPoint.Start : OpPoint → Prop
  | setBit {r mask} : r ≠ .rxdata → Start (.setBit r mask .read)
  | clearBit {r mask} : r ≠ .rxdata → Start (.clearBit r mask .read)
  | writeTxFifo : Start (.writeTxFifo .wf0)
  | rxDrain : Start (.rxDrain .rd0)
  | su0 : Start .su0
  | sd0 : Start (.sd0 .read)
  | startTx : Start (.startTx .wf0)
  | st0 : Start (.st0 .read)
  | sr0 : Start (.sr0 .read)

theorem drainStep_rd0_hw {o : Option DrainPoint} (h : drainStep c d .rd0 P = .ok (Q, o)) : Q.hw = P.hw := by
  simp only [drainStep] at h
  split at h
  · cases h
  · rename_i ht
    cases h
    exact Port.testBit_hw (by simp) ht

/-- The first step of every operation keeps the UART. -/
theorem OpPoint.Start.opStep_hw {pt : OpPoint} {o : Option OpPoint} (hpt : pt.Start)
    (h : opStep c d pt P = .ok (Q, o)) : Q.hw = P.hw := by
  cases hpt with
  | setBit hr | clearBit hr => exact Port.rmw_read_hw hr (andThen_done h).choose_spec
  | writeTxFifo | startTx =>
    cases h
    rfl
  | rxDrain => exact drainStep_rd0_hw (andThen_done h).choose_spec
  | su0 =>
    simp only [opStep, registerStep] at h
    split at h <;>
    · cases h
      rfl
  | sd0 | st0 | sr0 => exact Port.rmw_read_hw (by simp) (andThen_goto h).choose_spec

/-- An operation whose entry keeps the UART keeps it in its first step. -/
theorem Port.begin_hw {entry : Port → Except Stop Port} {pt : OpPoint} (hpt : pt.Start)
    (hentry : ∀ P', entry P = .ok P' → P'.hw = P.hw) (h : P.begin c d entry pt = .ok Q) : Q.hw = P.hw := by
  obtain ⟨P', hP', hrun⟩ := Port.begin_cases h
  obtain ⟨P'', o, hop, rfl⟩ := Port.runOp_cases hrun
  exact (hpt.opStep_hw hop).trans (hentry P' hP')

theorem Port.requireLife_hw {l : Life} {o : Operation} (h : P.requireLife l o = .ok Q) : Q.hw = P.hw := by
  rw [(Port.requireLife_cases h).2]

/-- `startup` enters by moving `life` from Inactive to Starting (R125). -/
theorem Port.enterStartup_cases (h : P.enterStartup = .ok Q) :
    P.life = .inactive ∧ Q = { P with life := .starting } := by
  unfold Port.enterStartup at h
  split at h
  · cases h
  · rename_i hl
    cases h
    obtain ⟨hlife, rfl⟩ := Port.requireLife_cases hl
    exact ⟨hlife, rfl⟩

/-- `shutdown` enters by moving `life` from Active to Stopping (R130). -/
theorem Port.enterShutdown_cases (h : P.enterShutdown = .ok Q) :
    P.life = .active ∧ Q = { P with life := .stopping } := by
  unfold Port.enterShutdown at h
  split at h
  · cases h
  · rename_i hl
    cases h
    obtain ⟨hlife, rfl⟩ := Port.requireLife_cases hl
    exact ⟨hlife, rfl⟩

theorem Port.beginBitOp_hw {reg : Byte} {pt : Reg → OpPoint} (hpt : ∀ r, r ≠ .rxdata → (pt r).Start)
    (h : P.beginBitOp c d reg pt = .ok Q) : Q.hw = P.hw := by
  unfold Port.beginBitOp at h
  split at h
  · cases h
  · rename_i hreg
    refine Port.begin_hw (hpt _ (bitopReg_ne_rxdata hreg)) (fun P' hP' => ?_) h
    rw [(Port.requireIdle_cases hP').2]

theorem Port.testAction_hw {reg : Byte} {mask : Word} (h : P.testAction c d reg mask = .ok Q) :
    Q.hw = P.hw := by
  unfold Port.testAction at h
  split at h
  · cases h
  rename_i hreg
  split at h
  · cases h
  · rename_i ht
    cases h
    exact (Port.testBit_hw (bitopReg_ne_rxdata hreg) ht :)

theorem Port.txEmptyAction_hw (h : P.txEmptyAction c d = .ok Q) : Q.hw = P.hw := by
  unfold Port.txEmptyAction at h
  split at h
  · cases h
  rename_i hentry
  split at h
  · cases h
  · rename_i ht
    cases h
    exact (Port.testBit_hw (by simp) ht).trans (Port.requireLife_hw (Port.enterLifecycle_cases hentry).1)

theorem ih0Step_hw {o : Option HandlerPoint} (h : ih0Step c d P = .ok (Q, o)) : Q.hw = P.hw := by
  unfold ih0Step at h
  split at h
  · cases h
  · rename_i hr
    cases h
    exact Port.regRead_hw (by simp) hr

theorem consoleStep_cw0_hw {mem : Memory} {str count : Addr} {snap : Bool} {o : Option ConsoleRun}
    (h : consoleStep c d mem ⟨str, count, snap, .cw0⟩ P = .ok (Q, o)) : Q.hw = P.hw := by
  simp only [consoleStep] at h
  split at h
  · cases h
  · rename_i ht
    cases h
    exact Port.testBit_hw (by simp) ht

end Port

/-! ## The first step of every action -/

section Exec
variable {s t : State} {p q : Nat} {P Q : Port} {o : Opcode}

/-- A step that touches its port's UART as the action may touches every port's so. -/
theorem State.onPort_touched {f : Port → Except Stop Port}
    (hf : ∀ P Q, f P = .ok Q → UartHw.TouchedBy o P.hw Q.hw) (h : s.onPort p f = .next t)
    (hP : s.ports[q]? = some P) (hQ : t.ports[q]? = some Q) : UartHw.TouchedBy o P.hw Q.hw := by
  rcases State.onPort_slot h hP hQ with rfl | ⟨-, hPQ⟩
  · exact .of_eq rfl
  · exact hf P Q hPQ

/-- A step that keeps its port's UART. -/
theorem State.onPort_kept {f : Port → Except Stop Port} (hf : ∀ P Q, f P = .ok Q → Q.hw = P.hw)
    (h : s.onPort p f = .next t) (hP : s.ports[q]? = some P) (hQ : t.ports[q]? = some Q) :
    UartHw.TouchedBy o P.hw Q.hw :=
  State.onPort_touched (fun P Q hPQ => .of_eq (hf P Q hPQ)) h hP hQ

/-- Writing a port that keeps its UART. -/
theorem State.setPort_kept {P' Q' : Port} (hP' : s.ports[p]? = some P') (hhw : Q'.hw = P'.hw)
    (hP : s.ports[q]? = some P) (hQ : (s.setPort p Q').ports[q]? = some Q) :
    UartHw.TouchedBy o P.hw Q.hw := by
  rcases State.setPort_slot hP hQ with rfl | ⟨rfl, rfl⟩
  · exact .of_eq rfl
  · exact .of_eq (by rwa [← Option.some.inj (hP'.symm.trans hP)])

/-- The first step of an action touches no UART but as its access may (R56). -/
theorem exec_touched {i : Instr} (h : exec i s = .next t) (hP : s.ports[q]? = some P)
    (hQ : t.ports[q]? = some Q) : UartHw.TouchedBy i.opcode P.hw Q.hw := by
  have life {P P' : Port} {l o} (he : P.enterLifecycle (Port.requireLife l o) = .ok P') : P'.hw = P.hw :=
    Port.requireLife_hw (Port.enterLifecycle_cases he).1
  have direct {P P' : Port} {l o} (he : P.enter (Port.requireLife l o) = .ok P') : P'.hw = P.hw :=
    Port.requireLife_hw (Port.enter_cases he).1
  cases i with
  | rdCtrl p | rdRxdata p | rdTxdata p | rdStatus p =>
    exact State.onPort_touched (fun _ _ => Port.readAction_touched) h hP hQ
  | wrCtrl p v | wrRxdata p v | wrTxdata p v | wrStatus p v =>
    exact State.onPort_touched (fun _ _ => Port.regWrite_touched) h hP hQ
  | setBit p reg mask => exact State.onPort_kept (fun _ _ => Port.beginBitOp_hw fun _ => .setBit) h hP hQ
  | clearBit p reg mask => exact State.onPort_kept (fun _ _ => Port.beginBitOp_hw fun _ => .clearBit) h hP hQ
  | testBit p reg mask => exact State.onPort_kept (fun _ _ => Port.testAction_hw) h hP hQ
  | writeTxFifo p => exact State.onPort_kept (fun _ _ => Port.begin_hw .writeTxFifo fun _ => direct) h hP hQ
  | rxDrain p => exact State.onPort_kept (fun _ _ => Port.begin_hw .rxDrain fun _ => direct) h hP hQ
  | irqHandler p =>
    obtain ⟨hg, h⟩ := execIrqHandler_cases h
    rcases State.handlerAgent_cases hg h with ⟨P', Q', o, hP', hstep, rfl⟩ | ⟨fl, rfl⟩
    · exact State.setPort_kept hP' (ih0Step_hw hstep) hP hQ
    · rw [Option.some.inj (hQ.symm.trans hP)]
      exact .of_eq rfl
  | startup p =>
    refine State.onPort_kept (fun _ _ => Port.begin_hw .su0 fun P' he => ?_) h hP hQ
    rw [(Port.enterStartup_cases (Port.enterLifecycle_cases he).1).2]
  | shutdown p =>
    refine State.onPort_kept (fun _ _ => Port.begin_hw .sd0 fun P' he => ?_) h hP hQ
    rw [(Port.enterShutdown_cases (Port.enterLifecycle_cases he).1).2]
  | startTx p => exact State.onPort_kept (fun _ _ => Port.begin_hw .startTx fun _ => life) h hP hQ
  | stopTx p => exact State.onPort_kept (fun _ _ => Port.begin_hw .st0 fun _ => life) h hP hQ
  | stopRx p => exact State.onPort_kept (fun _ _ => Port.begin_hw .sr0 fun _ => life) h hP hQ
  | txEmpty p => exact State.onPort_kept (fun _ _ => Port.txEmptyAction_hw) h hP hQ
  | setMctrl p _ | setTermios p _ _ =>
    exact State.onPort_kept (f := .ok) (fun _ _ hf => by cases hf; rfl) h hP hQ
  | consoleWrite p str count =>
    rcases execConsoleWrite_cases p h with ⟨P', Q', o, hP', hstep, rfl⟩ | ⟨fl, rfl⟩
    · exact State.setPort_kept hP' (consoleStep_cw0_hw hstep) hP hQ
    · rw [Option.some.inj (hQ.symm.trans hP)]
      exact .of_eq rfl

end Exec

/-- Settles O60: `TouchedBy`, part by part. -/
theorem onlyItsAccessTouchesTheUart : Obligations.OnlyItsAccessTouchesTheUart := by
  intro i s t p P Q h hP hQ
  obtain ⟨hrx, htx, hctrl, hpend⟩ := exec_touched h hP hQ
  exact ⟨hrx, htx, hctrl, hpend⟩

end Sys2Proof.Machine
end

section
/-!
PROOFS. The encoding of actions (spec/30_encoding.md R70 to R79): encode and decode agree, the map of codes, the
faults of the codes outside it, and the register operand of a bit operation (R76).
-/

namespace Sys2Proof

/-! ## Encode and decode -/

/-- The operands of every action are read back from its operand bytes (R75, R76). -/
theorem decodeOperands_operandBytes : ∀ i : Instr, Laws.OperandsDecode.Statement i
  | .rdCtrl p => Laws.OperandsDecode.rdCtrl p
  | .rdRxdata p => Laws.OperandsDecode.rdRxdata p
  | .rdTxdata p => Laws.OperandsDecode.rdTxdata p
  | .rdStatus p => Laws.OperandsDecode.rdStatus p
  | .wrCtrl p v => Laws.OperandsDecode.wrCtrl p v
  | .wrRxdata p v => Laws.OperandsDecode.wrRxdata p v
  | .wrTxdata p v => Laws.OperandsDecode.wrTxdata p v
  | .wrStatus p v => Laws.OperandsDecode.wrStatus p v
  | .setBit p reg mask => Laws.OperandsDecode.setBit p reg mask
  | .clearBit p reg mask => Laws.OperandsDecode.clearBit p reg mask
  | .testBit p reg mask => Laws.OperandsDecode.testBit p reg mask
  | .writeTxFifo p => Laws.OperandsDecode.writeTxFifo p
  | .rxDrain p => Laws.OperandsDecode.rxDrain p
  | .irqHandler p => Laws.OperandsDecode.irqHandler p
  | .startup p => Laws.OperandsDecode.startup p
  | .shutdown p => Laws.OperandsDecode.shutdown p
  | .startTx p => Laws.OperandsDecode.startTx p
  | .stopTx p => Laws.OperandsDecode.stopTx p
  | .stopRx p => Laws.OperandsDecode.stopRx p
  | .txEmpty p => Laws.OperandsDecode.txEmpty p
  | .setMctrl p mctrl => Laws.OperandsDecode.setMctrl p mctrl
  | .setTermios p new old => Laws.OperandsDecode.setTermios p new old
  | .consoleWrite p str count => Laws.OperandsDecode.consoleWrite p str count

/-- The decoder reads a code byte, a port byte and operand bytes in turn. -/
theorem decode_cons_cons {code port : Byte} {o : Opcode} {bs : List Byte} {r : Instr × List Byte}
    (hcode : decodeCode code = .ok o) (hport : port.toNat ≤ lineMax)
    (hbs : decodeOperands o port.toNat bs = some r) : decode (code :: port :: bs) = .ok r := by
  simp [decode, hcode, hport, hbs]

/-- A code that selects nothing is the whole error, whatever follows it (R79). -/
theorem decode_cons_error {code : Byte} {e : DecodeError} (bs : List Byte) (h : decodeCode code = .error e) :
    decode (code :: bs) = .error e := by
  simp [decode, h]

/-- Settles O1: code, port and operands are each read back. -/
theorem decodeOfEncodeIsTheAction : Obligations.DecodeOfEncodeIsTheAction := by
  intro i rest hwf
  have hle : i.port ≤ lineMax := of_decide_eq_true hwf
  have hport : (BitVec.ofNat 8 i.port).toNat = i.port := toNat_ofNat_port hle
  refine decode_cons_cons (decodeCode_code _) (hport.trans_le hle) ?_
  rw [hport]
  exact decodeOperands_operandBytes i rest

/-! ## The map of codes -/

/-- The operation of a number has that number (R75). -/
theorem Operation.number_of_ofNumber {n : Nat} {o : Operation} (h : Operation.ofNumber n = some o) :
    o.number.toNat = n := by
  unfold Operation.ofNumber at h
  split at h <;> cases h <;> rfl

/-- The register of an index has that index (R72). -/
theorem Reg.index_ofIndex (i : BitVec 2) : (Reg.ofIndex i).index = i := by
  revert i
  decide

/-- A single bit is a field of width one. -/
theorem ofBool_getLsbD {w : Nat} (x : BitVec w) (i : Nat) :
    BitVec.ofBool (x.getLsbD i) = x.extractLsb' i 1 := by
  ext j hj
  simp [show j = 0 by omega]

/-- A code is its class bit and its number (R70, R75). -/
theorem code_eq_class_number (code : Byte) :
    code = BitVec.ofBool (code.getLsbD 7) ++ code.extractLsb' 0 7 := by
  simp only [ofBool_getLsbD, BitVec.extractLsb'_append_extractLsb'_eq_extractLsb', BitVec.extractLsb'_eq_self]

/-- A code is its class, size, direction and offset fields (R70, R71). -/
theorem code_eq_fields (code : Byte) :
    code = BitVec.ofBool (code.getLsbD 7) ++ code.extractLsb' 5 2 ++ BitVec.ofBool (code.getLsbD 4) ++
      (code.extractLsb' 2 2 ++ code.extractLsb' 0 2) := by
  simp only [ofBool_getLsbD, BitVec.extractLsb'_append_extractLsb'_eq_extractLsb', BitVec.extractLsb'_eq_self]

/-- The code of an operation's number, whose class bit is 1, is the operation's (R75). -/
theorem Opcode.code_op_of_number {code : Byte} {o : Operation} (h7 : code.getLsbD 7 = true)
    (ho : Operation.ofNumber (code.extractLsb' 0 7).toNat = some o) : (Opcode.op o).code = code := by
  have hnum : o.number = code.extractLsb' 0 7 := BitVec.eq_of_toNat_eq (Operation.number_of_ofNumber ho)
  rw [code_eq_class_number code, h7, ← hnum]
  rfl

/-- The code of an access, field by field: `0 10 W off` (R71). -/
theorem Opcode.code_access (write : Bool) (i : BitVec 2) :
    (if write then Opcode.wr (Reg.ofIndex i) else .rd (Reg.ofIndex i)).code =
      BitVec.ofBool false ++ 0b10#2 ++ BitVec.ofBool write ++ (i ++ 0b00#2) := by
  cases write with
  | false => exact congrArg (fun j => 0b0100#4 ++ (j ++ 0b00#2)) (Reg.index_ofIndex i)
  | true => exact congrArg (fun j => 0b0101#4 ++ (j ++ 0b00#2)) (Reg.index_ofIndex i)

/-- A code of class 0 with the size of 32 bits and an offset that is a multiple of 4 is the code of the access its
direction and offset select (R71, R72). -/
theorem Opcode.code_access_of_fields {code : Byte} (h7 : code.getLsbD 7 = false)
    (hsize : code.extractLsb' 5 2 = 0b10#2) (hlow : code.extractLsb' 0 2 = 0b00#2) :
    (if code.getLsbD 4 then Opcode.wr (Reg.ofIndex (code.extractLsb' 2 2))
      else .rd (Reg.ofIndex (code.extractLsb' 2 2))).code = code := by
  rw [Opcode.code_access, ← h7, ← hsize, ← hlow]
  exact (code_eq_fields code).symm

/-- Everything the decoder of codes can answer: an opcode with that code, or the fault of R79, by bit 7. -/
theorem decodeCode_cases (code : Byte) :
    (∃ o : Opcode, decodeCode code = .ok o ∧ o.code = code) ∨
      decodeCode code = .error (if code.getLsbD 7 then .reserved code else .notAdmitted code) := by
  unfold decodeCode
  split
  · rename_i h7
    split
    · rename_i o ho
      exact .inl ⟨.op o, rfl, Opcode.code_op_of_number h7 ho⟩
    · exact .inr rfl
  · rename_i h7
    split
    · rename_i hfields
      exact .inl ⟨_, rfl, Opcode.code_access_of_fields (Bool.eq_false_iff.mpr h7) hfields.1 hfields.2⟩
    · exact .inr rfl

/-- The decoder of codes answers the opcode whose code it is given. -/
theorem decodeCode_eq_ok_iff {code : Byte} {o : Opcode} : decodeCode code = .ok o ↔ o.code = code := by
  refine ⟨fun h => ?_, fun h => h ▸ decodeCode_code o⟩
  rcases decodeCode_cases code with ⟨o', ho', hcode⟩ | herr
  · cases ho'.symm.trans h
    exact hcode
  · cases herr.symm.trans h

/-- The decoder of codes answers the fault of R79 for a code of no opcode. -/
theorem decodeCode_unlisted {code : Byte} (h : ∀ o : Opcode, o.code ≠ code) :
    decodeCode code = .error (if code.getLsbD 7 then .reserved code else .notAdmitted code) :=
  (decodeCode_cases code).resolve_left fun ⟨o, _, hcode⟩ => h o hcode

/-- The map of R78 has a row for an opcode at its code and nowhere else. -/
theorem mem_codeMap_iff {code : Byte} {o : Opcode} : (code, o) ∈ codeMap ↔ o.code = code := by
  have hrows : ∀ row ∈ codeMap, row.2.code = row.1 := by decide
  refine ⟨hrows (code, o), ?_⟩
  rintro rfl
  cases o with
  | rd r => cases r <;> decide
  | wr r => cases r <;> decide
  | op o => cases o <;> decide

/-- Settles O2: decoder, encoder and map agree on every opcode's code; a code in no row is no opcode's. -/
theorem codeMapIsComplete : Obligations.CodeMapIsComplete := fun _ =>
  ⟨fun _ => ⟨decodeCode_eq_ok_iff.trans mem_codeMap_iff.symm, mem_codeMap_iff⟩,
    fun h => decodeCode_unlisted fun o ho => h o (mem_codeMap_iff.mpr ho)⟩

/-- Settles O3: eight closed table words, decoded. -/
theorem tableWordsDecode : Obligations.TableWordsDecode := by
  unfold Obligations.TableWordsDecode
  decide

end Sys2Proof

namespace Sys2Proof.Machine

/-! ## The codes outside the map -/

/-- The caller's code outside the map is the fault of R79, by bit 7, and no action. -/
theorem State.callAgent_unlisted {s : State} {code : Byte} {bs : List Byte} (hcalls : s.calls = code :: bs)
    (h : ∀ o : Opcode, o.code ≠ code) :
    s.callAgent = s.raise (if code.getLsbD 7 then .reserved code else .access (.code code)) := by
  simp only [State.callAgent, hcalls, decode_cons_error bs (decodeCode_unlisted h)]
  cases code.getLsbD 7 <;> rfl

/-- Settles O4: the ordinary context has the step, and the caller's bytes are no action. -/
theorem unlistedCodesFault : Obligations.UnlistedCodesFault := by
  intro s code bs d chs ⟨hf, hh, hd⟩ hcalls hs hcode
  rw [step_of_choice hf hs]
  exact (State.ordinary_ready (f := State.callAgent) (by exact hh) (by exact hd)).trans
    (State.callAgent_unlisted hcalls hcode)

/-! ## The register operand of a bit operation -/

section BitOperand
variable {c : Config} {d : Word} {P : Port} {reg : Byte}

/-- Neither Control nor Status: `F4 BITOP_DATA` (R76, R79). -/
theorem bitopReg_other (h0 : reg ≠ 0x0) (hC : reg ≠ 0xC) : bitopReg reg = .error (.fault (.bitopData reg)) :=
  (if_neg h0).trans (if_neg hC)

/-- The register operand is judged before the control point and any access. -/
theorem Port.beginBitOp_of_bitopReg {e : Stop} (pt : Reg → OpPoint) (h : bitopReg reg = .error e) :
    P.beginBitOp c d reg pt = .error e := by
  simp [Port.beginBitOp, h]

/-- So it is by `test_bit`. -/
theorem Port.testAction_of_bitopReg {e : Stop} (mask : Word) (h : bitopReg reg = .error e) :
    P.testAction c d reg mask = .error e := by
  simp [Port.testAction, h]

end BitOperand

/-- Settles O22: each of the three judges its register operand first. -/
theorem bitOpOnDataRegisterFaults : Obligations.BitOpOnDataRegisterFaults := by
  intro s p P reg mask hP h0 hC i hi
  have hreg := bitopReg_other h0 hC
  simp only [List.mem_cons, List.not_mem_nil, or_false] at hi
  rcases hi with rfl | rfl | rfl
  · exact State.onPort_error hP (Port.beginBitOp_of_bitopReg _ hreg)
  · exact State.onPort_error hP (Port.beginBitOp_of_bitopReg _ hreg)
  · exact State.onPort_error hP (Port.testAction_of_bitopReg mask hreg)

end Sys2Proof.Machine
end

section
/-!
PROOFS. Read-modify-writes of Status (spec/40_register_interface.md R95 to R97): undisturbed, and with a byte
received between the read and the write (spec/70_reset_and_hazards.md R225); and the bytes accepted for
transmission, which no step loses (spec/44_hardware_events.md R161 to R163).
-/

namespace Sys2Proof.Machine

/-! ## Every byte accepted for transmission is kept -/

/-- The bytes a UART has accepted and not yet sent, in the order in which it sends them (R39). -/
def UartHw.unsent (hw : UartHw) : List Byte := hw.shifter.toList ++ hw.txfifo

theorem Port.txStream_eq (P : Port) : P.txStream = P.lineOut ++ P.hw.unsent := List.append_assoc _ _ _

section Stream
variable {c : Config} {hw hw' : UartHw} {P Q : Port}

theorem UartHw.txEvent_unsent (wasLast : Bool) : (hw.txEvent c wasLast).unsent = hw.unsent := by
  unfold UartHw.txEvent
  simp only
  split <;> rfl

theorem UartHw.rxEvent_unsent : (hw.rxEvent c).unsent = hw.unsent := by
  unfold UartHw.rxEvent
  split <;> rfl

theorem UartHw.txLoad_unsent (h : hw.txLoad c = some hw') : hw'.unsent = hw.unsent := by
  unfold UartHw.txLoad at h
  split at h
  · rename_i b bs hshifter hfifo
    split at h
    · cases h
      rw [UartHw.txEvent_unsent, UartHw.unsent, UartHw.unsent, hshifter, hfifo]
      rfl
    · cases h
  · cases h

theorem UartHw.rx_unsent (b : Byte) (ovr : OverrunDraw) : (hw.rx c b ovr).unsent = hw.unsent := by
  unfold UartHw.rx
  split
  · rfl
  split
  · exact UartHw.rxEvent_unsent
  · unfold UartHw.overrun
    split <;> rfl

theorem UartHw.pendTx_unsent (h : hw.pendTx c = some hw') : hw'.unsent = hw.unsent := by
  unfold UartHw.pendTx at h
  split at h <;> cases h
  rfl

theorem UartHw.pendRx_unsent (h : hw.pendRx c = some hw') : hw'.unsent = hw.unsent := by
  unfold UartHw.pendRx at h
  split at h <;> cases h
  rfl

theorem Port.txDone_txStream (h : P.txDone c = some Q) : Q.txStream = P.txStream := by
  obtain ⟨b, hb, -, rfl⟩ := Port.txDone_cases h
  simp [Port.txStream, hb]

/-- Only the core appends to what a port has accepted; the UART moves it along, and the host leaves it alone. -/
theorem Port.Change.txStream (h : Port.Change c P Q) :
    ∃ extra : List Byte, extra.length ≤ 1 ∧ Q.txStream = P.txStream ++ extra := by
  have kept (h : Q.txStream = P.txStream) :
      ∃ extra : List Byte, extra.length ≤ 1 ∧ Q.txStream = P.txStream ++ extra :=
    ⟨[], Nat.zero_le 1, h.trans (List.append_nil _).symm⟩
  rcases h with ⟨h, -⟩ | ⟨hw, rfl, h⟩ | h | ⟨b, h⟩ | h | h
  · exact stream_stepOf h
  · have hunsent : hw.unsent = P.hw.unsent := by
      rcases h with h | ⟨b, ovr, rfl⟩ | h | h
      · exact UartHw.txLoad_unsent h
      · exact UartHw.rx_unsent b ovr
      · exact UartHw.pendTx_unsent h
      · exact UartHw.pendRx_unsent h
    refine kept ?_
    rw [Port.txStream_eq, Port.txStream_eq, hunsent]
  · exact kept (Port.txDone_txStream h)
  · obtain ⟨-, -, rfl⟩ := Port.hostPut_cases h
    exact kept rfl
  · obtain ⟨-, rfl⟩ := Port.hostPublish_cases h
    exact kept rfl
  · obtain ⟨-, rfl⟩ := Port.hostTake_cases h
    exact kept rfl

end Stream

/-- Settles O49: a slot keeps its port, or the port changes as one agent's step changes it. -/
theorem transmitStreamOnlyGrows : Obligations.TransmitStreamOnlyGrows := by
  intro s t p P Q h hP hQ
  rcases Port.change_of_step h hP hQ with rfl | hc
  · exact ⟨[], Nat.zero_le 1, (List.append_nil _).symm⟩
  · exact hc.txStream

/-! ## What writing back Status makes of the pending bits -/

section Pending
variable {c : Config} {v : Word} {hw : UartHw}

/-- Writing back a pending bit with a mask's bit cleared leaves it set only outside the mask (R95, R97). -/
theorem pendAfterWrite_clear (c : Config) (pend m : Bool) :
    pendAfterWrite c (pend && !m) pend = (pend && !m) := by
  cases pend <;> cases m <;> simp [pendAfterWrite]

/-- Writing back a pending bit with a mask's bit set keeps it, and sets a clear one as `PEND_W1` says (R95, R96). -/
theorem pendAfterWrite_set (c : Config) (pend m : Bool) :
    pendAfterWrite c (pend || m) pend = (pend || (m && c.pendW1 = .set)) := by
  cases pend <;> cases m <;> simp [pendAfterWrite]

theorem UartHw.writeStatus_clearBit (c : Config) (d mask : Word) (hw : UartHw) :
    hw.writeStatus c (hw.statusRead c d &&& ~~~mask) = { hw with
      txpend := hw.txpend && !mask.getLsbD 1, rxpend := hw.rxpend && !mask.getLsbD 0 } := by
  have bit (i : Nat) (hi : i < 32) : (hw.statusRead c d &&& ~~~mask).getLsbD i =
      ((hw.statusRead c d).getLsbD i && !mask.getLsbD i) := by
    simp [hi]
  rw [UartHw.writeStatus, bit 1 (by decide), bit 0 (by decide), statusRead_txpend, statusRead_rxpend,
    pendAfterWrite_clear, pendAfterWrite_clear]

theorem UartHw.writeStatus_setBit (c : Config) (d mask : Word) (hw : UartHw) :
    hw.writeStatus c (hw.statusRead c d ||| mask) = { hw with
      txpend := hw.txpend || (mask.getLsbD 1 && c.pendW1 = .set)
      rxpend := hw.rxpend || (mask.getLsbD 0 && c.pendW1 = .set) } := by
  rw [UartHw.writeStatus, BitVec.getLsbD_or, BitVec.getLsbD_or, statusRead_txpend, statusRead_rxpend,
    pendAfterWrite_set, pendAfterWrite_set]

/-- A 0 in a written Status clears the pending bit, whatever `PEND_W1` is (R95). -/
theorem UartHw.writeStatus_txpend_zero (h : v.getLsbD 1 = false) : (hw.writeStatus c v).txpend = false := by
  rw [UartHw.writeStatus, h]
  rfl

theorem UartHw.writeStatus_rxpend_zero (h : v.getLsbD 0 = false) : (hw.writeStatus c v).rxpend = false := by
  rw [UartHw.writeStatus, h]
  rfl

end Pending

/-! ## `set_bit` and `clear_bit` on Status -/

section StatusOp
variable {s : State} {p : Nat} {P : Port}

/-- A bit operation on an Idle port starts with its read of the register it names (R96, R97). -/
theorem State.onPort_beginBitOp {reg : Byte} {r : Reg} {pt : Reg → OpPoint} {o : Option OpPoint}
    (hP : s.ports[p]? = some P) (hreg : bitopReg reg = .ok r) (hc : P.ctl = none)
    (h : opStep s.config s.draw (pt r) P = .ok (P, o)) :
    s.onPort p (Port.beginBitOp s.config s.draw reg pt) = .next (s.setPort p (P.atPoint o)) :=
  State.onPort_ok hP (by
    simp [Port.beginBitOp, hreg, Port.begin, Port.requireIdle, hc, Port.runOp_of_opStep h])

theorem opStep_setBit_status_read (c : Config) (d mask : Word) (hm : P.mapped = true) :
    opStep c d (.setBit .status mask .read) P =
      .ok (P, some (.setBit .status mask (.write (P.hw.statusRead c d)))) := by
  simp [opStep, hm, andThen]

theorem opStep_clearBit_status_read (c : Config) (d mask : Word) (hm : P.mapped = true) :
    opStep c d (.clearBit .status mask .read) P =
      .ok (P, some (.clearBit .status mask (.write (P.hw.statusRead c d)))) := by
  simp [opStep, hm, andThen]

theorem opStep_setBit_status_write (c : Config) (d mask v : Word) (hm : P.mapped = true) :
    opStep c d (.setBit .status mask (.write v)) P =
      .ok ({ P with hw := P.hw.writeStatus c (v ||| mask) }, none) :=
  andThen_of_return (Port.setBit_status_write c d mask v hm)

theorem opStep_clearBit_status_write (c : Config) (d mask v : Word) (hm : P.mapped = true) :
    opStep c d (.clearBit .status mask (.write v)) P =
      .ok ({ P with hw := P.hw.writeStatus c (v &&& ~~~mask) }, none) :=
  andThen_of_return (Port.clearBit_status_write c d mask v hm)

/-- The access that ends an operation on an Idle port, with no other agent since it was started: when it changes
the UART alone, the UART is all that has changed. -/
theorem State.runChoices_lastAccess {pt : OpPoint} {hw : UartHw} (d : Word) (hr : s.ordinaryReady)
    (hP : s.ports[p]? = some P) (hc : P.ctl = none)
    (h : opStep s.config d pt (P.atPoint (some pt)) = .ok ({ P.atPoint (some pt) with hw := hw }, none)) :
    (s.setPort p (P.atPoint (some pt))).runChoices (opChoices p [d]) =
      .next (State.after (opChoices p [d]) (s.setPort p { P with hw := hw })) := by
  have hend : Port.atPoint none { P.atPoint (some pt) with hw := hw } = { P with hw := hw } := by
    rw [Port.atPoint, ← hc]
    rfl
  rw [← hend]
  exact State.runChoices_op_setPort hr hP rfl id (Port.runOp_of_opStep h)

end StatusOp

/-- Settles O20: the read holds Status in the control point, and the write makes of each pending bit what
`pendAfterWrite` makes of its own value with the mask applied. -/
theorem bitOpsOnStatus : Obligations.BitOpsOnStatus := by
  intro s p P mask d hr hP hm hc
  refine ⟨⟨_, State.onPort_beginBitOp hP rfl hc (opStep_clearBit_status_read _ _ mask hm), ?_⟩,
    ⟨_, State.onPort_beginBitOp hP rfl hc (opStep_setBit_status_read _ _ mask hm), ?_⟩⟩
  · rw [← UartHw.writeStatus_clearBit s.config s.draw mask P.hw]
    exact State.runChoices_lastAccess d hr hP hc (opStep_clearBit_status_write _ d mask _ hm)
  · rw [← UartHw.writeStatus_setBit s.config s.draw mask P.hw]
    exact State.runChoices_lastAccess d hr hP hc (opStep_setBit_status_write _ d mask _ hm)

/-! ## A byte received between the read and the write -/

/-- A port once it has received a byte and set RX-pending (R164, R167). -/
def Port.received (b : Byte) (P : Port) : Port :=
  { P with hw := { P.hw with rxfifo := P.hw.rxfifo ++ [b], rxpend := true } }

section Receive
variable {s : State} {p : Nat} {P Q R : Port} {b : Byte} {ovr : OverrunDraw} {d d' v : Word} {chs : List Choice}

/-- With room, UART-enable set and the ungated event `enqueue`, a byte is received and sets RX-pending (R164,
R167). -/
theorem UartHw.rx_enqueue {c : Config} {hw : UartHw} (he : c.rxEvent = .enqueue) (hg : c.pendGated = false)
    (hu : hw.uarten = true) (hroom : hw.rxfifo.length < c.rxFifoDepth) :
    hw.rx c b ovr = { hw with rxfifo := hw.rxfifo ++ [b], rxpend := true } := by
  simp [UartHw.rx, UartHw.rxEvent, he, hg, hu, hroom]

/-- A byte is offered on a port's line, whatever the ordinary context is at (R164, R180). -/
theorem State.runChoices_rx (hf : s.fault = none) (hP : s.ports[p]? = some P) :
    s.runChoices (⟨.rx p b ovr, d⟩ :: chs) =
      ((s.setPort p { P with hw := P.hw.rx s.config b ovr }).clock d).runChoices chs := by
  apply State.runChoices_cons hf
  simp [State.runAgent, State.hwEvent, State.portEvent, hP, State.setPort, State.clock]

/-- No dispatch is enabled with a port in its slot that asks for its handler no more than one with which none
is. -/
theorem State.dispatchPending_setPort_of_setPort (hP : s.ports[p]? = some P)
    (h : (s.setPort p Q).dispatchPending = false)
    (hi : Q.interrupting s.config = false → R.interrupting s.config = false) :
    (s.setPort p R).dispatchPending = false := by
  rw [← State.setPort_setPort s p Q R]
  exact State.dispatchPending_setPort (State.setPort_get_same hP) hi h

/-- A byte is received, and the write of a `clear_bit` on Status follows: it acts on the pending bits as the
reception has left them. -/
theorem State.runChoices_receive_clearBit {mask : Word} (hf : s.fault = none) (hh : s.handler = none)
    (hP : s.ports[p]? = some P) (hm : P.mapped = true) (hc : P.ctl = some (.clearBit .status mask (.write v)))
    (hrx : P.hw.rx s.config b ovr = (P.received b).hw)
    (hquiet : (s.setPort p (P.received b)).dispatchPending = false) :
    s.runChoices [⟨.rx p b ovr, d⟩, ⟨.op p, d'⟩] =
      .next (((s.clock d).setPort p (Port.atPoint none { P.received b with
        hw := (P.received b).hw.writeStatus s.config (v &&& ~~~mask) })).clock d') := by
  have hwrite := State.runChoices_op (s := (s.setPort p (P.received b)).clock d) (d := d') (chs := [])
    ⟨hf, hh, hquiet⟩ (State.setPort_get_same hP) hc
    (Port.runOp_of_opStep (opStep_clearBit_status_write s.config d' mask v hm))
  rw [State.runChoices_rx hf hP, hrx]
  refine hwrite.trans ?_
  rw [State.clock_setPort, State.setPort_setPort]
  rfl

end Receive

/-- Settles O24: the write clears RX-pending because the value read has it 0, whatever the reception has set. -/
theorem lostReceiveEvent : Obligations.LostReceiveEvent := by
  intro s p P b ovr d d' ⟨hf, hh, _⟩ hP hm hc he hg hu hrx hroom hquiet
  have htx0 (v : Word) : (v &&& ~~~TXPEND).getLsbD 1 = false := by
    rw [BitVec.getLsbD_and, show (~~~TXPEND).getLsbD 1 = false by decide, Bool.and_false]
  have hrx0 : (P.hw.statusRead s.config s.draw &&& ~~~TXPEND).getLsbD 0 = false := by
    rw [BitVec.getLsbD_and, statusRead_rxpend, hrx, Bool.false_and]
  have hslot (Q : Port) : (s.setPort p Q).ports[p]? = some Q := State.setPort_get_same hP
  have hquiet' (pt : OpPoint) :
      ((s.setPort p (P.atPoint (some pt))).setPort p ((P.atPoint (some pt)).received b)).dispatchPending =
        false := by
    rw [State.setPort_setPort]
    exact State.dispatchPending_setPort_of_setPort hP hquiet id
  exact ⟨_, _, State.onPort_beginBitOp hP rfl hc (opStep_clearBit_status_read _ _ TXPEND hm),
    State.runChoices_receive_clearBit hf hh (hslot _) hm rfl (UartHw.rx_enqueue he hg hu hroom) (hquiet' _),
    _, State.setPort_get_same (hslot _), rfl, rfl,
    UartHw.writeStatus_rxpend_zero hrx0, UartHw.writeStatus_txpend_zero (htx0 _)⟩

end Sys2Proof.Machine
end

section
/-!
PROOFS. The refill (spec/41_txrx_engine.md R110, R114 to R119): what each of its steps does to a mapped port, and an
undisturbed run of one that an operation has started, by induction on the bytes it moves.
-/

namespace Sys2Proof.Machine

/-! ## The transmit ring -/

section Ring
variable {c : Config} {r : Ring}

/-- The unconsumed count of a ring of sound shape: the distance from `tail` up to `head`, around the end of the
buffer where `head` has wrapped (R43, R114). -/
theorem Ring.count_eq (h : r.shapeOk c) :
    r.count c = if r.tail ≤ r.head then r.head - r.tail else r.head + c.xmitCap - r.tail := by
  obtain ⟨-, hhead, htail⟩ := h
  unfold Ring.count
  split
  · have hwrap : r.head + (c.xmitCap - r.tail) = r.head - r.tail + c.xmitCap := by omega
    rw [hwrap, Nat.add_mod_right, Nat.mod_eq_of_lt (by omega)]
  · rw [Nat.mod_eq_of_lt (by omega)]
    omega

theorem ringNext_eq {i : Nat} (h : i < c.xmitCap) :
    ringNext c i = if i + 1 = c.xmitCap then 0 else i + 1 := by
  unfold ringNext
  split
  next hend => rw [hend, Nat.mod_self]
  next hin => exact Nat.mod_eq_of_lt (by omega)

theorem Ring.shapeOk.advance (h : r.shapeOk c) : Ring.shapeOk c { r with tail := ringNext c r.tail } := by
  obtain ⟨hbuf, hhead, htail⟩ := h
  exact ⟨hbuf, hhead, Nat.mod_lt _ (by omega)⟩

/-- Advancing `tail` over an unconsumed byte lowers the count by one (R114, R116). -/
theorem Ring.count_advance (h : r.shapeOk c) (hne : r.head ≠ r.tail) :
    Ring.count c { r with tail := ringNext c r.tail } + 1 = r.count c := by
  rw [Ring.count_eq h, Ring.count_eq h.advance]
  obtain ⟨-, hhead, htail⟩ := h
  simp only [ringNext_eq htail]
  split_ifs <;> omega

/-- The ring is empty exactly when its indices agree (R114). -/
theorem Ring.count_eq_zero_iff (h : r.shapeOk c) : r.count c = 0 ↔ r.head = r.tail := by
  rw [Ring.count_eq h]
  obtain ⟨-, hhead, htail⟩ := h
  split_ifs <;> omega

/-- `k` places after the next index are `k + 1` places after the index. -/
theorem ringNext_add_mod (c : Config) (i k : Nat) :
    (ringNext c i + k) % c.xmitCap = (i + (k + 1)) % c.xmitCap := by
  rw [ringNext, Nat.mod_add_mod, Nat.add_assoc, Nat.add_comm 1]

/-- The bytes from `tail` on are the byte at `tail` and the bytes from the next index on. -/
theorem Ring.bytes_succ (h : r.shapeOk c) (k : Nat) :
    r.bytes c (k + 1) = r.buf.getD r.tail 0 :: Ring.bytes c { r with tail := ringNext c r.tail } k := by
  obtain ⟨-, -, htail⟩ := h
  simp only [Ring.bytes, List.range_succ_eq_map, List.map_cons, List.map_map, ringNext_add_mod,
    Nat.add_zero, Nat.mod_eq_of_lt htail]
  rfl

/-- A byte inside the buffer is the byte read, whatever the draw (R53). -/
theorem Ring.byteAt_tail (h : r.shapeOk c) (d : Word) : r.byteAt d r.tail = r.buf.getD r.tail 0 := by
  obtain ⟨hbuf, -, htail⟩ := h
  simp [Ring.byteAt, hbuf, htail]

end Ring

/-! ## The steps of the refill -/

/-- Where the comparison of the indices at `wf0` sends the refill (R110). -/
def Port.refillPoint (P : Port) : RefillPoint :=
  if P.ring.head = P.ring.tail then .wfEmpty .read else .wf1 P.ring.tail

/-- A port once its refill has written the byte `b` to TX-Data (R110). -/
def Port.queued (b : Byte) (P : Port) : Port :=
  { P with hw := { P.hw with txfifo := P.hw.txfifo ++ [b] } }

/-- A port once its refill has advanced `tail` and counted a byte (R110). -/
def Port.advanced (c : Config) (P : Port) : Port :=
  { P with ring := { P.ring with tail := ringNext c P.ring.tail }, txCount := P.txCount + 1 }

/-- A port once its refill has moved the ring's oldest byte to TX-Data (R110). -/
def Port.moved (c : Config) (P : Port) : Port := (P.queued (P.ring.buf.getD P.ring.tail 0)).advanced c

section RefillStep
variable {P : Port} (c : Config) (d : Word)

theorem Port.refillPoint_empty (h : P.ring.head = P.ring.tail) : P.refillPoint = .wfEmpty .read := if_pos h

theorem Port.refillPoint_more (h : P.ring.head ≠ P.ring.tail) : P.refillPoint = .wf1 P.ring.tail := if_neg h

theorem refillStep_wf0 (P : Port) : refillStep c d .wf0 P = .ok (P, some P.refillPoint) := rfl

theorem refillStep_wf1_room (t : Nat) (hm : P.mapped = true) (h : P.hw.txfifo.length ≠ c.txFifoDepth) :
    refillStep c d (.wf1 t) P = .ok (P, some (.wf3 t)) := by
  simp [refillStep, hm, UartHw.txff, h]

theorem refillStep_wf1_full (t : Nat) (hm : P.mapped = true) (h : P.hw.txfifo.length = c.txFifoDepth) :
    refillStep c d (.wf1 t) P = .ok (P, some (.wf2 .read)) := by
  simp [refillStep, hm, UartHw.txff, h]

theorem refillStep_wf2_read (hm : P.mapped = true) :
    refillStep c d (.wf2 .read) P = .ok (P, some (.wf2 (.write P.hw.ctrl))) := by
  simp [refillStep, hm, andThen]

theorem refillStep_wf2_write (v : Word) (hm : P.mapped = true) :
    refillStep c d (.wf2 (.write v)) P = .ok ({ P with hw := { P.hw with ctrl := v ||| TXIE } }, none) :=
  andThen_of_return (Port.setBit_ctrl_write c d TXIE v hm)

theorem refillStep_wf3 {t : Nat} {b : Byte} (h : P.ring.byteAt d t = b) :
    refillStep c d (.wf3 t) P = .ok (P, some (.wf4 t b)) := by
  rw [← h]
  rfl

theorem refillStep_wf4_room (t : Nat) (b : Byte) (hm : P.mapped = true)
    (h : P.hw.txfifo.length ≠ c.txFifoDepth) :
    refillStep c d (.wf4 t b) P = .ok (P.queued b, some (.wf5 t)) := by
  simp [refillStep, Port.regWrite_txdata_room c _ hm h, Port.queued]

theorem refillStep_wf5 (P : Port) :
    refillStep c d (.wf5 P.ring.tail) P = .ok (P.advanced c, some .wf0) := rfl

theorem refillStep_wfEmpty_read (hm : P.mapped = true) :
    refillStep c d (.wfEmpty .read) P = .ok (P, some (.wfEmpty (.write P.hw.ctrl))) := by
  simp [refillStep, hm, andThen]

theorem refillStep_wfEmpty_write (v : Word) (hm : P.mapped = true) :
    refillStep c d (.wfEmpty (.write v)) P =
      .ok ({ P with hw := { P.hw with ctrl := v &&& ~~~TXIE } }, none) :=
  andThen_of_return (Port.clearBit_ctrl_write c d TXIE v hm)

end RefillStep

/-- Settles O27: the step is `Port.advanced`, and `tail` advances over an unconsumed byte. -/
theorem refillStepLowersTheCount : Obligations.RefillStepLowersTheCount := by
  intro c d P Q pt _ hring hne h
  cases (refillStep_wf5 c d P).symm.trans h
  exact ⟨rfl, Ring.count_advance hring hne, rfl, rfl, rfl, rfl⟩

/-! ## An undisturbed refill -/

/-- The operation whose points these are runs the refill and returns when it does: a direct `write_tx_fifo`, or
`start_tx` (R110, R131). -/
def RunsRefill (stay : RefillPoint → OpPoint) : Prop :=
  ∀ c d r P, opStep c d (stay r) P = andThen stay done (refillStep c d r P)

theorem runsRefill_writeTxFifo : RunsRefill .writeTxFifo := fun _ _ _ _ => rfl

theorem runsRefill_startTx : RunsRefill .startTx := fun _ _ _ _ => rfl

/-- A tick decides nothing about whether ordinary code can step. -/
@[simp] theorem State.ordinaryReady_clock_iff {s : State} {d : Word} :
    (s.clock d).ordinaryReady ↔ s.ordinaryReady := Iff.rfl

section Refill
variable {stay : RefillPoint → OpPoint} (hstay : RunsRefill stay)
include hstay

/-- The operation's step is the refill's, and the port stands at the refill's next point. -/
theorem RunsRefill.runOp {c : Config} {d : Word} {r : RefillPoint} {P Q : Port} {o : Option RefillPoint}
    (h : refillStep c d r P = .ok (Q, o)) : P.runOp c d (stay r) = .ok (Q.atPoint (o.map stay)) := by
  cases o <;> simp [Port.runOp, hstay c d r P, h, andThen, done, Port.atPoint]

/-- An operation that its entry lets in starts with the refill's comparison of the indices. -/
theorem RunsRefill.begin {c : Config} {entry : Port → Except Stop Port} {P : Port} (d : Word)
    (h : entry P = .ok P) :
    P.begin c d entry (stay .wf0) = .ok (P.atPoint (some (stay P.refillPoint))) := by
  simp [Port.begin, h, hstay.runOp (refillStep_wf0 c d P)]

variable {s : State} {p : Nat} {P : Port}

/-- One step of a refill in progress after which it goes on, with no other agent since its last one. -/
theorem RunsRefill.runChoices_step {P₀ Q : Port} {r r' : RefillPoint} {d : Word} {chs : List Choice}
    (hr : s.ordinaryReady) (hP : s.ports[p]? = some P₀)
    (hi : P₀.interrupting s.config = false → P.interrupting s.config = false)
    (h : refillStep s.config d r (P.atPoint (some (stay r))) = .ok (Q.atPoint (some (stay r)), some r')) :
    (s.setPort p (P.atPoint (some (stay r)))).runChoices (⟨.op p, d⟩ :: chs) =
      ((s.clock d).setPort p (Q.atPoint (some (stay r')))).runChoices chs :=
  State.runChoices_op_setPort hr hP rfl hi (hstay.runOp h)

/-- A refill that has found the ring empty clears `TXIE` and ends (R110, R117). -/
theorem RunsRefill.runChoices_empty (d₁ d₂ : Word) (hr : s.ordinaryReady) (hP : s.ports[p]? = some P)
    (hm : P.mapped = true) (hc : P.ctl = none) :
    (s.setPort p (P.atPoint (some (stay (.wfEmpty .read))))).runChoices (opChoices p [d₁, d₂]) =
      .next (State.after (opChoices p [d₁, d₂])
        (s.setPort p { P with hw := { P.hw with ctrl := P.hw.ctrl &&& ~~~TXIE } })) := by
  have hread := hstay.runChoices_step (chs := opChoices p [d₂]) hr hP id
    (refillStep_wfEmpty_read s.config d₁ (P := P.atPoint (some (stay (.wfEmpty .read)))) hm)
  rw [opChoices_cons, State.after_cons_setPort]
  exact hread.trans (State.runChoices_lastAccess (s := s.clock d₁) d₂ hr hP hc
    ((hstay _ _ _ _).trans (andThen_of_return (refillStep_wfEmpty_write s.config d₂ P.hw.ctrl hm))))

/-- A refill that finds the TX FIFO full sets `TXIE` and ends (R110, R118). -/
theorem RunsRefill.runChoices_full (d₁ d₂ d₃ : Word) (hr : s.ordinaryReady) (hP : s.ports[p]? = some P)
    (hm : P.mapped = true) (hc : P.ctl = none) (hfull : P.hw.txfifo.length = s.config.txFifoDepth) :
    (s.setPort p (P.atPoint (some (stay (.wf1 P.ring.tail))))).runChoices (opChoices p [d₁, d₂, d₃]) =
      .next (State.after (opChoices p [d₁, d₂, d₃])
        (s.setPort p { P with hw := { P.hw with ctrl := P.hw.ctrl ||| TXIE } })) := by
  have htest := hstay.runChoices_step (chs := opChoices p [d₂, d₃]) hr hP id
    (refillStep_wf1_full s.config d₁ (P := P.atPoint (some (stay (.wf1 P.ring.tail)))) _ hm hfull)
  have hread := hstay.runChoices_step (s := s.clock d₁) (chs := opChoices p [d₃]) hr hP id
    (refillStep_wf2_read s.config d₂ (P := P.atPoint (some (stay (.wf2 .read)))) hm)
  simp only [opChoices_cons, State.after_cons_setPort]
  exact htest.trans (hread.trans (State.runChoices_lastAccess (s := (s.clock d₁).clock d₂) d₃ hr hP hc
    ((hstay _ _ _ _).trans (andThen_of_return (refillStep_wf2_write s.config d₃ P.hw.ctrl hm)))))

/-- With room in the TX FIFO, a refill takes five steps to move the ring's oldest byte and compare the indices
again (R110). -/
theorem RunsRefill.runChoices_byte (d₁ d₂ d₃ d₄ d₅ : Word) {c : Config} {chs : List Choice}
    (hcfg : s.config = c) (hr : s.ordinaryReady) (hP : s.ports[p]? = some P) (hm : P.mapped = true)
    (hring : P.ring.shapeOk c) (hroom : P.hw.txfifo.length ≠ c.txFifoDepth) :
    (s.setPort p (P.atPoint (some (stay (.wf1 P.ring.tail))))).runChoices
        (⟨.op p, d₁⟩ :: ⟨.op p, d₂⟩ :: ⟨.op p, d₃⟩ :: ⟨.op p, d₄⟩ :: ⟨.op p, d₅⟩ :: chs) =
      ((((((s.clock d₁).clock d₂).clock d₃).clock d₄).clock d₅).setPort p
        ((P.moved c).atPoint (some (stay (P.moved c).refillPoint)))).runChoices chs := by
  subst hcfg
  let t := P.ring.tail
  let b := P.ring.buf.getD t 0
  have htest := refillStep_wf1_room s.config d₁ (P := P.atPoint (some (stay (.wf1 t)))) t hm hroom
  have hread := refillStep_wf3 s.config d₂ (P := P.atPoint (some (stay (.wf3 t)))) (t := t) (b := b)
    (Ring.byteAt_tail hring d₂)
  have hwrite := refillStep_wf4_room s.config d₃ (P := P.atPoint (some (stay (.wf4 t b)))) t b hm hroom
  have hadvance := refillStep_wf5 s.config d₄ ((P.queued b).atPoint (some (stay (.wf5 t))))
  have hcompare := refillStep_wf0 s.config d₅ ((P.moved s.config).atPoint (some (stay .wf0)))
  calc
    _ = ((s.clock d₁).setPort p (P.atPoint (some (stay (.wf3 t))))).runChoices
          (⟨.op p, d₂⟩ :: _) := hstay.runChoices_step hr hP id htest
    _ = (((s.clock d₁).clock d₂).setPort p (P.atPoint (some (stay (.wf4 t b))))).runChoices
          (⟨.op p, d₃⟩ :: _) := hstay.runChoices_step (s := s.clock d₁) hr hP id hread
    _ = ((((s.clock d₁).clock d₂).clock d₃).setPort p
          ((P.queued b).atPoint (some (stay (.wf5 t))))).runChoices (⟨.op p, d₄⟩ :: _) :=
      hstay.runChoices_step (s := (s.clock d₁).clock d₂) hr hP id hwrite
    _ = (((((s.clock d₁).clock d₂).clock d₃).clock d₄).setPort p
          ((P.moved s.config).atPoint (some (stay .wf0)))).runChoices (⟨.op p, d₅⟩ :: chs) :=
      hstay.runChoices_step (s := ((s.clock d₁).clock d₂).clock d₃) hr hP id hadvance
    _ = _ := hstay.runChoices_step (s := (((s.clock d₁).clock d₂).clock d₃).clock d₄) (P₀ := P)
      (by simpa using hr) (by simp [hP]) id hcompare

end Refill

/-- Refilling is moving the oldest byte and refilling the rest. -/
theorem refilled_moved {c : Config} {P : Port} (k : Nat) (hring : P.ring.shapeOk c)
    (hne : P.ring.head ≠ P.ring.tail) : refilled c k (P.moved c) = refilled c (k + 1) P := by
  have hcount : k = Ring.count c { P.ring with tail := ringNext c P.ring.tail } ↔
      k + 1 = P.ring.count c := by
    rw [← Ring.count_advance hring hne, Nat.add_right_cancel_iff]
  have hsum : 1#32 + BitVec.ofNat 32 k = BitVec.ofNat 32 (k + 1) := by
    rw [Nat.add_comm, BitVec.ofNat_add]
  simp [refilled, Port.moved, Port.queued, Port.advanced, Ring.bytes_succ hring, hcount, BitVec.add_assoc,
    hsum, ringNext_add_mod]

/-- A refill of no bytes leaves `TXIE` alone changed: clear on an empty ring, set on any other. -/
theorem refilled_zero {c : Config} {P : Port} (hring : P.ring.shapeOk c) :
    refilled c 0 P = { P with hw := { P.hw with
      ctrl := if P.ring.head = P.ring.tail then P.hw.ctrl &&& ~~~TXIE else P.hw.ctrl ||| TXIE } } := by
  simp only [← Ring.count_eq_zero_iff hring]
  obtain ⟨-, -, htail⟩ := hring
  simp [refilled, Ring.bytes, Nat.mod_eq_of_lt htail, eq_comm]

/-- An operation that its first comparison has sent on, with no other agent in between, moves the ring's bytes
until the ring is empty or the TX FIFO full, leaves `TXIE` as it ended, and returns. -/
theorem RunsRefill.runChoices {stay : RefillPoint → OpPoint} (hstay : RunsRefill stay) {s : State} {p k : Nat}
    {c : Config} {P : Port} {ds : List Word} (hcfg : s.config = c) (hr : s.ordinaryReady)
    (hP : s.ports[p]? = some P) (hm : P.mapped = true) (hc : P.ctl = none) (hring : P.ring.shapeOk c)
    (hfit : P.hw.txfifo.length ≤ c.txFifoDepth)
    (hk : k = min (P.ring.count c) (c.txFifoDepth - P.hw.txfifo.length))
    (hlen : ds.length = if k = P.ring.count c then 5 * k + 2 else 5 * k + 3) :
    (s.setPort p (P.atPoint (some (stay P.refillPoint)))).runChoices (opChoices p ds) =
      .next (State.after (opChoices p ds) (s.setPort p (refilled c k P))) := by
  induction k generalizing s P ds with
  | zero =>
    have hzero := Ring.count_eq_zero_iff hring
    rw [refilled_zero hring]
    by_cases hempty : P.ring.head = P.ring.tail
    · rw [if_pos (hzero.mpr hempty).symm] at hlen
      obtain ⟨d₁, d₂, rfl⟩ := List.length_eq_two.mp hlen
      rw [Port.refillPoint_empty hempty, if_pos hempty]
      exact hstay.runChoices_empty d₁ d₂ hr hP hm hc
    · rw [if_neg fun h => hempty (hzero.mp h.symm)] at hlen
      obtain ⟨d₁, d₂, d₃, rfl⟩ := List.length_eq_three.mp hlen
      rw [Port.refillPoint_more hempty, if_neg hempty]
      have hcount : P.ring.count c ≠ 0 := mt hzero.mp hempty
      have hfull : P.hw.txfifo.length = c.txFifoDepth := by omega
      exact hstay.runChoices_full d₁ d₂ d₃ hr hP hm hc (hcfg ▸ hfull)
  | succ k ih =>
    have hne : P.ring.head ≠ P.ring.tail := mt (Ring.count_eq_zero_iff hring).mpr (by omega)
    have hroom : P.hw.txfifo.length ≠ c.txFifoDepth := by omega
    have hlong : 5 ≤ ds.length := by split at hlen <;> omega
    obtain ⟨d₁, d₂, d₃, d₄, d₅, ds, rfl⟩ :
        ∃ d₁ d₂ d₃ d₄ d₅ ds', ds = d₁ :: d₂ :: d₃ :: d₄ :: d₅ :: ds' :=
      match ds, hlong with
      | d₁ :: d₂ :: d₃ :: d₄ :: d₅ :: ds', _ => ⟨d₁, d₂, d₃, d₄, d₅, ds', rfl⟩
    let u := ((((s.clock d₁).clock d₂).clock d₃).clock d₄).clock d₅
    have hu : u.ordinaryReady := by simpa [u] using hr
    have hslot : u.ports[p]? = some P := by simp [u, hP]
    have hshape : (P.moved c).ring.shapeOk c := hring.advance
    have hcount : Ring.count c (P.moved c).ring + 1 = P.ring.count c := Ring.count_advance hring hne
    have hfifo : (P.moved c).hw.txfifo.length = P.hw.txfifo.length + 1 := List.length_append
    have hrest := ih (s := u.setPort p (P.moved c)) (ds := ds) (by simp [u, hcfg])
      (State.ordinaryReady_setPort hu hslot id) (State.setPort_get_same hslot) hm hc hshape
      (by omega) (by omega)
      (by
        simp only [List.length_cons, ← hcount, Nat.add_right_cancel_iff] at hlen
        split_ifs at hlen ⊢ <;> omega)
    rw [State.setPort_setPort, State.setPort_setPort, refilled_moved k hring hne] at hrest
    rw [Port.refillPoint_more hne]
    simp only [opChoices_cons, State.after_cons_setPort]
    exact (hstay.runChoices_byte d₁ d₂ d₃ d₄ d₅ hcfg hr hP hm hring hroom).trans hrest

/-- Settles O25: the refill's steps on an empty ring; run by `write_tx_fifo` they are the two accesses. -/
theorem refillOnEmptyRing : Obligations.RefillOnEmptyRing := by
  refine ⟨fun c d v P => ⟨fun hempty => ?_, fun hm =>
      ⟨refillStep_wfEmpty_read c d hm, refillStep_wfEmpty_write c d v hm⟩⟩,
    fun s p P d1 d2 hr hP hm hc hl hempty => ?_⟩
  · rw [refillStep_wf0, Port.refillPoint_empty hempty]
  · have hfirst := runsRefill_writeTxFifo.begin (c := s.config) s.draw
      (Port.enter_idle (Port.requireLife_ok .writeTxFifo hl) hc)
    rw [Port.refillPoint_empty hempty] at hfirst
    exact ⟨_, State.onPort_ok hP hfirst, rfl, runsRefill_writeTxFifo.runChoices_empty d1 d2 hr hP hm hc⟩

/-- Settles O26: both operations let the port in and run the refill above. -/
theorem refillMovesRingBytesInOrder : Obligations.RefillMovesRingBytesInOrder := by
  intro s p P k ds hr hP hm hc hl _ hring hfit hk hlen
  have hlife (o : Operation) : P.requireLife .active o = .ok P := Port.requireLife_ok o hl
  simp only [List.forall_mem_cons, List.not_mem_nil, IsEmpty.forall_iff, implies_true, and_true]
  exact ⟨
    ⟨_, State.onPort_ok hP (runsRefill_writeTxFifo.begin _ (Port.enter_idle (hlife _) hc)),
      runsRefill_writeTxFifo.runChoices rfl hr hP hm hc hring hfit hk hlen⟩,
    ⟨_, State.onPort_ok hP (runsRefill_startTx.begin _ (Port.enterLifecycle_idle (hlife _) hc hc)),
      runsRefill_startTx.runChoices rfl hr hP hm hc hring hfit hk hlen⟩⟩

end Sys2Proof.Machine
end

section
/-!
PROOFS. The interrupt handler (spec/41_txrx_engine.md R112, R113; spec/60_exceptions.md R182 to R184): the order of
its parts, its last write, and undisturbed runs of it without a refill.
-/

namespace Sys2Proof.Machine

/-! ## The parts of the handler -/

section Parts
variable {P Q : Port} (c : Config) (d : Word) {v : Word}

/-- A caller whose callee goes on stays at its own point. -/
theorem andThen_of_continue {α β : Type} {stay : α → β} {next : Port → Port × Option β} {a : α}
    {r : Except Stop (Port × Option α)} (h : r = .ok (P, some a)) :
    andThen stay next r = .ok (P, some (stay a)) := by
  rw [h]
  rfl

/-- With TX-pending read, the handler at `ih1` runs the refill (R112). -/
theorem handlerStep_ih1_refill (r : RefillPoint) (P : Port) (hv : v.getLsbD 1 = true) :
    handlerStep c d (.ih1 v r) P = andThen (.ih1 v) (goto (.ih2 v .rd0)) (refillStep c d r P) := if_pos hv

/-- Without it, the handler at `ih1` does what it does at `ih2`. -/
theorem handlerStep_ih1_skip (r : RefillPoint) (P : Port) (hv : v.getLsbD 1 = false) :
    handlerStep c d (.ih1 v r) P = handlerStep c d (.ih2 v .rd0) P := if_neg (Bool.eq_false_iff.mp hv)

/-- With RX-pending read, the handler at `ih2` runs the drain (R112). -/
theorem handlerStep_ih2_drain (q : DrainPoint) (P : Port) (hv : v.getLsbD 0 = true) :
    handlerStep c d (.ih2 v q) P = andThen (.ih2 v) (goto (.ih3 .read)) (drainStep c d q P) := if_pos hv

/-- Without it, the handler at `ih2` does what it does at `ih3`. -/
theorem handlerStep_ih2_skip (q : DrainPoint) (P : Port) (hv : v.getLsbD 0 = false) :
    handlerStep c d (.ih2 v q) P = handlerStep c d (.ih3 .read) P := if_neg (Bool.eq_false_iff.mp hv)

/-- With RX-pending read, a step of the drain that goes on is the handler's (R112). -/
theorem handlerStep_ih2_continue {c : Config} {d : Word} {q q' : DrainPoint} (hv : v.getLsbD 0 = true)
    (h : drainStep c d q P = .ok (Q, some q')) :
    handlerStep c d (.ih2 v q) P = .ok (Q, some (.ih2 v q')) := by
  rw [handlerStep_ih2_drain c d q P hv]
  exact andThen_of_continue h

/-- With RX-pending read, the handler goes on to the combined clear when the drain returns (R112). -/
theorem handlerStep_ih2_return {c : Config} {d : Word} {q : DrainPoint} (hv : v.getLsbD 0 = true)
    (h : drainStep c d q P = .ok (Q, none)) : handlerStep c d (.ih2 v q) P = .ok (Q, some (.ih3 .read)) := by
  rw [handlerStep_ih2_drain c d q P hv]
  exact andThen_of_return h

/-- A port with both pending bits clear (R112). -/
def Port.pendCleared (P : Port) : Port := { P with hw := { P.hw with txpend := false, rxpend := false } }

theorem Port.pendCleared_of_clear (ht : P.hw.txpend = false) (hr : P.hw.rxpend = false) :
    P.pendCleared = P := by
  have hsame : P.pendCleared = { P with hw := { P.hw with txpend := P.hw.txpend, rxpend := P.hw.rxpend } } := by
    rw [ht, hr]
    rfl
  exact hsame

theorem handlerStep_ih0 (hm : P.mapped = true) :
    handlerStep c d .ih0 P = .ok (P, some (.ih1 (P.hw.statusRead c d) .wf0)) := by
  simp [handlerStep, ih0Step, hm]

theorem handlerStep_ih3_read (hm : P.mapped = true) :
    handlerStep c d (.ih3 .read) P = .ok (P, some (.ih3 (.write (P.hw.statusRead c d)))) :=
  andThen_of_continue (Port.clearBit_status_read c d PEND_BOTH hm)

/-- The combined clear writes both pending bits as 0, which clears them under either `PEND_W1` (R95, R112). -/
theorem handlerStep_ih3_write (v : Word) (hm : P.mapped = true) :
    handlerStep c d (.ih3 (.write v)) P = .ok (P.pendCleared, none) :=
  (andThen_of_return (Port.clearBit_status_write c d PEND_BOTH v hm)).trans
    (by rw [UartHw.writeStatus_pendBoth]; rfl)

end Parts

/-- Settles O30: each part is run, or passed by, as its bit of the Status value says. -/
theorem handlerServicesTransmitFirst : Obligations.HandlerServicesTransmitFirst := by
  intro c d v P Q
  refine ⟨fun r q hv => ?_, fun r hv => handlerStep_ih1_skip c d r P hv,
    fun r q hv => ⟨handlerStep_ih2_continue hv, handlerStep_ih2_return hv⟩,
    fun r hv => handlerStep_ih2_skip c d r P hv⟩
  rw [handlerStep_ih1_refill c d r P hv]
  exact ⟨andThen_of_continue, andThen_of_return⟩

/-! ## The handler's steps in the whole state -/

/-- A step of the running handler that its port takes. -/
theorem State.handlerAgent_ok {s : State} {p : Nat} {q : HandlerPoint} {P Q : Port} {o : Option HandlerPoint}
    (hh : s.handler = some ⟨p, q⟩) (hP : s.ports[p]? = some P)
    (h : handlerStep s.config s.draw q P = .ok (Q, o)) :
    s.handlerAgent = .next ((s.setPort p Q).continueHandler p o) := by
  rw [State.handlerAgent, hh]
  exact State.onPortWith_ok hP h

/-- Settles O31: the write is the handler's last step. -/
theorem handlerClearsBothPendingBits : Obligations.HandlerClearsBothPendingBits := by
  intro s p P v hh hP hm
  exact State.handlerAgent_ok hh hP (handlerStep_ih3_write _ _ v hm)

section Run
variable {s : State} {p : Nat} {P₀ P Q : Port} {v : Word}

@[simp] theorem handlerChoices_cons (d : Word) (ds : List Word) :
    handlerChoices (d :: ds) = ⟨.handler, d⟩ :: handlerChoices ds := rfl

/-- The model's own fields after a choice, where the handler has just stepped. -/
theorem State.after_cons_continueHandler (ch : Choice) (chs : List Choice) (s : State) (p : Nat) (P : Port)
    (o : Option HandlerPoint) :
    State.after (ch :: chs) ((s.setPort p P).continueHandler p o) =
      State.after chs (((s.clock ch.draw).setPort p P).continueHandler p o) := by
  rw [State.after_cons]
  cases o <;> rfl

/-- One step of the handler that an earlier step has left at `q`: the form in which its steps chain. -/
theorem State.runChoices_handler_setPort {q : HandlerPoint} {o : Option HandlerPoint} {d : Word}
    {chs : List Choice} (hf : s.fault = none) (hP : s.ports[p]? = some P₀) (hq : q ≠ .ih0)
    (h : handlerStep s.config d q P = .ok (Q, o)) :
    ((s.setPort p P).continueHandler p (some q)).runChoices (⟨.handler, d⟩ :: chs) =
      (((s.clock d).setPort p Q).continueHandler p o).runChoices chs := by
  rw [State.runChoices_handler (s := (s.setPort p P).continueHandler p (some q)) (h := ⟨p, q⟩) hf rfl hq
    (State.setPort_get_same hP) h]
  cases o <;> simp [State.continueHandler, State.returnFromHandler, State.setPort, State.clock]

/-- The two accesses of the combined clear, with no other agent in between (R112). -/
theorem State.runChoices_handlerClear (d₁ d₂ : Word) (hf : s.fault = none) (hP : s.ports[p]? = some P₀)
    (hm : P.mapped = true) :
    ((s.setPort p P).continueHandler p (some (.ih3 .read))).runChoices (handlerChoices [d₁, d₂]) =
      .next (State.after (handlerChoices [d₁, d₂])
        ((s.setPort p P.pendCleared).continueHandler p none)) := by
  simp only [handlerChoices_cons, State.after_cons_continueHandler]
  exact (State.runChoices_handler_setPort hf hP (by simp) (handlerStep_ih3_read _ d₁ hm)).trans
    (State.runChoices_handler_setPort (s := s.clock d₁) hf hP (by simp) (handlerStep_ih3_write _ d₂ _ hm))

/-- The handler's drain that its first test has sent on, and the combined clear after it, with no other agent in
between (R111, R112). -/
theorem State.runChoices_handlerDrain {fifo : List Byte} {ds : List Word} (hf : s.fault = none)
    (hP : s.ports[p]? = some P₀) (hv : v.getLsbD 0 = true) (hm : P.mapped = true) (hfifo : P.hw.rxfifo = fifo)
    (hlen : ds.length = 2 * fifo.length + 3) :
    ((s.setPort p P).continueHandler p (some (.ih2 v P.drainPoint))).runChoices (handlerChoices ds) =
      .next (State.after (handlerChoices ds)
        ((s.setPort p (drained P).pendCleared).continueHandler p none)) := by
  induction fifo generalizing s P ds with
  | nil =>
    obtain ⟨d₁, d₂, d₃, rfl⟩ := List.length_eq_three.mp hlen
    have hflush := handlerStep_ih2_return hv (drainStep_rdFlush s.config d₁ hfifo)
    rw [Port.drainPoint_empty hfifo, handlerChoices_cons, State.after_cons_continueHandler]
    exact (State.runChoices_handler_setPort hf hP (by simp) hflush).trans
      (State.runChoices_handlerClear (s := s.clock d₁) d₂ d₃ hf hP hm)
  | cons b bs ih =>
    obtain _ | ⟨d₁, _ | ⟨d₂, ds⟩⟩ := ds
    · simp at hlen
    · simp at hlen
    have hread := handlerStep_ih2_continue hv (drainStep_rd1 s.config d₁ hm hfifo)
    have htest := handlerStep_ih2_continue hv (drainStep_rd0 s.config d₂ (P := P.delivered b bs) hm)
    rw [Port.drainPoint_cons hfifo, ← drained_delivered hfifo]
    simp only [handlerChoices_cons, State.after_cons_continueHandler]
    calc
      _ = (((s.clock d₁).setPort p (P.delivered b bs)).continueHandler p (some (.ih2 v .rd0))).runChoices
            (⟨.handler, d₂⟩ :: handlerChoices ds) :=
        State.runChoices_handler_setPort hf hP (by simp) hread
      _ = _ := State.runChoices_handler_setPort (s := s.clock d₁) hf hP (by simp) htest
      _ = _ := ih (s := (s.clock d₁).clock d₂) hf hP hm rfl (by simpa [Nat.mul_add] using hlen)

end Run

/-- Settles O29: the read of Status; then the drain's run, or the clear alone, which changes nothing where both
bits are clear. -/
theorem handlerServicesReceive : Obligations.HandlerServicesReceive := by
  intro s p P hf hh hP hm
  have hexec : exec (.irqHandler p) s = s.handlerAgent := if_pos hh
  let v := P.hw.statusRead s.config s.draw
  have hstart : (s.setPort p P).continueHandler p (some (.ih1 v .wf0)) =
      { s with handler := some ⟨p, .ih1 v .wf0⟩ } := by
    rw [State.setPort_self hP]
    rfl
  have hskip (d : Word) (ht : P.hw.txpend = false) :
      handlerStep s.config d (.ih1 v .wf0) P = handlerStep s.config d (.ih2 v .rd0) P :=
    handlerStep_ih1_skip _ d _ P ((statusRead_txpend ..).trans ht)
  refine ⟨_, hexec.trans (State.handlerAgent_ok hh hP (handlerStep_ih0 _ _ hm)), hstart,
    fun ds ht hr hlen => ?_, fun d₁ d₂ ht hr => ?_⟩
  · obtain _ | ⟨d, ds⟩ := ds
    · simp at hlen
    have hv : v.getLsbD 0 = true := (statusRead_rxpend ..).trans hr
    have htest := (hskip d ht).trans (handlerStep_ih2_continue hv (drainStep_rd0 s.config d hm))
    have hend : { s.setPort p { drained P with
          hw := { P.hw with rxfifo := [], txpend := false, rxpend := false } } with handler := none } =
        (s.setPort p (drained P).pendCleared).continueHandler p none := rfl
    rw [hend, handlerChoices_cons, State.after_cons_continueHandler]
    exact (State.runChoices_handler_setPort hf hP (by simp) htest).trans
      (State.runChoices_handlerDrain (s := s.clock d) hf hP hv hm rfl (by simpa using hlen))
  · have hread := ((hskip d₁ ht).trans (handlerStep_ih2_skip _ d₁ _ P ((statusRead_rxpend ..).trans hr))).trans
      (handlerStep_ih3_read _ d₁ hm)
    have hwrite := handlerStep_ih3_write s.config d₂ (P.hw.statusRead s.config d₁) hm
    rw [Port.pendCleared_of_clear ht hr] at hwrite
    have hend : { s with handler := none } = (s.setPort p P).continueHandler p none := by
      rw [State.setPort_self hP]
      rfl
    rw [hend]
    simp only [handlerChoices_cons, State.after_cons_continueHandler]
    exact (State.runChoices_handler_setPort hf hP (by simp) hread).trans
      (State.runChoices_handler_setPort (s := s.clock d₁) hf hP (by simp) hwrite)

end Sys2Proof.Machine
end

section
/-!
PROOFS. The port lifecycle (spec/42_port_lifecycle.md R125 to R139): its operations undisturbed, each a chain of
steps on its port that is lifted to the whole state once; the stubs; an unregistered port (R182).
-/

namespace Sys2Proof.Machine

/-! ## An undisturbed operation, on its port alone -/

/-- The operation in progress on the first port takes one step for each draw, and the last one leaves the last port.
Before each of them the port asks for its handler no more than `P₀` does, so that ordinary code goes on (R186). -/
inductive Port.Runs (c : Config) (P₀ : Port) : Port → List Word → Port → Prop
  | nil (P : Port) : Port.Runs c P₀ P [] P
  | step {P Q R : Port} {pt : OpPoint} {d : Word} {ds : List Word} (hc : P.ctl = some pt)
      (hi : P₀.interrupting c = false → P.interrupting c = false) (h : P.runOp c d pt = .ok Q)
      (hrest : Port.Runs c P₀ Q ds R) : Port.Runs c P₀ P (d :: ds) R

section Runs
variable {c : Config} {P₀ P Q R : Port} {ds ds' : List Word}

theorem Port.Runs.append (h : Port.Runs c P₀ P ds Q) (h' : Port.Runs c P₀ Q ds' R) :
    Port.Runs c P₀ P (ds ++ ds') R := by
  induction h with
  | nil P => exact h'
  | step hc hi hrun _ ih => exact .step hc hi hrun (ih h')

/-- Where `P₀` in the port's slot lets ordinary code step, the port's steps are the system's (R180, R186). -/
theorem Port.Runs.runChoices (h : Port.Runs c P₀ P ds R) {s : State} {p : Nat} (hcfg : s.config = c)
    (hr : s.ordinaryReady) (hP : s.ports[p]? = some P₀) :
    (s.setPort p P).runChoices (opChoices p ds) =
      .next (State.after (opChoices p ds) (s.setPort p R)) := by
  induction h generalizing s with
  | nil P => rfl
  | step hc hi hrun _ ih =>
    subst hcfg
    rw [opChoices_cons, State.after_cons_setPort]
    exact (State.runChoices_op_setPort hr hP hc hi hrun).trans (ih (s := s.clock _) rfl hr hP)

end Runs

/-- A port that stands at a control point is left as it is when put there. -/
theorem Port.atPoint_self {P : Port} {o : Option OpPoint} (h : P.ctl = o) : P.atPoint o = P := by
  rw [← h]
  rfl

/-- The first step of a lifecycle operation on an Idle port whose `life` its entry admits (R138). -/
theorem State.onPort_beginLifecycle {s : State} {p : Nat} {P P' Q : Port} {entry : Port → Except Stop Port}
    {pt : OpPoint} (hP : s.ports[p]? = some P) (hc : P.ctl = none) (hentry : entry P = .ok P')
    (hc' : P'.ctl = none) (h : P'.runOp s.config s.draw pt = .ok Q) :
    s.onPort p (Port.begin s.config s.draw (Port.enterLifecycle entry) pt) = .next (s.setPort p Q) :=
  State.onPort_ok hP (by rw [Port.begin, Port.enterLifecycle_idle hentry hc hc']; exact h)

/-! ## The read-modify-writes of the lifecycle operations -/

/-- The operation with the points `stay` makes a read-modify-write of register `r` there, which writes `f v` after
reading `v`, and goes on as `next` says (R59, R96, R97). -/
def RunsRmw (stay : Rmw → OpPoint) (r : Reg) (f : Word → Word) (next : Port → Port × Option OpPoint) : Prop :=
  ∀ c d m P, opStep c d (stay m) P = andThen stay next (P.rmw c d r f m)

/-- The port as such a continuation leaves it, at the point it names. -/
def Port.continued (next : Port → Port × Option OpPoint) (P : Port) : Port := (next P).1.atPoint (next P).2

theorem runsRmw_su1 : RunsRmw .su1 .ctrl (· ||| RXIE) (goto (.su2 .read)) := fun _ _ _ _ => rfl

theorem runsRmw_su2 : RunsRmw .su2 .ctrl (· ||| UARTEN) finishStartup := fun _ _ _ _ => rfl

theorem runsRmw_sd0 : RunsRmw .sd0 .ctrl (· &&& ~~~UARTEN) (goto (.sd1 .read)) := fun _ _ _ _ => rfl

theorem runsRmw_sd1 : RunsRmw .sd1 .ctrl (· &&& ~~~RXIE) (goto .sd2) := fun _ _ _ _ => rfl

theorem runsRmw_st0 : RunsRmw .st0 .ctrl (· &&& ~~~TXIE) (goto .st1) := fun _ _ _ _ => rfl

theorem runsRmw_st2 : RunsRmw .st2 .status (· &&& ~~~TXPEND) done := fun _ _ _ _ => rfl

theorem runsRmw_sr0 : RunsRmw .sr0 .ctrl (· &&& ~~~RXIE) (goto .sr1) := fun _ _ _ _ => rfl

theorem runsRmw_sr3 : RunsRmw .sr3 .status (· &&& ~~~RXPEND) done := fun _ _ _ _ => rfl

section RunsRmw
variable {stay : Rmw → OpPoint} {r : Reg} {f : Word → Word} {next : Port → Port × Option OpPoint}
  {c : Config} {d : Word} {P : Port} (hstay : RunsRmw stay r f next)
include hstay

/-- The read holds the value in the control point, and nothing else changes. -/
theorem RunsRmw.runOp_read (hr : r ≠ .rxdata) (hm : P.mapped = true) :
    P.runOp c d (stay .read) = .ok (P.atPoint (some (stay (.write (P.hw.readReg c d r).1)))) := by
  have hread : P.rmw c d r f .read = .ok (P, some (.write (P.hw.readReg c d r).1)) := by
    simp [Port.rmw, Port.regRead_mapped c d r hm, UartHw.readReg_hw c d P.hw hr]
  exact Port.runOp_of_opStep ((hstay c d _ P).trans (andThen_of_continue hread))

/-- The write stores what the value read makes, and the operation goes on. -/
theorem RunsRmw.runOp_write {v : Word} {hw : UartHw} (hm : P.mapped = true)
    (h : P.hw.writeReg c r (f v) = .ok hw) :
    P.runOp c d (stay (.write v)) = .ok (Port.continued next { P with hw := hw }) := by
  have hwrite : P.rmw c d r f (.write v) = .ok ({ P with hw := hw }, none) := by
    simp [Port.rmw, Port.regWrite_mapped c r (f v) hm, h]
  exact Port.runOp_of_opStep ((hstay c d _ P).trans (andThen_of_return hwrite))

/-- Both accesses, with no other agent in between. -/
theorem RunsRmw.runs {P₀ : Port} {hw : UartHw} (d₁ d₂ : Word) (hr : r ≠ .rxdata) (hm : P.mapped = true)
    (hc : P.ctl = some (stay .read)) (hi : P₀.interrupting c = false → P.interrupting c = false)
    (h : P.hw.writeReg c r (f (P.hw.readReg c d₁ r).1) = .ok hw) :
    Port.Runs c P₀ P [d₁, d₂]
      (Port.continued next { P.atPoint (some (stay (.write (P.hw.readReg c d₁ r).1))) with hw := hw }) :=
  .step hc hi (hstay.runOp_read hr hm) (.step rfl hi (hstay.runOp_write hm h) (.nil _))

end RunsRmw

/-! ## `startup` -/

/-- The platform's answer `ok` registers the handler (R125). -/
theorem Port.runOp_su0_ok {P : Port} (c : Config) {d : Word} (hd : d = 0) :
    P.runOp c d .su0 = .ok { P with registered := true, ctl := some (.su1 .read) } := by
  have h : opStep c d .su0 P = .ok ({ P with registered := true }, some (.su1 .read)) :=
    congrArg Except.ok (if_pos hd)
  exact Port.runOp_of_opStep h

/-- The platform's answer `err` ends `startup` (R126). -/
theorem Port.runOp_su0_err {P : Port} (c : Config) {d : Word} (hd : d ≠ 0) :
    P.runOp c d .su0 = .ok { P with life := .inactive, ret := .err d, ctl := none } := by
  have h : opStep c d .su0 P = .ok ({ P with life := .inactive, ret := .err d }, none) :=
    congrArg Except.ok (if_neg hd)
  exact Port.runOp_of_opStep h

/-- A port asks for its handler no more than it does registered and with bits of Control set (R168, R182). -/
theorem Port.interrupting_of_setCtrl {P : Port} {c : Config} (m : Word)
    (h : Port.interrupting c { P with hw := { P.hw with ctrl := P.hw.ctrl ||| m }, registered := true } = false) :
    Port.interrupting c { P with registered := true } = false := by
  have hbit (i : Nat) : P.hw.ctrl.getLsbD i = true → (P.hw.ctrl ||| m).getLsbD i = true := by
    rw [BitVec.getLsbD_or, Bool.or_eq_true]
    exact Or.inl
  exact Port.interrupting_mono (P := { P with hw := { P.hw with ctrl := P.hw.ctrl ||| m }, registered := true })
    (fun _ => rfl) (UartHw.irqOut_mono (hbit 15) (hbit 19) (hbit 18) id id) h

/-- Settles O32: the answer decides the first step; after `ok` the two read-modify-writes follow, run from the state
with `RXIE` set, in which no dispatch is enabled. -/
theorem startupSucceedsOrFails : Obligations.StartupSucceedsOrFails := by
  intro s p P d1 d2 d3 d4 ⟨hf, hh, _⟩ hP hm hc hl
  have hentry := Port.enterStartup_ok hl
  refine ⟨fun hd => ⟨_, State.onPort_beginLifecycle hP hc hentry hc (Port.runOp_su0_ok _ hd), rfl,
    fun hquiet => ?_⟩, fun hd => ?_⟩
  · let P₀ : Port := { P with hw := { P.hw with ctrl := P.hw.ctrl ||| RXIE }, registered := true }
    let Q₁ : Port := { P with life := .starting, registered := true, ctl := some (.su1 .read) }
    let Q₂ : Port := { P₀ with life := .starting, ctl := some (.su2 .read) }
    let Q₃ : Port := { P₀ with
      hw := { P.hw with ctrl := P.hw.ctrl ||| RXIE ||| UARTEN }, life := .active, ret := .ok }
    have hrxie : Port.Runs s.config P₀ Q₁ [d1, d2] Q₂ :=
      runsRmw_su1.runs d1 d2 (by decide) hm rfl (Port.interrupting_of_setCtrl RXIE) rfl
    have huarten : Port.Runs s.config P₀ Q₂ [d3, d4] (Q₃.atPoint none) :=
      runsRmw_su2.runs d3 d4 (by decide) hm rfl id rfl
    rw [Port.atPoint_self (P := Q₃) hc] at huarten
    have hrun {ds : List Word} {R : Port} (h : Port.Runs s.config P₀ Q₁ ds R) :=
      h.runChoices (s := s.setPort p P₀) rfl ⟨hf, hh, hquiet⟩ (State.setPort_get_same hP)
    simp only [State.setPort_setPort] at hrun
    exact ⟨hrun hrxie, hrun (hrxie.append huarten)⟩
  · have hend : { P with life := .inactive, ret := .err s.draw, ctl := none } =
        { P with ret := .err s.draw } := by
      rw [← hl, ← hc]
    rw [← hend]
    exact State.onPort_beginLifecycle hP hc hentry hc (Port.runOp_su0_err _ hd)

/-! ## `shutdown` -/

/-- The last step of `shutdown` unregisters the handler (R130). -/
theorem Port.runOp_sd2 (c : Config) (d : Word) (P : Port) :
    P.runOp c d .sd2 = .ok { P with registered := false, life := .inactive, ctl := none } := rfl

/-- Settles O33: the write of `sd0`, then `sd1` and `sd2`; Control only loses bits, so no dispatch is enabled. -/
theorem shutdownEndsInactive : Obligations.ShutdownEndsInactive := by
  intro s p P d1 d2 d3 d4 hr hP hm hc hl
  let P' : Port := { P with life := .stopping }
  let Q₀ : Port := P'.atPoint (some (.sd0 (.write P.hw.ctrl)))
  let Q₁ : Port := { P' with hw := { P.hw with ctrl := P.hw.ctrl &&& ~~~UARTEN }, ctl := some (.sd1 .read) }
  let Q₂ : Port := { P' with
    hw := { P.hw with ctrl := P.hw.ctrl &&& ~~~UARTEN &&& ~~~RXIE }, ctl := some .sd2 }
  let Q₃ : Port := { Q₂ with life := .inactive, registered := false, ctl := P.ctl }
  have hquiet₁ : P.interrupting s.config = false → Q₁.interrupting s.config = false :=
    Port.interrupting_clearCtrl UARTEN
  have hquiet₂ (h : P.interrupting s.config = false) : Q₂.interrupting s.config = false :=
    Port.interrupting_clearCtrl (P := Q₁) RXIE (hquiet₁ h)
  have huarten : Port.Runs s.config P Q₀ [d1] Q₁ := .step rfl id (runsRmw_sd0.runOp_write hm rfl) (.nil _)
  have hrxie : Port.Runs s.config P Q₁ [d2, d3] Q₂ := runsRmw_sd1.runs d2 d3 (by decide) hm rfl hquiet₁ rfl
  have hend : Port.Runs s.config P Q₂ [d4] (Q₃.atPoint none) := .step rfl hquiet₂ (Port.runOp_sd2 ..) (.nil _)
  rw [Port.atPoint_self (P := Q₃) hc] at hend
  exact ⟨_, State.onPort_beginLifecycle hP hc (Port.enterShutdown_ok hl) hc
      (runsRmw_sd0.runOp_read (P := P') (by decide) hm), rfl,
    huarten.runChoices rfl hr hP, (huarten.append (hrxie.append hend)).runChoices rfl hr hP⟩

/-! ## `stop_tx` -/

/-- At `st1` one read of Status: `stop_tx` stays while the TX FIFO holds a byte (R132). -/
theorem Port.runOp_st1 {P : Port} (c : Config) (d : Word) (hm : P.mapped = true) :
    P.runOp c d .st1 = .ok (P.atPoint (some (if P.hw.txfe then .st2 .read else .st1))) :=
  Port.runOp_of_opStep (by simp [opStep, st1Step, hm])

theorem Port.runOp_st1_empty {P : Port} (c : Config) (d : Word) (hm : P.mapped = true)
    (ht : P.hw.txfifo = []) : P.runOp c d .st1 = .ok (P.atPoint (some (.st2 .read))) := by
  simp [Port.runOp_st1 c d hm, UartHw.txfe, ht]

theorem Port.runOp_st1_wait {P : Port} (c : Config) (d : Word) (hm : P.mapped = true)
    (ht : P.hw.txfifo ≠ []) : P.runOp c d .st1 = .ok (P.atPoint (some .st1)) := by
  simp [Port.runOp_st1 c d hm, UartHw.txfe, ht]

/-- Writing back Status with one pending bit cleared clears that bit alone (R95, R97). -/
theorem UartHw.writeStatus_clearTxpend (c : Config) (d : Word) (hw : UartHw) :
    hw.writeStatus c (hw.statusRead c d &&& ~~~TXPEND) = { hw with txpend := false } := by
  rw [UartHw.writeStatus_clearBit, show TXPEND.getLsbD 1 = true by decide,
    show TXPEND.getLsbD 0 = false by decide]
  simp

theorem UartHw.writeStatus_clearRxpend (c : Config) (d : Word) (hw : UartHw) :
    hw.writeStatus c (hw.statusRead c d &&& ~~~RXPEND) = { hw with rxpend := false } := by
  rw [UartHw.writeStatus_clearBit, show RXPEND.getLsbD 1 = false by decide,
    show RXPEND.getLsbD 0 = true by decide]
  simp

/-- Settles O35: the write of `st0`, then on an empty TX FIFO one test at `st1` and the clear of TX-pending. -/
theorem stopTxOnEmptyFifo : Obligations.StopTxOnEmptyFifo := by
  intro s p P d1 d2 d3 d4 hr hP hm hc hl
  let Q₀ : Port := P.atPoint (some (.st0 (.write P.hw.ctrl)))
  let Q₁ : Port := { P with hw := { P.hw with ctrl := P.hw.ctrl &&& ~~~TXIE }, ctl := some .st1 }
  let Q₃ : Port := { P with hw := { P.hw with ctrl := P.hw.ctrl &&& ~~~TXIE, txpend := false } }
  have hquiet : P.interrupting s.config = false → Q₁.interrupting s.config = false :=
    Port.interrupting_clearCtrl TXIE
  have htxie : Port.Runs s.config P Q₀ [d1] Q₁ := .step rfl id (runsRmw_st0.runOp_write hm rfl) (.nil _)
  refine ⟨_, State.onPort_beginLifecycle hP hc (Port.requireLife_ok .stopTx hl) hc
      (runsRmw_st0.runOp_read (by decide) hm), rfl, htxie.runChoices rfl hr hP, fun hempty => ?_⟩
  have htest : Port.Runs s.config P Q₁ [d2] (Q₁.atPoint (some (.st2 .read))) :=
    .step rfl hquiet (Port.runOp_st1_empty _ _ hm hempty) (.nil _)
  have hpend : Port.Runs s.config P (Q₁.atPoint (some (.st2 .read))) [d3, d4] (Q₃.atPoint none) :=
    runsRmw_st2.runs d3 d4 (by decide) hm rfl hquiet
      (congrArg Except.ok (UartHw.writeStatus_clearTxpend s.config d3 Q₁.hw))
  rw [Port.atPoint_self (P := Q₃) hc] at hpend
  exact (htxie.append (htest.append hpend)).runChoices rfl hr hP

/-- Settles O36: the one step at `st1`. -/
theorem stopTxWaitsForAnEmptyFifo : Obligations.StopTxWaitsForAnEmptyFifo := by
  intro s p P d chs hr hP hm hc hs
  refine ⟨fun hfifo => ?_, fun hempty => step_op hr hP hs hc (Port.runOp_st1_empty _ d hm hempty)⟩
  have hsame : s.ports.set p (P.atPoint (some .st1)) = s.ports := by
    rw [Port.atPoint_self hc]
    exact congrArg State.ports (State.setPort_self hP)
  rw [step_op hr hP hs hc (Port.runOp_st1_wait _ d hm hfifo), hsame]

/-! ## `stop_rx` -/

section StopRx
variable {c : Config} {P₀ P : Port}

/-- At `sr1` one read of Status: `stop_rx` goes on to clear RX-pending once the RX FIFO is empty (R133). -/
theorem Port.runOp_sr1 (c : Config) (d : Word) (hm : P.mapped = true) :
    P.runOp c d .sr1 = .ok (P.atPoint (some (if P.hw.rxfe then .sr3 .read else .sr2))) :=
  Port.runOp_of_opStep (by simp [opStep, sr1Step, hm])

theorem Port.runOp_sr1_empty (c : Config) (d : Word) (hm : P.mapped = true) (hr : P.hw.rxfifo = []) :
    P.runOp c d .sr1 = .ok (P.atPoint (some (.sr3 .read))) := by
  simp [Port.runOp_sr1 c d hm, UartHw.rxfe, hr]

theorem Port.runOp_sr1_cons {b : Byte} {bs : List Byte} (c : Config) (d : Word) (hm : P.mapped = true)
    (hr : P.hw.rxfifo = b :: bs) : P.runOp c d .sr1 = .ok (P.atPoint (some .sr2)) := by
  simp [Port.runOp_sr1 c d hm, UartHw.rxfe, hr]

/-- At `sr2` the oldest byte of the RX FIFO is read and nothing made of it (R133). -/
theorem Port.runOp_sr2 {b : Byte} {bs : List Byte} (c : Config) (d : Word) (hm : P.mapped = true)
    (hr : P.hw.rxfifo = b :: bs) :
    P.runOp c d .sr2 = .ok (Port.atPoint (some .sr1) { P with hw := { P.hw with rxfifo := bs } }) :=
  Port.runOp_of_opStep (by simp [opStep, sr2Step, Port.regRead_rxdata_cons c d hm hr])

/-- A port once `stop_rx` has discarded its RX FIFO and cleared RX-pending (R133). -/
def Port.discarded (P : Port) : Port := { P with hw := { P.hw with rxfifo := [], rxpend := false } }

/-- From `sr1` on `stop_rx` discards what waits in the RX FIFO, clears RX-pending and ends. -/
theorem Port.runs_discarded {fifo : List Byte} {ds : List Word} (hm : P.mapped = true)
    (hc : P.ctl = some .sr1) (hi : P₀.interrupting c = false → P.interrupting c = false)
    (hfifo : P.hw.rxfifo = fifo) (hlen : ds.length = 2 * fifo.length + 3) :
    Port.Runs c P₀ P ds (P.discarded.atPoint none) := by
  induction fifo generalizing P ds with
  | nil =>
    obtain ⟨d₁, d₂, d₃, rfl⟩ := List.length_eq_three.mp hlen
    have hend : P.discarded = { P with hw := { P.hw with rxpend := false } } := by
      rw [Port.discarded, ← hfifo]
    rw [hend]
    exact .step hc hi (Port.runOp_sr1_empty c d₁ hm hfifo)
      (runsRmw_sr3.runs (P := P.atPoint (some (.sr3 .read))) d₂ d₃ (by decide) hm rfl hi
        (congrArg Except.ok (UartHw.writeStatus_clearRxpend c d₂ P.hw)))
  | cons b bs ih =>
    obtain _ | ⟨d₁, _ | ⟨d₂, ds⟩⟩ := ds
    · simp at hlen
    · simp at hlen
    let Q : Port := Port.atPoint (some .sr1) { P with hw := { P.hw with rxfifo := bs } }
    have hrest : Port.Runs c P₀ Q ds (P.discarded.atPoint none) :=
      ih (P := Q) hm rfl hi rfl (by simpa [Nat.mul_add] using hlen)
    exact .step hc hi (Port.runOp_sr1_cons c d₁ hm hfifo)
      (.step rfl hi (Port.runOp_sr2 (P := P.atPoint (some .sr2)) c d₂ hm hfifo) hrest)

end StopRx

/-- Settles O37: the write of `sr0`, then the loop above. -/
theorem stopRxDiscardsTheFifo : Obligations.StopRxDiscardsTheFifo := by
  intro s p P ds hr hP hm hc hl hlen
  obtain _ | ⟨d, ds⟩ := ds
  · simp at hlen
  let Q₀ : Port := P.atPoint (some (.sr0 (.write P.hw.ctrl)))
  let Q₁ : Port := { P with hw := { P.hw with ctrl := P.hw.ctrl &&& ~~~RXIE }, ctl := some .sr1 }
  let R : Port := { Q₁.discarded with ctl := P.ctl }
  have hrxie : Port.Runs s.config P Q₀ [d] Q₁ := .step rfl id (runsRmw_sr0.runOp_write hm rfl) (.nil _)
  have hloop : Port.Runs s.config P Q₁ ds (R.atPoint none) :=
    Port.runs_discarded (P := Q₁) hm rfl (Port.interrupting_clearCtrl RXIE) rfl (by simpa using hlen)
  rw [Port.atPoint_self (P := R) hc] at hloop
  exact ⟨_, State.onPort_beginLifecycle hP hc (Port.requireLife_ok .stopRx hl) hc
      (runsRmw_sr0.runOp_read (by decide) hm), (hrxie.append hloop).runChoices rfl hr hP⟩

/-! ## The stubs -/

/-- A step that leaves its port as it is leaves the state as it is. -/
theorem State.onPort_ok_self {s : State} {p : Nat} {P : Port} (hP : s.ports[p]? = some P) :
    s.onPort p .ok = .next s := by
  rw [State.onPort_ok hP rfl, State.setPort_self hP]

/-- Settles O39: the stub takes the port that is there. -/
theorem setMctrlChangesNothing : Obligations.SetMctrlChangesNothing :=
  fun _ _ _ _ hP => State.onPort_ok_self hP

/-- Settles O40: so does the other stub. -/
theorem setTermiosChangesNothing : Obligations.SetTermiosChangesNothing :=
  fun _ _ _ _ _ hP => State.onPort_ok_self hP

/-! ## An unregistered port -/

/-- Settles O56: of what a step can make of no handler, dispatch alone enters one, and it is enabled only for a
registered port. -/
theorem unregisteredPortIsNeverDispatched : Obligations.UnregisteredPortIsNeverDispatched := by
  intro s t p P hh h hP hreg ht
  rcases (SysStep.of_step h).handler with hsame | hnone | ⟨g, g', hg, -, -⟩ | ⟨q, hq, hd, -⟩
  · simp [hsame, hh] at ht
  · simp [hnone] at ht
  · simp [hh] at hg
  · obtain rfl : q = p := congrArg HandlerRun.port (Option.some.inj (hq.symm.trans ht))
    obtain ⟨P', hP', hreg'⟩ := State.registered_of_dispatchEnabled hd
    obtain rfl : P' = P := Option.some.inj (hP'.symm.trans hP)
    simp [hreg] at hreg'

end Sys2Proof.Machine
end

section
/-!
PROOFS. The UART's own steps (spec/44_hardware_events.md R160 to R173): what each does to its port and to nothing
else, the interrupt line, and the byte in the shifter, which a fair transmitter sends.
-/

namespace Sys2Proof.Machine

/-! ## A chosen step of a port -/

/-- A step of a port's UART as a step of the port, where it is enabled. -/
def Port.onHw (f : UartHw → Option UartHw) (P : Port) : Option Port :=
  (f P.hw).map fun hw => { P with hw := hw }

theorem Port.onHw_getD (f : UartHw → Option UartHw) (P : Port) :
    (P.onHw f).getD P = { P with hw := (f P.hw).getD P.hw } := by
  unfold Port.onHw
  cases f P.hw <;> rfl

section PortEvent
variable {s : State} {p : Nat} {P : Port} {f : Config → Port → Option Port}

theorem State.ports_set_self (hP : s.ports[p]? = some P) : s.ports.set p P = s.ports :=
  congrArg State.ports (State.setPort_self hP)

/-- What a step that may not be enabled leaves in its slot: the port it makes, or the one that was there. -/
theorem State.portEvent_next {g : Port → Option Port} (hP : s.ports[p]? = some P) :
    s.portEvent p g = .next (s.setPort p ((g P).getD P)) := by
  cases hg : g P with
  | none => simp [State.portEvent, hP, hg, State.setPort_self hP]
  | some Q => simp [State.portEvent, hP, hg]

/-- A step whose chosen agent is that of a port, whatever else is in progress (R180). -/
theorem step_portEvent (hf : s.fault = none) (hP : s.ports[p]? = some P)
    (ha : ∀ u : State, u.runAgent s.nextChoice.agent = u.portEvent p (f u.config)) :
    step s = .next (s.chosen.setPort p ((f s.config P).getD P)) := by
  rw [step_of_noFault hf, ha]
  exact State.portEvent_next hP

/-- The same step, where its choice is the first one listed. -/
theorem step_listed_portEvent {a : Agent} {d : Word} {chs : List Choice} (hf : s.fault = none)
    (hP : s.ports[p]? = some P) (hs : s.schedule = ⟨a, d⟩ :: chs)
    (ha : ∀ u : State, u.runAgent a = u.portEvent p (f u.config)) :
    step s = .next { s with
      ports := s.ports.set p ((f s.config P).getD P)
      schedule := chs
      tick := s.tick + 1
      draw := d } := by
  rw [step_of_choice hf hs, ha]
  exact State.portEvent_next hP

/-- The same, for a step of the port's UART. -/
theorem step_listed_hwEvent {f : Config → UartHw → Option UartHw} {a : Agent} {d : Word} {chs : List Choice}
    (hf : s.fault = none) (hP : s.ports[p]? = some P) (hs : s.schedule = ⟨a, d⟩ :: chs)
    (ha : ∀ u : State, u.runAgent a = u.hwEvent p (f u.config)) :
    step s = .next { s with
      ports := s.ports.set p { P with hw := (f s.config P.hw).getD P.hw }
      schedule := chs
      tick := s.tick + 1
      draw := d } := by
  rw [step_listed_portEvent (f := fun c => Port.onHw (f c)) hf hP hs ha, Port.onHw_getD]

end PortEvent

/-! ## The interrupt line -/

/-- Settles O53: the line is this formula of Control and the pending bits. -/
theorem interruptLineEquation : Obligations.InterruptLineEquation := by
  intro c hw
  simp only [UartHw.irqOut, UartHw.uarten, UartHw.txie, UartHw.rxie, Bool.and_eq_true, Bool.or_eq_true,
    Bool.not_eq_true']

/-! ## The transmitter -/

section Transmitter
variable {c : Config} {hw : UartHw} {P : Port}

theorem UartHw.txGate_iff : hw.txGate c = true ↔ c.enGatesTx = false ∨ hw.ctrl.getLsbD 15 = true := by
  simp only [UartHw.txGate, UartHw.uarten, Bool.or_eq_true, Bool.not_eq_true']

theorem UartHw.txGate_closed (h : c.enGatesTx = true ∧ hw.ctrl.getLsbD 15 = false) : hw.txGate c = false := by
  rw [UartHw.txGate, UartHw.uarten, h.1, h.2]
  rfl

/-- A TX event acts on TX-pending alone (R166). -/
theorem UartHw.txEvent_eq (c : Config) (wasLast : Bool) (hw : UartHw) :
    hw.txEvent c wasLast = { hw with
      txpend := hw.txpend || decide ((c.txEvent = .dequeue ∨ (c.txEvent = .fifoEmpty ∧ wasLast = true)) ∧
        (c.pendGated = false ∨ hw.ctrl.getLsbD 19 = true)) } := by
  unfold UartHw.txEvent UartHw.txie
  simp only
  split
  next hfire => rw [decide_eq_true hfire, Bool.or_true]
  next hquiet => rw [decide_eq_false hquiet, Bool.or_false]

/-- `tx_load` waits for an empty shifter, a byte in the TX FIFO and an open gate (R161). -/
theorem UartHw.txLoad_disabled (h : hw.shifter ≠ none ∨ hw.txfifo = [] ∨ hw.txGate c = false) :
    hw.txLoad c = none := by
  unfold UartHw.txLoad
  split
  next hshifter hfifo => simpa [hshifter, hfifo] using h
  next => rfl

theorem UartHw.txLoad_enabled {b : Byte} {bs : List Byte} (hshifter : hw.shifter = none)
    (hfifo : hw.txfifo = b :: bs) (hgate : hw.txGate c = true) :
    hw.txLoad c = some ({ hw with shifter := some b, txfifo := bs }.txEvent c bs.isEmpty) := by
  simp [UartHw.txLoad, hshifter, hfifo, hgate]

/-- `tx_done` waits for a byte in the shifter and an open gate (R162). -/
theorem Port.txDone_disabled (h : P.hw.shifter = none ∨ P.hw.txGate c = false) : P.txDone c = none := by
  unfold Port.txDone
  split
  next hshifter => simpa [hshifter] using h
  next => rfl

theorem Port.txDone_enabled {b : Byte} (hshifter : P.hw.shifter = some b) (hgate : P.hw.txGate c = true) :
    P.txDone c = some { P with lineOut := P.lineOut ++ [b], hw := { P.hw with shifter := none } } := by
  simp [Port.txDone, hshifter, hgate]

end Transmitter

/-- Settles O45: `tx_load` is enabled or not, and its event acts on TX-pending alone. -/
theorem txLoadStep : Obligations.TxLoadStep := by
  intro s p P d chs hf hP hs
  have hstep := step_listed_hwEvent (f := UartHw.txLoad) hf hP hs fun _ => rfl
  constructor
  · intro h
    rw [hstep, UartHw.txLoad_disabled (h.imp_right (.imp_right UartHw.txGate_closed)), Option.getD_none,
      State.ports_set_self hP]
  · intro b bs hshifter hfifo hgate
    rw [UartHw.txLoad_enabled hshifter hfifo (UartHw.txGate_iff.mpr hgate), UartHw.txEvent_eq] at hstep
    exact ⟨_, hstep, by simp⟩

/-- Settles O46: `tx_done` is enabled or not, and leaves the TX FIFO to say whether the UART is busy. -/
theorem txDoneStep : Obligations.TxDoneStep := by
  intro s p P d chs hf hP hs
  have hstep := step_listed_portEvent (f := Port.txDone) hf hP hs fun _ => rfl
  constructor
  · intro h
    rw [hstep, Port.txDone_disabled (h.imp_right UartHw.txGate_closed), Option.getD_none,
      State.ports_set_self hP]
  · intro b hshifter hgate
    rw [Port.txDone_enabled hshifter (UartHw.txGate_iff.mpr hgate)] at hstep
    exact ⟨_, rfl, hstep, by simp [UartHw.txbusy]⟩

/-! ## The receiver -/

section Receiver
variable {c : Config} {hw : UartHw} {b : Byte} {ovr : OverrunDraw}

/-- An RX event acts on RX-pending alone (R167). -/
theorem UartHw.rxEvent_eq (c : Config) (hw : UartHw) :
    hw.rxEvent c = { hw with
      rxpend := hw.rxpend || decide (c.rxEvent = .enqueue ∧ (c.pendGated = false ∨ hw.ctrl.getLsbD 18 = true)) } := by
  unfold UartHw.rxEvent UartHw.rxie
  split
  next hfire => rw [decide_eq_true hfire, Bool.or_true]
  next hquiet => rw [decide_eq_false hquiet, Bool.or_false]

theorem fitTo_length (n : Nat) (bs : List Byte) : (fitTo n bs).length = n := by
  simp [fitTo]

theorem fitTo_self {n : Nat} {bs : List Byte} (h : bs.length = n) : fitTo n bs = bs := by
  simp [fitTo, ← h]

/-- UART-enable clear loses the byte where it gates reception (R164, R170). -/
theorem UartHw.rx_gated (h : c.enGatesRx = true ∧ hw.ctrl.getLsbD 15 = false) : hw.rx c b ovr = hw := by
  refine if_pos ?_
  rw [UartHw.uarten, h.1, h.2]
  rfl

theorem UartHw.rx_ungated (h : ¬(c.enGatesRx = true ∧ hw.ctrl.getLsbD 15 = false)) :
    hw.rx c b ovr = if hw.rxfifo.length < c.rxFifoDepth then { hw with rxfifo := hw.rxfifo ++ [b] }.rxEvent c
      else hw.overrun c ovr := by
  refine if_neg ?_
  simpa [UartHw.uarten] using h

/-- A byte that is offered changes the RX FIFO and RX-pending alone (R164, R165). -/
theorem UartHw.rx_eq (c : Config) (b : Byte) (ovr : OverrunDraw) (hw : UartHw) :
    hw.rx c b ovr = { hw with rxfifo := (hw.rx c b ovr).rxfifo, rxpend := (hw.rx c b ovr).rxpend } := by
  by_cases hgate : c.enGatesRx = true ∧ hw.ctrl.getLsbD 15 = false
  · rw [UartHw.rx_gated hgate]
  rw [UartHw.rx_ungated hgate]
  split
  · rw [UartHw.rxEvent_eq]
  · unfold UartHw.overrun
    split <;> rfl

end Receiver

/-- Settles O47: the byte is lost at the gate, appended, or overruns the RX FIFO. -/
theorem receiveStep : Obligations.ReceiveStep := by
  intro s p P b ovr d chs hf hP hs
  have hstep := step_listed_hwEvent (f := fun c hw => some (hw.rx c b ovr)) hf hP hs fun _ => rfl
  rw [Option.getD_some, UartHw.rx_eq] at hstep
  refine ⟨_, _, hstep, fun hgate => ?_,
    fun hopen => ⟨fun hroom => ?_, fun hfull => ⟨fun hdrop => ?_, fun hany => ?_⟩⟩⟩
  · simp [UartHw.rx_gated hgate]
  · simp [UartHw.rx_ungated hopen, hroom, UartHw.rxEvent_eq]
  · simp [UartHw.rx_ungated hopen, hfull.not_gt, UartHw.overrun, hdrop]
  · simp only [UartHw.rx_ungated hopen, if_neg hfull.not_gt, UartHw.overrun, hany]
    exact ⟨fitTo_length _ _, fitTo_self, trivial⟩

/-! ## The spontaneous events -/

theorem UartHw.pendTx_getD (c : Config) (hw : UartHw) :
    (hw.pendTx c).getD hw = { hw with txpend := hw.txpend || (c.txEvent = .spontaneous) } := by
  unfold UartHw.pendTx
  split
  next hevent => simp [hevent]
  next hevent => simp [hevent]

theorem UartHw.pendRx_getD (c : Config) (hw : UartHw) :
    (hw.pendRx c).getD hw = { hw with rxpend := hw.rxpend || (c.rxEvent = .spontaneous) } := by
  unfold UartHw.pendRx
  split
  next hevent => simp [hevent]
  next hevent => simp [hevent]

/-- Settles O48: either event sets its bit, or does not exist and leaves the UART as it was. -/
theorem spontaneousEvents : Obligations.SpontaneousEvents := by
  intro s p P d chs hf hP
  constructor
  · intro hs
    rw [step_listed_hwEvent (f := UartHw.pendTx) hf hP hs fun _ => rfl, UartHw.pendTx_getD]
  · intro hs
    rw [step_listed_hwEvent (f := UartHw.pendRx) hf hP hs fun _ => rfl, UartHw.pendRx_getD]

/-! ## The UART's steps are local -/

/-- The parts of a port that the UART's own steps may change (R173). -/
def Port.UartOnly (P Q : Port) : Prop := Q = { P with hw := Q.hw, lineOut := Q.lineOut }

theorem Port.onHw_uartOnly {f : UartHw → Option UartHw} {P Q : Port} (h : P.onHw f = some Q) :
    Port.UartOnly P Q := by
  obtain ⟨hw, -, rfl⟩ := Option.map_eq_some_iff.mp h
  rfl

theorem Port.txDone_uartOnly {c : Config} {P Q : Port} (h : P.txDone c = some Q) : Port.UartOnly P Q := by
  obtain ⟨b, -, -, rfl⟩ := Port.txDone_cases h
  rfl

/-- A UART agent's step is a step of its port that changes the UART and `line_out` alone (R160). -/
theorem State.runAgent_uartOnly {a : Agent} {p : Nat} (ha : hardwarePort a = some p) (u : State) :
    ∃ g : Port → Option Port, u.runAgent a = u.portEvent p g ∧ ∀ P Q, g P = some Q → Port.UartOnly P Q := by
  cases a with
  | txLoad q => cases ha; exact ⟨_, rfl, fun _ _ => Port.onHw_uartOnly⟩
  | txDone q => cases ha; exact ⟨_, rfl, fun _ _ => Port.txDone_uartOnly⟩
  | rx q b ovr =>
    cases ha
    exact ⟨Port.onHw fun hw => some (hw.rx u.config b ovr), rfl, fun _ _ => Port.onHw_uartOnly⟩
  | pendTx q => cases ha; exact ⟨_, rfl, fun _ _ => Port.onHw_uartOnly⟩
  | pendRx q => cases ha; exact ⟨_, rfl, fun _ _ => Port.onHw_uartOnly⟩
  | _ => cases ha

/-- A step of a port changes the ports alone, and of those its own (R173). -/
theorem State.portEvent_local {u t : State} {p : Nat} {g : Port → Option Port} (h : u.portEvent p g = .next t) :
    t = { u with ports := t.ports } ∧ t.ports.length = u.ports.length ∧
      ∀ q, q ≠ p → t.ports[q]? = u.ports[q]? := by
  rcases State.portEvent_cases h with ⟨P, Q, -, -, rfl⟩ | rfl
  · exact ⟨rfl, List.length_set, fun q hq => State.setPort_get_other hq.symm⟩
  · exact ⟨rfl, rfl, fun _ _ => rfl⟩

/-- Settles O52: a UART agent's step is a step of its port. -/
theorem hardwareStepsAreLocal : Obligations.HardwareStepsAreLocal := by
  intro s t p hf ha h
  rw [step_of_noFault hf] at h
  obtain ⟨g, hrun, hg⟩ := State.runAgent_uartOnly ha s.chosen
  rw [hrun] at h
  obtain ⟨hrest, hlength, hother⟩ := State.portEvent_local h
  refine ⟨t.ports, hrest, hlength, hother, fun P Q hP hQ => ?_⟩
  rcases State.portEvent_slot h hP hQ with rfl | ⟨-, hstep⟩
  · rfl
  · exact hg P Q hstep

/-! ## The byte in the shifter -/

/-- The UART of port `p` is sending `b` after it has sent `out`, and UART-enable does not stop it. -/
def State.Sending (p : Nat) (b : Byte) (out : List Byte) (s : State) : Prop :=
  s.config.enGatesTx = false ∧ ∃ P, s.ports[p]? = some P ∧ P.hw.shifter = some b ∧ P.lineOut = out

/-- The UART of port `p` has sent `b` next after `out`, and its shifter is empty. -/
def State.Sent (p : Nat) (b : Byte) (out : List Byte) (s : State) : Prop :=
  ∃ P, s.ports[p]? = some P ∧ P.hw.shifter = none ∧ P.lineOut = out ++ [b]

section Shifter
variable {c : Config} {P Q : Port} {s t : State} {p : Nat} {b : Byte} {out : List Byte}

/-- Of the UART's steps that keep `line_out`, none touches a shifter that holds a byte. -/
theorem Port.Change.shifter (h : Port.Change c P Q) (hb : P.hw.shifter = some b) :
    Q.hw.shifter = some b ∧ Q.lineOut = P.lineOut ∨ Q.hw.shifter = none ∧ Q.lineOut = P.lineOut ++ [b] := by
  rcases h with ⟨h, -⟩ | ⟨hw, rfl, h⟩ | h | ⟨b', h⟩ | h | h
  · exact .inl ⟨h.shifter.trans hb, h.lineOut⟩
  · have hkeep : hw.shifter = P.hw.shifter := by
      rcases h with h | ⟨b', ovr, rfl⟩ | h | h
      · simp [UartHw.txLoad_disabled (.inl (hb ▸ Option.some_ne_none b))] at h
      · rw [UartHw.rx_eq]
      · simpa [h] using congrArg UartHw.shifter (UartHw.pendTx_getD c P.hw)
      · simpa [h] using congrArg UartHw.shifter (UartHw.pendRx_getD c P.hw)
    exact .inl ⟨hkeep.trans hb, rfl⟩
  · obtain ⟨b', hb', -, rfl⟩ := Port.txDone_cases h
    obtain rfl : b' = b := Option.some.inj (hb'.symm.trans hb)
    exact .inr ⟨rfl, rfl⟩
  · obtain ⟨-, -, rfl⟩ := Port.hostPut_cases h
    exact .inl ⟨hb, rfl⟩
  · obtain ⟨-, rfl⟩ := Port.hostPublish_cases h
    exact .inl ⟨hb, rfl⟩
  · obtain ⟨-, rfl⟩ := Port.hostTake_cases h
    exact .inl ⟨hb, rfl⟩

/-- A byte in the shifter stays there until it is sent, whichever agent steps (R162, R163). -/
theorem State.Sending.step (h : s.Sending p b out) (ht : step s = .next t) :
    t.Sending p b out ∨ t.Sent p b out := by
  obtain ⟨hgate, P, hP, hb, rfl⟩ := h
  have hsys := SysStep.of_step ht
  obtain ⟨Q, hQ, hc, -⟩ := hsys.slot_after hP
  have hgate' : t.config.enGatesTx = false := hsys.config ▸ hgate
  rcases hc with rfl | hc
  · exact .inl ⟨hgate', Q, hQ, hb, rfl⟩
  · exact (hc.shifter hb).imp (fun h => ⟨hgate', Q, hQ, h⟩) (fun h => ⟨Q, hQ, h⟩)

theorem State.Sending.txDoneEnabled (h : s.Sending p b out) : s.txDoneEnabled p := by
  obtain ⟨hgate, P, hP, hb, -⟩ := h
  exact ⟨P, hP, hb ▸ Option.some_ne_none b, UartHw.txGate_iff.mpr (.inl hgate)⟩

/-- `tx_done` sends the byte when it is chosen (R162). -/
theorem State.Sending.txDone (h : s.Sending p b out) (ha : s.nextChoice.agent = .txDone p)
    (ht : Machine.step s = .next t) : t.Sent p b out := by
  obtain ⟨hgate, P, hP, hb, rfl⟩ := h
  have hstep := step_portEvent (f := Port.txDone) (step_next_noFault ht) hP fun u => by rw [ha]; rfl
  rw [ht, Port.txDone_enabled hb (UartHw.txGate_iff.mpr (.inl hgate))] at hstep
  cases hstep
  exact ⟨_, State.setPort_get_same hP, rfl, rfl⟩

end Shifter

/-- Settles O50: a byte never sent stays in the shifter, so `tx_done` stays enabled, and fairness takes it. -/
theorem fairTransmitterSendsTheShifter : Obligations.FairTransmitterSendsTheShifter := by
  intro run n p P b hrun hfair hP hb hgate
  suffices hsent : ∃ m, n ≤ m ∧ (run m).Sent p b P.lineOut by
    obtain ⟨m, hnm, Q, hQ⟩ := hsent
    exact ⟨m, Q, hnm, hQ⟩
  by_contra hnever
  have hsending (m : Nat) (hnm : n ≤ m) : (run m).Sending p b P.lineOut := by
    induction m, hnm using Nat.le_induction with
    | base => exact ⟨hgate, P, hP, hb, rfl⟩
    | succ m hnm ih =>
      exact (ih.step (hrun m)).resolve_right fun h => hnever ⟨m + 1, Nat.le_succ_of_le hnm, h⟩
  obtain ⟨m, hnm, ha⟩ := (hfair p n).1 fun m hnm => (hsending m hnm).txDoneEnabled
  exact hnever ⟨m + 1, Nat.le_succ_of_le hnm, (hsending m hnm).txDone ha (hrun m)⟩

end Sys2Proof.Machine
end

section
/-!
PROOFS. Exceptions (spec/60_exceptions.md R182, R183, R186, R190): when a dispatch enters the handler, which agents
wait while one runs or is enabled, and what a fault and a running handler make of the step.
-/

namespace Sys2Proof.Machine

/-! ## Dispatch -/

section Dispatch
variable {s : State} {p : Nat} {P : Port}

/-- The four conditions under which dispatch for the port in a slot is enabled (R182). -/
theorem State.dispatchEnabled_iff (hP : s.ports[p]? = some P) :
    s.dispatchEnabled p = true ↔
      s.handler = none ∧ s.cpuMasked = false ∧ P.registered = true ∧ P.hw.irqOut s.config = true := by
  simp only [State.dispatchEnabled, State.takesInterrupts, Port.interrupting, hP, Option.any_some,
    Bool.and_eq_true, Bool.not_eq_true', Option.isNone_iff_eq_none, and_assoc]

/-- No handler nests: dispatch is not enabled while one runs (R183). -/
theorem State.not_dispatchEnabled_of_handler (hh : s.handler ≠ none) : ¬ s.dispatchEnabled p = true := by
  simp [State.dispatchEnabled, State.takesInterrupts, hh]

theorem State.dispatchAgent_enabled (h : s.dispatchEnabled p = true) :
    s.dispatchAgent p = .next (s.takeInterrupt p) :=
  congrArg Host.Outcome.next (if_pos h)

theorem State.dispatchAgent_disabled (h : ¬ s.dispatchEnabled p = true) : s.dispatchAgent p = .next s :=
  congrArg Host.Outcome.next (if_neg h)

end Dispatch

/-- Settles O54: the step is dispatch's, which takes the interrupt exactly when it is enabled. -/
theorem dispatchEntersTheHandler : Obligations.DispatchEntersTheHandler := by
  intro s p P d chs hf hP hs
  have hstep := step_of_choice hf hs
  rw [← State.dispatchEnabled_iff hP]
  exact ⟨fun h => hstep.trans (State.dispatchAgent_enabled (by exact h)),
    fun h => hstep.trans (State.dispatchAgent_disabled (by exact h))⟩

/-! ## The agents that wait -/

section Waiting
variable {s : State} {a : Agent}

/-- An agent of the ordinary context steps only where that context has a step (R180, R181, R188). -/
theorem State.runAgent_ordinary (ha : ordinaryAgent a = true) (s : State) :
    ∃ f, s.runAgent a = s.ordinary f := by
  cases a with
  | call | op | console | hostPut | hostPublish | hostTake => exact ⟨_, rfl⟩
  | hostStore a b => exact ⟨fun t => .next { t with hostMem := t.hostMem.write a.toNat b }, rfl⟩
  | setMasked m => exact ⟨fun t => .next { t with cpuMasked := m }, rfl⟩
  | _ => cases ha

/-- While a dispatch is enabled the ordinary context waits for it (R186). -/
theorem State.runAgent_of_pending (hd : s.dispatchPending = true) (ha : ordinaryAgent a = true) :
    s.runAgent a = .next s := by
  obtain ⟨f, hf⟩ := State.runAgent_ordinary ha s
  exact hf.trans (State.ordinary_pending hd)

/-- While a handler runs the ordinary context and dispatch wait for it (R183). -/
theorem State.runAgent_of_handler (hh : s.handler ≠ none) (ha : waitsForHandler a = true) :
    s.runAgent a = .next s := by
  by_cases ho : ordinaryAgent a = true
  · obtain ⟨f, hf⟩ := State.runAgent_ordinary ho s
    exact hf.trans (State.ordinary_handler hh)
  · cases a with
    | dispatch p => exact State.dispatchAgent_disabled (State.not_dispatchEnabled_of_handler hh)
    | _ => exact absurd ha ho

end Waiting

/-- Settles O55: the chosen agent is one that waits, so the step is the choice alone. -/
theorem handlerRunsToCompletion : Obligations.HandlerRunsToCompletion := by
  rintro s hf (⟨hh, ha⟩ | ⟨hd, ha⟩)
  · exact (step_of_noFault hf).trans (State.runAgent_of_handler (s := s.chosen) hh ha)
  · exact (step_of_noFault hf).trans (State.runAgent_of_pending (s := s.chosen) hd ha)

/-! ## A fault, and the handler's step -/

/-- A faulted system takes no step (R190). -/
theorem step_of_fault {s : State} {f : Fault} (hf : s.fault = some f) : step s = .fault f := by
  simp [step, hf]

/-- The handler's first step is the action `irq_handler` (R182). -/
theorem State.runHandler_ih0 {s : State} {p : Nat} (hh : s.handler = some ⟨p, .ih0⟩) :
    s.runHandler = exec (.irqHandler p) s := by
  simp [State.runHandler, hh]

/-- Settles O6: the handler's chosen step is `runHandler`, the handler's own at every point of it. -/
theorem faultStopsAndHandlerSteps : Obligations.FaultStopsAndHandlerSteps := by
  refine ⟨fun s f => step_of_fault, fun s h d chs hf _ hs => ?_, fun s p d chs hf hh hs => ?_⟩
  · exact (step_of_choice hf hs).trans (State.runHandler_eq_handlerAgent _)
  · exact (step_of_choice hf hs).trans (State.runHandler_ih0 (by exact hh))

end Sys2Proof.Machine
end

section
/-!
PROOFS. What reset leaves (spec/70_reset_and_hazards.md R210 to R212): the machine, each port as the glue created it,
and the Status bits that follow from empty FIFOs and an empty shifter.
-/

namespace Sys2Proof.Machine

/-- No FIFO has depth 0 (R8). -/
theorem Config.depths_pos {c : Config} (h : c.wf = true) : 0 < c.txFifoDepth ∧ 0 < c.rxFifoDepth := by
  simp only [Config.wf, Bool.and_eq_true, decide_eq_true_eq] at h
  obtain ⟨⟨⟨htx, hrx⟩, -⟩, -⟩ := h
  exact ⟨htx, hrx⟩

/-! ## The derived Status bits at hardware reset -/

/-- An empty TX FIFO is not full: its depth is at least 1 (R8, R34). -/
theorem UartHw.txff_reset {c : Config} (h : c.wf = true) (g : PortInit) :
    (UartHw.reset g).txff c = false :=
  beq_eq_false_iff_ne.mpr (Config.depths_pos h).1.ne

/-- An empty RX FIFO is not full: its depth is at least 1 (R8, R33). -/
theorem UartHw.rxff_reset {c : Config} (h : c.wf = true) (g : PortInit) :
    (UartHw.reset g).rxff c = false :=
  beq_eq_false_iff_ne.mpr (Config.depths_pos h).2.ne

theorem UartHw.txbusy_reset (g : PortInit) : (UartHw.reset g).txbusy = false := rfl

theorem UartHw.txfe_reset (g : PortInit) : (UartHw.reset g).txfe = true := rfl

theorem UartHw.rxfe_reset (g : PortInit) : (UartHw.reset g).rxfe = true := rfl

/-! ## The ports -/

/-- Each port the glue was asked for stands in its slot of the start state; `State.resetWith_slot` is the
converse. -/
theorem State.resetWith_port (c : Config) (masked : Bool) (d : Word) {gs : List PortInit} {p : Nat}
    {g : PortInit} (hg : gs[p]? = some g) :
    (State.resetWith c masked d gs).ports[p]? = some (Port.created p g) := by
  simp [State.resetWith, hg]

/-- Settles O9: every field but `TXFF` and `RXFF` stands in the reset's own definition; these two are 0
because no FIFO has depth 0. -/
theorem resetLeavesTheSpecsValues : Obligations.ResetLeavesTheSpecsValues := by
  intro c masked d gs p g hc hg
  refine ⟨rfl, rfl, rfl, Port.created p g, State.resetWith_port c masked d hg, ?_⟩
  exact ⟨rfl, rfl, rfl, rfl, rfl, rfl, rfl, rfl, rfl, rfl, rfl, rfl, UartHw.txbusy_reset g,
    UartHw.txfe_reset g, UartHw.rxff_reset hc g, UartHw.txff_reset hc g, UartHw.rxfe_reset g⟩

end Sys2Proof.Machine
end
